-- ==== Sys2Proof/Word.lean ====
section
/-! DEFINITION. The words of the engine's two ports: operands, the command record (30_encoding.md R70)
and the response record (R76). -/

namespace Sys2Proof

/-- One host byte of memory. -/
abbrev Byte := BitVec 8

/-- A 32-bit word: `CMD`, `ARG1`, `CELL_IDX`, `REM`, `STATUS`. -/
abbrev Word := BitVec 32

/-- A 64-bit word: `ARG0`, `RESULT`. -/
abbrev DWord := BitVec 64

/-- One command record on the command port (R70). -/
structure Record where
  cmd  : Word
  arg0 : DWord
  arg1 : Word
  deriving DecidableEq, Repr

/-- The response record the engine answers a command with (R76). -/
structure Response where
  status : Word
  result : DWord
  deriving DecidableEq, Repr

end Sys2Proof
end

