-- ==== Sys2Proof/Syntax.lean ====
section
/-! DEFINITION. The command set `BCE-CMD v1`: one constructor per row of spec/opcode_table.json
(30_encoding.md R72). -/

namespace Sys2Proof

/-- A decoded command. Operands are those of R74; `n` is the bit count of a read, peek or write. -/
inductive Instr where
  /-- INIT, R100. -/
  | init (base : DWord) (cap : Word)
  /-- SKIP, R102. -/
  | skip (delta : DWord)
  /-- SEEK, R104. -/
  | seek (target : DWord)
  /-- ALIGN, R105. -/
  | align
  /-- GETALIGN, R107. -/
  | getAlign
  /-- GETPOS, R108. -/
  | getPos
  /-- GETREM, R109. -/
  | getRem
  /-- RELEASE, R101. -/
  | release
  /-- READ.W, R127. -/
  | readW (n : Nat)
  /-- READ.N, R128. -/
  | readN (n : Nat)
  /-- FREAD.W, R129. -/
  | freadW (n : Nat)
  /-- FREAD.N, R130. -/
  | freadN (n : Nat)
  /-- SREAD.W, R131. -/
  | sreadW (n : Nat)
  /-- SREAD.N, R132. -/
  | sreadN (n : Nat)
  /-- PEEK.W, R133. -/
  | peekW (n : Nat)
  /-- PEEK.N, R134. -/
  | peekN (n : Nat)
  /-- FPEEK.W, R135. -/
  | fpeekW (n : Nat)
  /-- FPEEK.N, R136. -/
  | fpeekN (n : Nat)
  /-- SPEEK.W, R137. -/
  | speekW (n : Nat)
  /-- SPEEK.N, R138. -/
  | speekN (n : Nat)
  /-- WRITE, R150. -/
  | write (value : Word) (n : Nat)
  deriving DecidableEq, Repr

end Sys2Proof
end

