-- ==== Sys2Proof/WellFormed.lean ====
section
/-! DEFINITION. Which terms of `Instr` a command record can carry: the count field `CMD[13:8]` holds 0 to 63
(30_encoding.md R71, R74). A count above the command's own maximum is well formed and is a contract
violation (R166), not an encoding error. -/

namespace Sys2Proof

/-- The count a command carries in `CMD[13:8]`; none for a command that takes no count (R72, "uses N"). -/
def Instr.count : Instr → Option Nat
  | .init _ _ | .skip _ | .seek _ | .align | .getAlign | .getPos | .getRem | .release => none
  | .readW n | .readN n | .freadW n | .freadN n | .sreadW n | .sreadN n
  | .peekW n | .peekN n | .fpeekW n | .fpeekN n | .speekW n | .speekN n
  | .write _ n => some n

/-- The command fits its record: its count, if it has one, fits 6 bits (R71). -/
def Instr.wellFormed (i : Instr) : Bool :=
  match i.count with
  | none => true
  | some n => n < 64

end Sys2Proof
end

