-- ==== Sys2Proof/Decode.lean ====
section
/-! DEFINITION. The decoder from command records to commands, total, rejecting by name (30_encoding.md R71 to
R75, R77), and the encoder back (R72, R78), written from the same opcode map. -/

namespace Sys2Proof

/-- Why a command word is illegal (R75). The names are descriptive: the engine records none (R162). -/
inductive IllegalReason where
  /-- `OPC` is not one of the 21 opcodes (R75 item 1). -/
  | unassignedOpcode
  /-- `RSV ≠ 0` (R75 item 2). -/
  | reservedBits
  /-- `N ≠ 0` on a command without a count (R75 item 3). -/
  | countOnCountless
  deriving DecidableEq, Repr

/-- `OPC = CMD[7:0]` (R71). -/
def Record.opc (r : Record) : Nat := (r.cmd.extractLsb' 0 8).toNat

/-- `N = CMD[13:8]`, unsigned 0 to 63 (R71, R74). -/
def Record.n (r : Record) : Nat := (r.cmd.extractLsb' 8 6).toNat

/-- `RSV = CMD[31:14]` (R71). -/
def Record.rsv (r : Record) : Nat := (r.cmd.extractLsb' 14 18).toNat

/-- The opcode map (R72): the command an opcode stands for, with its operands (R74). -/
def opcodeMap (opc n : Nat) (arg0 : DWord) (arg1 : Word) : Option Instr :=
  match opc with
  | 0x01 => some (.init arg0 arg1)
  | 0x02 => some (.skip arg0)
  | 0x03 => some (.seek arg0)
  | 0x04 => some .align
  | 0x05 => some .getAlign
  | 0x06 => some .getPos
  | 0x07 => some .getRem
  | 0x08 => some .release
  | 0x10 => some (.readW n)
  | 0x11 => some (.readN n)
  | 0x12 => some (.freadW n)
  | 0x13 => some (.freadN n)
  | 0x14 => some (.sreadW n)
  | 0x15 => some (.sreadN n)
  | 0x18 => some (.peekW n)
  | 0x19 => some (.peekN n)
  | 0x1A => some (.fpeekW n)
  | 0x1B => some (.fpeekN n)
  | 0x1C => some (.speekW n)
  | 0x1D => some (.speekN n)
  | 0x20 => some (.write arg1 n)
  | _ => none

/-- The decoder. It reads the record alone (R77) and always consumes one whole record (R70). -/
def decode (r : Record) : Except IllegalReason Instr :=
  match opcodeMap r.opc r.n r.arg0 r.arg1 with
  | none => .error .unassignedOpcode
  | some i =>
    if r.rsv ≠ 0 then .error .reservedBits
    else if i.count = none ∧ r.n ≠ 0 then .error .countOnCountless
    else .ok i

/-- The read group decoded from its fields (R73): `OPC[7:4] = 0001`, bit 3 `P`, bits 2:1 `MM`, bit 0 `K`. -/
def readGroupByFields (opc n : Nat) : Option Instr :=
  if opc / 16 ≠ 1 then none
  else match opc / 8 % 2, opc / 2 % 4, opc % 2 with
    | 0, 0, 0 => some (.readW n)
    | 0, 0, 1 => some (.readN n)
    | 0, 1, 0 => some (.freadW n)
    | 0, 1, 1 => some (.freadN n)
    | 0, 2, 0 => some (.sreadW n)
    | 0, 2, 1 => some (.sreadN n)
    | 1, 0, 0 => some (.peekW n)
    | 1, 0, 1 => some (.peekN n)
    | 1, 1, 0 => some (.fpeekW n)
    | 1, 1, 1 => some (.fpeekN n)
    | 1, 2, 0 => some (.speekW n)
    | 1, 2, 1 => some (.speekN n)
    | _, _, _ => none

/-- A command's opcode (R72). -/
def Instr.opcode : Instr → Nat
  | .init _ _ => 0x01
  | .skip _ => 0x02
  | .seek _ => 0x03
  | .align => 0x04
  | .getAlign => 0x05
  | .getPos => 0x06
  | .getRem => 0x07
  | .release => 0x08
  | .readW _ => 0x10
  | .readN _ => 0x11
  | .freadW _ => 0x12
  | .freadN _ => 0x13
  | .sreadW _ => 0x14
  | .sreadN _ => 0x15
  | .peekW _ => 0x18
  | .peekN _ => 0x19
  | .fpeekW _ => 0x1A
  | .fpeekN _ => 0x1B
  | .speekW _ => 0x1C
  | .speekN _ => 0x1D
  | .write _ _ => 0x20

/-- The `ARG0` an encoder writes (R74, R78): 0 where the command ignores it. -/
def Instr.arg0 : Instr → DWord
  | .init b _ => b
  | .skip d => d
  | .seek a => a
  | _ => 0

/-- The `ARG1` an encoder writes (R74, R78): 0 where the command ignores it. -/
def Instr.arg1 : Instr → Word
  | .init _ c => c
  | .write v _ => v
  | _ => 0

/-- `CMD` from its fields, `RSV` zero (R71, R78): `N` above the opcode. -/
def packCmd (opc n : Nat) : Word := BitVec.ofNat 32 (n % 64 * 256 + opc % 256)

/-- The encoder (R78): `n` in `CMD[13:8]`, the opcode in `CMD[7:0]`, zero in `RSV` and in every ignored
operand. -/
def encode (i : Instr) : Record :=
  { cmd := packCmd i.opcode (i.count.getD 0), arg0 := i.arg0, arg1 := i.arg1 }

/-- The mnemonic of a command (R72). -/
def Instr.mnemonic : Instr → String
  | .init _ _ => "INIT"
  | .skip _ => "SKIP"
  | .seek _ => "SEEK"
  | .align => "ALIGN"
  | .getAlign => "GETALIGN"
  | .getPos => "GETPOS"
  | .getRem => "GETREM"
  | .release => "RELEASE"
  | .readW _ => "READ.W"
  | .readN _ => "READ.N"
  | .freadW _ => "FREAD.W"
  | .freadN _ => "FREAD.N"
  | .sreadW _ => "SREAD.W"
  | .sreadN _ => "SREAD.N"
  | .peekW _ => "PEEK.W"
  | .peekN _ => "PEEK.N"
  | .fpeekW _ => "FPEEK.W"
  | .fpeekN _ => "FPEEK.N"
  | .speekW _ => "SPEEK.W"
  | .speekN _ => "SPEEK.N"
  | .write _ _ => "WRITE"

/-- An unsigned operand of an assembly line, if it fits `bits` (R74). -/
def unsignedOperand (bits : Nat) (x : Int) : Option (BitVec bits) :=
  if 0 ≤ x ∧ x < (2 : Int) ^ bits then some (BitVec.ofInt bits x) else none

/-- A signed operand of an assembly line, if it fits `bits` (R74, R78: `<delta>` is a signed 64-bit number). -/
def signedOperand (bits : Nat) (x : Int) : Option (BitVec bits) :=
  if -(2 : Int) ^ (bits - 1) ≤ x ∧ x < (2 : Int) ^ (bits - 1) then some (BitVec.ofInt bits x) else none

/-- A count operand of an assembly line: 0 to 63 (R78). -/
def countOperand (x : Int) : Option Nat :=
  if 0 ≤ x ∧ x < 64 then some x.toNat else none

/-- One assembly line, already cut into its mnemonic and its numbers (R78; log entry 19): operands in the
order the syntax gives them, no pseudo-instruction, no mnemonic without its width suffix. -/
def parseLine (mnemonic : String) (operands : List Int) : Option Instr :=
  match mnemonic, operands with
  | "INIT", [b, c] =>
    match unsignedOperand 64 b, unsignedOperand 32 c with
    | some b, some c => some (.init b c)
    | _, _ => none
  | "SKIP", [d] => (signedOperand 64 d).map .skip
  | "SEEK", [a] => (unsignedOperand 64 a).map .seek
  | "ALIGN", [] => some .align
  | "GETALIGN", [] => some .getAlign
  | "GETPOS", [] => some .getPos
  | "GETREM", [] => some .getRem
  | "RELEASE", [] => some .release
  | "READ.W", [n] => (countOperand n).map .readW
  | "READ.N", [n] => (countOperand n).map .readN
  | "FREAD.W", [n] => (countOperand n).map .freadW
  | "FREAD.N", [n] => (countOperand n).map .freadN
  | "SREAD.W", [n] => (countOperand n).map .sreadW
  | "SREAD.N", [n] => (countOperand n).map .sreadN
  | "PEEK.W", [n] => (countOperand n).map .peekW
  | "PEEK.N", [n] => (countOperand n).map .peekN
  | "FPEEK.W", [n] => (countOperand n).map .fpeekW
  | "FPEEK.N", [n] => (countOperand n).map .fpeekN
  | "SPEEK.W", [n] => (countOperand n).map .speekW
  | "SPEEK.N", [n] => (countOperand n).map .speekN
  | "WRITE", [v, n] =>
    match unsignedOperand 32 v, countOperand n with
    | some v, some n => some (.write v n)
    | _, _ => none
  | _, _ => none

/-- The record an assembly line stands for (R78). -/
def assemble (mnemonic : String) (operands : List Int) : Option Record :=
  (parseLine mnemonic operands).map encode

/-- A record from one number, `CMD` in the low 32 bits, then `ARG0`, then `ARG1` (DESIGN CHOICE, log entry
13: the table numbers the command word's bits and R70 gives the fields' order). -/
def recordOfBits (w : Nat) : Record :=
  { cmd := BitVec.ofNat 32 w, arg0 := BitVec.ofNat 64 (w / 2 ^ 32), arg1 := BitVec.ofNat 32 (w / 2 ^ 96) }

/-- The command the decoder reads from an instruction word of `nbits` bits; every bit above them is 0. -/
def decodeTableWord (nbits w : Nat) : Option Instr :=
  match decode (recordOfBits (w % 2 ^ nbits)) with
  | .ok i => some i
  | .error _ => none

end Sys2Proof
end

