-- ==== Sys2Proof/Config.lean ====
section
/-! DEFINITION. The build-time parameters of an engine instance (00_scope.md R8), the spec's fixed
numbers, and the free values: constants without a body, of which nothing can be proved. -/

namespace Sys2Proof

/-- `W`, the storage-cell width: 8, 16 or 32 (R8; 92_eei_decisions.md D13). -/
inductive CellWidth where
  | w8 | w16 | w32
  deriving DecidableEq, Repr

/-- `W` in bits. -/
def CellWidth.bits : CellWidth → Nat
  | .w8 => 8 | .w16 => 16 | .w32 => 32

/-- `log2W` (R9): the width of `BIT_OFF`. -/
def CellWidth.log2 : CellWidth → Nat
  | .w8 => 3 | .w16 => 4 | .w32 => 5

/-- Host bytes in a cell. -/
def CellWidth.bytes : CellWidth → Nat
  | .w8 => 1 | .w16 => 2 | .w32 => 4

/-- `CELL_LAYOUT` (R54): how a W-bit cell maps to host bytes. DESIGN CHOICE (log entry 3): the cell's
bytes are adjacent and in one of the two usual orders. The engine sees whole cells only. -/
inductive CellLayout where
  | littleEndian | bigEndian
  deriving DecidableEq, Repr

/-- The parameters of one engine instance (R8). DESIGN CHOICE (log entries 1 and 2): they stand in State
as data that no step changes, so that a statement about every state holds for every instance. -/
structure Config where
  width  : CellWidth
  addrW  : Nat
  layout : CellLayout
  deriving DecidableEq, Repr

/-- The values this spec gives the parameters (R8): `W` = 8, `ADDR_W` = 32; `CELL_LAYOUT` is open. -/
def Config.spec : Config := { width := .w8, addrW := 32, layout := .bigEndian }

/-- The legal values of the parameters (R8). -/
abbrev Config.wf (c : Config) : Prop := 1 ≤ c.addrW ∧ c.addrW ≤ 64

/-- `W`. -/
abbrev Config.w (c : Config) : Nat := c.width.bits

/-- The number of cell addresses, `2^ADDR_W` (R50). -/
abbrev Config.space (c : Config) : Nat := 2 ^ c.addrW

/-- `CAP_MAX` (R8). -/
def Config.capMax : Nat := 2147483647
/-- `NMAX_WIDE` (R8, R123). -/
def Config.nmaxWide : Nat := 32
/-- `NMAX_NARROW` (R8, R123). -/
def Config.nmaxNarrow : Nat := 16
/-- `NMAX_WRITE` (R8, R150). -/
def Config.nmaxWrite : Nat := 32
/-- The floor of `REM`, −2^31 (R24, R126). -/
def Config.remMin : Int := -2147483648
/-- `ALIGN_Q` (R8, R106). -/
def Config.alignQ : Nat := 8

/-- FREE VALUE: what a byte the host never wrote holds, by host byte address (70_reset_and_hazards.md R193:
"a model treats it as a free draw"; log entry 4). -/
opaque Config.initialByte : Nat → Byte

/-- FREE VALUE: whether the store of an abandoned command landed, by draw number (R191: "a free choice
between those two"; log entry 9). -/
opaque Config.abandonedStoreLands : Nat → Bool

/-- FREE VALUE: whether an abandoned command that was to fault had reached `FAULT = 1` before the reset came, by draw
number (R191 and R198 leave it open; log entry 22). -/
opaque Config.abandonedFaultReached : Nat → Bool

/-- When another agent's store to a cell falls, against the engine's accesses of that cell (R60). -/
inductive RaceOrder where
  | before | between | after
  deriving DecidableEq, Repr, Inhabited

/-- FREE VALUE: where a racing store falls, by draw number (R60; log entry 10). -/
opaque Config.raceOrder : Nat → RaceOrder

end Sys2Proof
end

