-- ==== Sys2Proof/Machine/State.lean ====
section
/-! DEFINITION. The state of one engine instance and its host's side, as plain data (10_state.md R20 to R35,
70_reset_and_hazards.md R199), the reasons a step can stop, and the state after reset. -/

namespace Sys2Proof.Machine

/-- The codes of `STATUS.LAST` (60_exceptions.md R164); 5 to 7 are never produced. -/
inductive Last where
  | ok | oob | contract | illegal | faulted
  deriving DecidableEq, Repr

/-- One access on the memory port, to one whole cell (20_memory.md R52). -/
inductive Access where
  | read (cell : Nat)
  | write (cell value : Nat)
  deriving DecidableEq, Repr

/-- A store to one cell by an agent other than the engine. -/
structure CellStore where
  cell  : Nat
  value : Word
  deriving DecidableEq, Repr

/-- A run of adjacent cells: `cells` of them from cell address `first` (20_memory.md R51). -/
structure Region where
  first : Nat
  cells : Nat
  deriving DecidableEq, Repr

/-- A duty of the host that the engine cannot check, broken (70_reset_and_hazards.md R199). -/
inductive Breach where
  /-- A second command before the response to the first (R194). -/
  | overlappingCommand
  /-- Two hosts on one engine without locking (R194). -/
  | unlockedSharing
  /-- INIT names memory the host never allocated, or fewer cells than `ceil(cap / W)` (R193 item 1). -/
  | bufferNotAllocated
  /-- INIT names a capacity that is not the buffer's (R193 item 3, 20_memory.md R51). -/
  | wrongCapacity
  /-- A buffer over memory with side effects (20_memory.md R63). -/
  | bufferOverDevice
  /-- Memory that signals an error on a buffer cell (20_memory.md R65). -/
  | memoryError
  deriving DecidableEq, Repr

/-- What the host, or another agent it must answer for, does next (70_reset_and_hazards.md R199). DESIGN CHOICE (log
entry 23): the spec does not say how a race (R60, R196) and a reset in the same command (R191) combine, and
there is no event for a command that is both: `commandThenReset` carries no racing stores, so another agent's
stores fall before such a command or after its reset. -/
inductive HostEvent where
  /-- Issue a command and wait for its response (30_encoding.md R70, R194). -/
  | command (r : Record)
  /-- Issue a command while other agents store to memory in flight (20_memory.md R60). -/
  | commandRaced (r : Record) (stores : List CellStore)
  /-- Issue a command and assert reset while it is in flight (R191). -/
  | commandThenReset (r : Record)
  /-- Assert reset with no command in flight (R190). -/
  | reset
  /-- Store to a cell between commands (R195, R199). -/
  | storeCell (st : CellStore)
  /-- Store to a host byte between commands (20_memory.md R54). -/
  | storeByte (byteAddr : Nat) (value : Byte)
  /-- Load a cell between commands (R199): ordinary memory, no side effect (20_memory.md R63). -/
  | loadCell (cell : Nat)
  /-- Free cells, or give them to another use (R193, R199). -/
  | free (r : Region)
  /-- Allocate cells for a buffer (R193 item 1). -/
  | allocate (r : Region)
  /-- Break a duty the engine cannot check (R199). -/
  | breach (b : Breach)
  deriving DecidableEq, Repr

/-- Memory: host bytes by host byte address, addresses strictly rising (`Memory.wf`). An address without an
entry was never written: it reads as the free draw `Config.initialByte` (R193; log entry 4). -/
abbrev Memory := List Host.Cell

/-- The state. The field comments give the rule of spec/ and the register number of R20. -/
structure State where
  /-- The instance's build-time parameters (00_scope.md R8); no step changes them. -/
  cfg         : Config
  /-- `BASE`, register 0, `ADDR_W` bits (R21). -/
  base        : DWord
  /-- `CELL_IDX`, register 1 (R22). -/
  cellIdx     : Word
  /-- `BIT_OFF`, register 2, `log2W` bits (R23). -/
  bitOff      : BitVec 5
  /-- `REM`, register 3, two's complement (R24). -/
  rem         : Word
  /-- `VALID`, register 4 (R25). -/
  valid       : Bool
  /-- `RESULT`, register 5 (R29). -/
  result      : DWord
  /-- `STATUS.LAST`, register 6 bits [2:0] (R30). -/
  last        : Last
  /-- `STATUS.FAULT`, register 6 bit [4] (R30). -/
  fault       : Bool
  /-- The data memory (R50). -/
  mem         : Memory
  /-- The response record last put on the port (R76). -/
  response    : Option Response
  /-- The memory-port accesses of the latest command, in order (R59). The model's own (log entry 8). -/
  trace       : List Access
  /-- What the host does from here on (R31, R199; log entry 7). -/
  pending     : List HostEvent
  /-- The index of the next command in the host's list (R31). -/
  k           : Nat
  /-- The cells the host has freed and not allocated again (R193, R199; log entry 11). -/
  freed       : List Region
  /-- The host has not kept the live cursor's buffer allocated (R193 items 1 and 4; log entry 11). -/
  bufferFreed : Bool
  /-- This run reached `FAULT = 1` before its latest reset (R198). The model's own (log entry 22). -/
  faultedBefore : Bool
  /-- How many free draws were taken (R60, R191). The model's own (log entry 16). -/
  draws       : Nat
  deriving DecidableEq, Repr

/-- Why the model stops with a fault. (A fault of the ENGINE is no such stop: it is a next state with
`STATUS.FAULT` set, R162; log entry 5.) -/
inductive Fault where
  /-- Raised by an access, of the engine or of the host, to an address outside the address space of
  R50. Safe: no command reaches it from a state that meets the invariant (R56; log entry 6). -/
  | addressOutsideSpace (addr : Nat)
  deriving DecidableEq, Repr

/-- Why the model gives a step no meaning. -/
inductive Refusal where
  /-- Raised by exec for a command without a meaning yet. Safe. -/
  | notModelled (mnemonic : String)
  /-- Raised by a cursor command over a freed buffer while `VALID = 1` (R193, R199). Safe: "A model excludes
  such programs from every claim". -/
  | useAfterFree
  /-- Raised by the host event `breach` (R199: "When a run breaks a duty, a model refuses that run").
  Safe. -/
  | dutyBroken (b : Breach)
  deriving DecidableEq, Repr

/-- The engine with the given parameters just out of reset (R35, R190, R200), nothing written to memory and
no host event to come. -/
def State.resetWith (cfg : Config) : State :=
  { cfg := cfg
    base := 0, cellIdx := 0, bitOff := 0, rem := 0
    valid := false, result := 0, last := .ok, fault := false
    mem := [], response := none, trace := [], pending := [], k := 0
    freed := [], bufferFreed := false, faultedBefore := false, draws := 0 }

/-- The machine right after reset, with the values this spec gives the parameters (R8). -/
def State.reset : State := .resetWith .spec

end Sys2Proof.Machine
end

