-- ==== Sys2Proof/Machine/Flags.lean ====
section
/-! DEFINITION. The flags and the status word (10_state.md R30, R33; 60_exceptions.md R164): `LAST` and
`FAULT` are stored, `VALID` is a view, `OVR` is a comparison. -/

namespace Sys2Proof.Machine

/-- The code of an outcome (R164). -/
def Last.code : Last → Nat
  | .ok => 0
  | .oob => 1
  | .contract => 2
  | .illegal => 3
  | .faulted => 4

/-- `REM` as a signed number (R24). -/
def State.remaining (s : State) : Int := s.rem.toInt

/-- `OVR` (R30): `VALID = 1 and REM < 0`. -/
def State.ovr (s : State) : Bool := s.valid && decide (s.remaining < 0)

/-- `STATUS` as the host reads it (R30): `LAST` [2:0], `VALID` [3], `FAULT` [4], `OVR` [5], zero above. -/
def State.status (s : State) : Word :=
  BitVec.ofNat 32 (s.last.code + 8 * s.valid.toNat + 16 * s.fault.toNat + 32 * s.ovr.toNat)

end Sys2Proof.Machine
end

