-- ==== Sys2Proof/Machine/Operands.lean ====
section
/-! DEFINITION. The operand forms (30_encoding.md R74), the derived quantities every command computes with
(10_state.md R26, R27; 40_positioning.md R106) and which commands need a cursor (R25). -/

namespace Sys2Proof.Machine

/-- `sint64(ARG0)` (00_scope.md R11): the delta of SKIP, two's complement. -/
def sint64 (a : DWord) : Int := a.toInt

/-- `ABS = CELL_IDX * W + BIT_OFF`, exact (R26). -/
def State.abs (s : State) : Nat := s.cellIdx.toNat * s.cfg.w + s.bitOff.toNat

/-- `CAP = REM + ABS`, derived and never stored (R27). -/
def State.cap (s : State) : Int := s.remaining + s.abs

/-- `ceil(cap / W)`: the cells of a buffer of `cap` bits (R51). -/
def cellsFor (cfg : Config) (cap : Nat) : Nat := (cap + (cfg.w - 1)) / cfg.w

/-- The buffer of the cursor: `ceil(CAP / W)` cells from `BASE` (R51). -/
def State.buffer (s : State) : Region := { first := s.base.toNat, cells := cellsFor s.cfg s.cap.toNat }

/-- `alignBits()` (R106): bits to the next 8-bit boundary, 0 to 7, whatever `W` is. -/
def State.alignBits (s : State) : Nat :=
  (Config.alignQ - s.bitOff.toNat % Config.alignQ) % Config.alignQ

/-- Every command but INIT and RELEASE needs `VALID = 1` (R25, R165): these are the cursor commands. -/
def needsCursor : Instr → Bool
  | .init _ _ | .release => false
  | _ => true

end Sys2Proof.Machine
end

