-- ==== Sys2Proof/Machine/Ops.lean ====
section
/-! DEFINITION. The named operations the meanings are made of: memory and its cells, the memory port, gather
and scatter, the four outcomes, the prologue and the moves of the cursor. -/

namespace Sys2Proof.Machine

/-! ### Memory as host bytes (20_memory.md R50, R54) -/

/-- The canonical form: addresses strictly rising. -/
abbrev Memory.wf (m : Memory) : Prop := (m.map Prod.fst).Pairwise (· < ·)

/-- The byte written at an address, if one was. -/
def Memory.lookup : Memory → Nat → Option Byte
  | [], _ => none
  | (a', b) :: m, a => if a' = a then some b else Memory.lookup m a

/-- The byte at an address: a byte never written is a free draw, the same at every read (R193). -/
def Memory.readByte (m : Memory) (a : Nat) : Byte := (m.lookup a).getD (Config.initialByte a)

/-- Store one byte, keeping the addresses rising. -/
def Memory.writeByte : Memory → Nat → Byte → Memory
  | [], a, b => [(a, b)]
  | (a', b') :: m, a, b =>
    if a < a' then (a, b) :: (a', b') :: m
    else if a = a' then (a, b) :: m
    else (a', b') :: Memory.writeByte m a b

/-- The host byte address of the byte of significance `j` (0 the least) of cell `a`: `CELL_LAYOUT`
(R54; log entry 3). -/
def byteAddr (cfg : Config) (a j : Nat) : Nat :=
  a * cfg.width.bytes + match cfg.layout with
    | .littleEndian => j
    | .bigEndian => cfg.width.bytes - 1 - j

/-- The number the `k` least significant bytes of cell `a` make. -/
def Memory.cellBytes (cfg : Config) (m : Memory) (a : Nat) : Nat → Nat
  | 0 => 0
  | j + 1 => Memory.cellBytes cfg m a j + (m.readByte (byteAddr cfg a j)).toNat * 256 ^ j

/-- The W-bit cell at cell address `a` (R52). -/
def Memory.readCell (cfg : Config) (m : Memory) (a : Nat) : Nat :=
  Memory.cellBytes cfg m a cfg.width.bytes

/-- Store the `k` least significant bytes of `v` to cell `a`. -/
def Memory.storeBytes (cfg : Config) (m : Memory) (a v : Nat) : Nat → Memory
  | 0 => m
  | j + 1 => (Memory.storeBytes cfg m a v j).writeByte (byteAddr cfg a j) (BitVec.ofNat 8 (v / 256 ^ j))

/-- Replace the W-bit cell at cell address `a` (R52). -/
def Memory.writeCell (cfg : Config) (m : Memory) (a v : Nat) : Memory :=
  Memory.storeBytes cfg m a v cfg.width.bytes

/-! ### The memory port (20_memory.md R52, R59) -/

/-- `MemRead(a, 1)`. An address at or above `2^ADDR_W` does not exist (R50). -/
def memRead (s : State) (a : Nat) : Except Fault (Nat × State) :=
  if a < s.cfg.space then
    .ok (s.mem.readCell s.cfg a, { s with trace := s.trace ++ [.read a] })
  else .error (.addressOutsideSpace a)

/-- `MemWrite(a, 1, v)`. -/
def memWrite (s : State) (a v : Nat) : Except Fault State :=
  if a < s.cfg.space then
    .ok { s with mem := s.mem.writeCell s.cfg a v, trace := s.trace ++ [.write a v] }
  else .error (.addressOutsideSpace a)

/-! ### Gather (41_read.md R120, R124) -/

/-- Read buffer cells `c` to `c + cnt − 1`, ascending, each once. -/
def readCells : State → Nat → Nat → Except Fault (List Nat × State)
  | s, _, 0 => .ok ([], s)
  | s, c, cnt + 1 =>
    match memRead s (s.base.toNat + c) with
    | .error f => .error f
    | .ok (v, s1) =>
      match readCells s1 (c + 1) cnt with
      | .error f => .error f
      | .ok (vs, s2) => .ok (v :: vs, s2)

/-- Bit `q` of a run of cells of `w` bits, MSB-first: cursor offset `q mod w` is value bit
`w − 1 − (q mod w)` (20_memory.md R53). -/
def runBit (w : Nat) (cells : List Nat) (q : Nat) : Bool :=
  (cells.getD (q / w) 0).testBit (w - 1 - q % w)

/-- The number the `k` bits from bit `q` of a run of cells make, the first bit the most significant. -/
def runValue (w : Nat) (cells : List Nat) (q : Nat) : Nat → Nat
  | 0 => 0
  | k + 1 => 2 * runValue w cells q k + (runBit w cells (q + k)).toNat

/-- How many cells the `k` stream bits from `p` lie in (R120). -/
def cellSpan (w p k : Nat) : Nat := if k = 0 then 0 else (p + k - 1) / w - p / w + 1

/-- `gather(p, k)` (R120): the `k` stream bits from `p`. It reads no cell when `k = 0`. -/
def gather (s : State) (p k : Nat) : Except Fault (Nat × State) :=
  match readCells s (p / s.cfg.w) (cellSpan s.cfg.w p k) with
  | .error f => .error f
  | .ok (cells, s1) => .ok (runValue s.cfg.w cells (p % s.cfg.w) k, s1)

/-- The real bits of a tolerant read: `min(n, max(0, REM))` (R124, R125). -/
def State.realBits (s : State) (n : Nat) : Nat := min n s.remaining.toNat

/-- `tolval(n)` (R124): the real bits, then a low-order tail of zeros. -/
def tolval (s : State) (n : Nat) : Except Fault (Nat × State) :=
  if (n : Int) ≤ s.remaining then gather s s.abs n
  else
    let valid := (max 0 s.remaining).toNat
    match gather s s.abs valid with
    | .error f => .error f
    | .ok (v, s1) => .ok (v <<< (n - valid), s1)

/-- Stream bit `p` of the buffer (20_memory.md R53), as memory holds it. -/
def State.streamBit (s : State) (p : Nat) : Bool :=
  (s.mem.readCell s.cfg (s.base.toNat + p / s.cfg.w)).testBit (s.cfg.w - 1 - p % s.cfg.w)

/-! ### The source's stepwise gather (41_read.md R139), kept to be proved equal to R120's -/

/-- Step 2 and 3 of R139: append full cells to `acc` while `n` allows, then the top bits of a last cell. -/
def stepwiseTail (w : Nat) : List Nat → Nat → Nat → Nat
  | [], acc, _ => acc
  | cell :: rest, acc, n =>
    if w ≤ n then stepwiseTail w rest (acc <<< w ||| cell) (n - w)
    else if n = 0 then acc
    else acc <<< n ||| cell >>> (w - n)

/-- The four steps of R139 on the cells from the current one, `off` the bit offset in it. -/
def stepwiseValue (w : Nat) (cells : List Nat) (off n : Nat) : Nat :=
  let head := cells.getD 0 0 % 2 ^ (w - off)
  if n ≤ w - off then head >>> (w - off - n)
  else stepwiseTail w (cells.drop 1) head (n - (w - off))

/-! ### Scatter (42_write.md R151) -/

/-- Replace value bit `sh` of `x` by `b`: clear it under a mask, then OR the new bit in
(R151; 90_conflicts.md C1). -/
def replaceBit (x sh : Nat) (b : Bool) : Nat :=
  (x ^^^ (x &&& 1 <<< sh)) ||| b.toNat <<< sh

/-- Replace the cell bits of stream bits `q` to `q + cnt − 1` from the run `v` of `k` bits at `p`. -/
def mergeBits (w p k v : Nat) : Nat → Nat → Nat → Nat
  | x, _, 0 => x
  | x, q, cnt + 1 =>
    mergeBits w p k v (replaceBit x (w - 1 - q % w) (v.testBit (k - 1 - (q - p)))) (q + 1) cnt

/-- Write the part of the run that falls in cells `c` to `c + cnt − 1`, ascending. A wholly covered cell is
written without a read; a partly covered one is read, merged and written back. -/
def scatterCells (p k v : Nat) : State → Nat → Nat → Except Fault State
  | s, _, 0 => .ok s
  | s, c, cnt + 1 =>
    let w := s.cfg.w
    let a := s.base.toNat + c
    let lo := max p (c * w)
    let hi := min (p + k) ((c + 1) * w)
    match (if lo = c * w ∧ hi = (c + 1) * w then .ok (0, s) else memRead s a : Except Fault (Nat × State)) with
    | .error f => .error f
    | .ok (old, s1) =>
      match memWrite s1 a (mergeBits w p k v old lo (hi - lo)) with
      | .error f => .error f
      | .ok s2 => scatterCells p k v s2 (c + 1) cnt

/-- `scatter(p, k, v)` (R151). It touches no cell when `k = 0`. -/
def scatter (s : State) (p k v : Nat) : Except Fault State :=
  scatterCells p k v s (p / s.cfg.w) (cellSpan s.cfg.w p k)

/-! ### Memory the host has freed (70_reset_and_hazards.md R193, R199; log entry 11) -/

/-- Cell `a` is one of the region's. -/
def Region.covers (r : Region) (a : Nat) : Bool := decide (r.first ≤ a ∧ a < r.first + r.cells)

/-- The regions have a cell in common. -/
def Region.overlaps (r q : Region) : Bool :=
  decide (max r.first q.first < min (r.first + r.cells) (q.first + q.cells))

/-- The cells of `r` that are not in `q`: those below it and those above it. -/
def Region.without (r q : Region) : List Region :=
  let below : Region := { first := r.first, cells := min (r.first + r.cells) q.first - r.first }
  let above : Region :=
    { first := max r.first (q.first + q.cells), cells := r.first + r.cells - max r.first (q.first + q.cells) }
  [below, above].filter fun x => decide (0 < x.cells)

/-- The freed cells once the host has allocated those of `q`. -/
def allocateRegion (q : Region) (freed : List Region) : List Region := freed.flatMap (·.without q)

/-- The freed cells once the host has freed those of `q`. -/
def freeRegion (q : Region) (freed : List Region) : List Region := q :: allocateRegion q freed

/-- Cell `a` is freed. -/
def cellFreed (freed : List Region) (a : Nat) : Bool := freed.any (·.covers a)

/-- A cell of `q` is freed. -/
def regionFreed (freed : List Region) (q : Region) : Bool := freed.any (·.overlaps q)

/-! ### Outcomes (60_exceptions.md R160 to R167) -/

/-- The reasons of R166. The engine records none of them (R162; log entry 12). -/
inductive ContractReason where
  | noCursor | nTooLarge | valueNotMasked | fastPrecondition | remUnderflow
  | badBase | capTooLarge | bufferWraps
  deriving DecidableEq, Repr

/-- What raises a fault of the engine (R162). -/
inductive FaultEvent where
  | contract (reason : ContractReason)
  | illegal (reason : IllegalReason)
  deriving DecidableEq, Repr

/-- The code a fault leaves in `LAST` (R162, R164). -/
def faultCode : FaultEvent → Last
  | .contract _ => .contract
  | .illegal _ => .illegal

/-- Taking a fault (R162, R170): `LAST` and `FAULT`, nothing else. The engine has no trap entry. -/
def raiseFault (e : FaultEvent) (s : State) : State :=
  { s with last := faultCode e, fault := true }

/-- A command while `FAULT = 1` (R163): `LAST` alone. -/
def refuseFaulted (s : State) : State := { s with last := .faulted }

/-- `fail OutOfBounds` (R161): `LAST` alone. -/
def failOutOfBounds (s : State) : State := { s with last := .oob }

/-- `done(OK)`. -/
def doneOk (s : State) : State := { s with last := .ok }

/-- The run has faulted: it reached `FAULT = 1`, now or before a reset ("whatever commands follow",
70_reset_and_hazards.md R198; log entry 22). -/
def State.hasFaulted (s : State) : Bool := s.fault || s.faultedBefore

/-- Hardware reset (70_reset_and_hazards.md R190): every register to its reset value, the one way out of a
fault (R171: there is no return-from-trap command). Memory, parameters and the host's own position
stay. No response is on the port. That the run has faulted stays on record (R198). -/
def hardReset (s : State) : State :=
  { s with
    base := 0, cellIdx := 0, bitOff := 0, rem := 0
    valid := false, result := 0, last := .ok, fault := false
    response := none, trace := [], bufferFreed := false, faultedBefore := s.hasFaulted }

/-- What a step answers. -/
abbrev Answer := Host.Outcome State Fault Refusal

/-- The command ends in a contract violation. -/
def violate (r : ContractReason) (s : State) : Answer := .next (raiseFault (.contract r) s)

/-- A memory result becomes the step's answer: an access outside the address space stops the model. -/
def onPort {α : Type} (x : Except Fault α) (f : α → Answer) : Answer :=
  match x with
  | .error e => .fault e
  | .ok v => f v

/-! ### The prologue (60_exceptions.md R165) -/

/-- Check 1: a faulted engine answers FAULTED. (Check 2, the illegal word, is made where the record is
decoded.) -/
def withPrologue (s : State) (body : Answer) : Answer :=
  if s.fault then .next (refuseFaulted s) else body

/-- Checks 1 and 3: the prologue of every command but INIT and RELEASE. -/
def withCursor (s : State) (body : Answer) : Answer :=
  withPrologue s (if s.valid then body else violate .noCursor s)

/-! ### Moving the cursor (10_state.md R23, R24, R110) -/

/-- `setPos(a)` (R23). -/
def setPos (a : Nat) (s : State) : State :=
  { s with cellIdx := BitVec.ofNat 32 (a / s.cfg.w), bitOff := BitVec.ofNat 5 (a % s.cfg.w) }

/-- `REM <- r`. -/
def setRemaining (r : Int) (s : State) : State := { s with rem := BitVec.ofInt 32 r }

/-- `setPos(ABS + d); REM <- REM − d`. -/
def moveBy (d : Int) (s : State) : State :=
  setRemaining (s.remaining - d) (setPos (s.abs + d).toNat s)

/-- `RESULT <- v`. -/
def setResult (v : DWord) (s : State) : State := { s with result := v }

/-- The skip of R102, shared by SKIP and ALIGN: bounds first, then the move. -/
def skipBy (d : Int) (s : State) : Answer :=
  if 0 ≤ d ∧ s.remaining < d then .next (failOutOfBounds s)
  else if d < 0 ∧ s.abs + d < 0 then .next (failOutOfBounds s)
  else .next (doneOk (moveBy d s))

/-! ### Reads and peeks (41_read.md R120 to R126) -/

/-- The boundary policy of a read or peek: `MM` of R73. -/
inductive ReadKind where
  | tolerant | fast | safe
  deriving DecidableEq, Repr

/-- Whether a read moves the cursor: `P` of R73. -/
inductive ReadMode where
  | consume | peek
  deriving DecidableEq, Repr

/-- The commit of a read: a consuming read moves by the full `n` (R122), a peek moves nothing (R121). -/
def commitRead (m : ReadMode) (n v : Nat) (s : State) : State :=
  let t := match m with
    | .consume => moveBy n s
    | .peek => s
  doneOk (setResult (BitVec.ofNat 64 v) t)

/-- A read or peek: the width check (R123), the check of its kind (R126, R129, R131), then the value. -/
def readCommand (kind : ReadKind) (mode : ReadMode) (bound n : Nat) (s : State) : Answer :=
  withCursor s <|
    if bound < n then violate .nTooLarge s
    else match kind with
      | .tolerant =>
        if s.remaining < n ∧ s.remaining - n < Config.remMin then violate .remUnderflow s
        else onPort (tolval s n) fun (v, s1) => .next (commitRead mode n v s1)
      | .fast =>
        if s.remaining < n then violate .fastPrecondition s
        else onPort (gather s s.abs n) fun (v, s1) => .next (commitRead mode n v s1)
      | .safe =>
        if s.remaining < n then .next (failOutOfBounds s)
        else onPort (gather s s.abs n) fun (v, s1) => .next (commitRead mode n v s1)

end Sys2Proof.Machine
end

