-- ==== Sys2Proof/Machine/Lifecycle.lean ====
section
/-! DEFINITION. INIT and RELEASE (40_positioning.md R100, R101). -/

namespace Sys2Proof.Machine

/-- The commit of INIT (R100). The host must have allocated the buffer it names (R193 item 1): where it has freed a cell
of it, the same buffer named again among these, the new cursor is no safer than the old (item 4: "a re-INIT on
another buffer"; log entry 11). -/
def createCursor (base : DWord) (cap : Word) (s : State) : State :=
  { s with
    base := BitVec.ofNat 64 (base.toNat % s.cfg.space)
    cellIdx := 0, bitOff := 0, rem := cap, valid := true
    bufferFreed := regionFreed s.freed { first := base.toNat % s.cfg.space, cells := cellsFor s.cfg cap.toNat } }

/-- INIT (R100): the three operand checks in order, then the cursor. -/
def execInit (base : DWord) (cap : Word) (s : State) : Answer :=
  withPrologue s <|
    if s.cfg.space ≤ base.toNat then violate .badBase s
    else if Config.capMax < cap.toNat then violate .capTooLarge s
    else if s.cfg.space < base.toNat + cellsFor s.cfg cap.toNat then violate .bufferWraps s
    else .next (doneOk (createCursor base cap s))

/-- The commit of RELEASE (R101). -/
def destroyCursor (s : State) : State :=
  { s with base := 0, cellIdx := 0, bitOff := 0, rem := 0, valid := false, bufferFreed := false }

/-- RELEASE (R101). -/
def execRelease (s : State) : Answer :=
  withPrologue s (.next (doneOk (destroyCursor s)))

end Sys2Proof.Machine
end

