-- ==== Sys2Proof/Machine/Positioning.lean ====
section
/-! DEFINITION. SKIP, SEEK, ALIGN and the queries (40_positioning.md R102 to R109). -/

namespace Sys2Proof.Machine

/-- SKIP (R102). -/
def execSkip (delta : DWord) (s : State) : Answer :=
  withCursor s (skipBy (sint64 delta) s)

/-- SEEK (R104): the new `REM` is relative to the current state, in exact integers. -/
def execSeek (target : DWord) (s : State) : Answer :=
  withCursor s <|
    let newRem := s.remaining - ((target.toNat : Int) - s.abs)
    if newRem < 0 then .next (failOutOfBounds s)
    else .next (doneOk (setRemaining newRem (setPos target.toNat s)))

/-- ALIGN (R105): SKIP by `alignBits()`. -/
def execAlign (s : State) : Answer :=
  withCursor s (skipBy s.alignBits s)

/-- GETALIGN (R107). -/
def execGetAlign (s : State) : Answer :=
  withCursor s (.next (doneOk (setResult (BitVec.ofNat 64 s.alignBits) s)))

/-- GETPOS (R108). -/
def execGetPos (s : State) : Answer :=
  withCursor s (.next (doneOk (setResult (BitVec.ofNat 64 s.abs) s)))

/-- GETREM (R109): `sext_64(REM)`. -/
def execGetRem (s : State) : Answer :=
  withCursor s (.next (doneOk (setResult (s.rem.signExtend 64) s)))

end Sys2Proof.Machine
end

