-- ==== Sys2Proof/Machine/Read.lean ====
section
/-! DEFINITION. The bit extraction unit: reads and peeks (41_read.md R127 to R138), each `readCommand` with
its boundary policy, its mode and its width class (30_encoding.md R73). -/

namespace Sys2Proof.Machine

/-- READ.W (R127). -/
def execReadW (n : Nat) (s : State) : Answer := readCommand .tolerant .consume Config.nmaxWide n s

/-- READ.N (R128). -/
def execReadN (n : Nat) (s : State) : Answer := readCommand .tolerant .consume Config.nmaxNarrow n s

/-- FREAD.W (R129). -/
def execFreadW (n : Nat) (s : State) : Answer := readCommand .fast .consume Config.nmaxWide n s

/-- FREAD.N (R130). -/
def execFreadN (n : Nat) (s : State) : Answer := readCommand .fast .consume Config.nmaxNarrow n s

/-- SREAD.W (R131). -/
def execSreadW (n : Nat) (s : State) : Answer := readCommand .safe .consume Config.nmaxWide n s

/-- SREAD.N (R132). -/
def execSreadN (n : Nat) (s : State) : Answer := readCommand .safe .consume Config.nmaxNarrow n s

/-- PEEK.W (R133). -/
def execPeekW (n : Nat) (s : State) : Answer := readCommand .tolerant .peek Config.nmaxWide n s

/-- PEEK.N (R134). -/
def execPeekN (n : Nat) (s : State) : Answer := readCommand .tolerant .peek Config.nmaxNarrow n s

/-- FPEEK.W (R135). -/
def execFpeekW (n : Nat) (s : State) : Answer := readCommand .fast .peek Config.nmaxWide n s

/-- FPEEK.N (R136). -/
def execFpeekN (n : Nat) (s : State) : Answer := readCommand .fast .peek Config.nmaxNarrow n s

/-- SPEEK.W (R137). -/
def execSpeekW (n : Nat) (s : State) : Answer := readCommand .safe .peek Config.nmaxWide n s

/-- SPEEK.N (R138). -/
def execSpeekN (n : Nat) (s : State) : Answer := readCommand .safe .peek Config.nmaxNarrow n s

end Sys2Proof.Machine
end

