-- ==== Sys2Proof/Machine/Write.lean ====
section
/-! DEFINITION. The bit insertion unit: WRITE (42_write.md R150). -/

namespace Sys2Proof.Machine

/-- WRITE (R150): width, value, then bounds; the run is stored and the cursor moves past it. -/
def execWrite (value : Word) (n : Nat) (s : State) : Answer :=
  withCursor s <|
    if Config.nmaxWrite < n then violate .nTooLarge s
    else if 2 ^ n ≤ value.toNat then violate .valueNotMasked s
    else if s.remaining < n then .next (failOutOfBounds s)
    else onPort (scatter s s.abs n value.toNat) fun s1 => .next (doneOk (moveBy n s1))

end Sys2Proof.Machine
end

