-- ==== Sys2Proof/Machine/Dispatch.lean ====
section
/-! DEFINITION. The dispatch: one arm per command, each one call of its meaning. -/

namespace Sys2Proof.Machine

def exec (i : Instr) (s : State) : Host.Outcome State Fault Refusal :=
  match i with
  | .init base cap => Sys2Proof.Machine.execInit base cap s
  | .skip delta => Sys2Proof.Machine.execSkip delta s
  | .seek target => Sys2Proof.Machine.execSeek target s
  | .align => Sys2Proof.Machine.execAlign s
  | .getAlign => Sys2Proof.Machine.execGetAlign s
  | .getPos => Sys2Proof.Machine.execGetPos s
  | .getRem => Sys2Proof.Machine.execGetRem s
  | .release => Sys2Proof.Machine.execRelease s
  | .readW n => Sys2Proof.Machine.execReadW n s
  | .readN n => Sys2Proof.Machine.execReadN n s
  | .freadW n => Sys2Proof.Machine.execFreadW n s
  | .freadN n => Sys2Proof.Machine.execFreadN n s
  | .sreadW n => Sys2Proof.Machine.execSreadW n s
  | .sreadN n => Sys2Proof.Machine.execSreadN n s
  | .peekW n => Sys2Proof.Machine.execPeekW n s
  | .peekN n => Sys2Proof.Machine.execPeekN n s
  | .fpeekW n => Sys2Proof.Machine.execFpeekW n s
  | .fpeekN n => Sys2Proof.Machine.execFpeekN n s
  | .speekW n => Sys2Proof.Machine.execSpeekW n s
  | .speekN n => Sys2Proof.Machine.execSpeekN n s
  | .write value n => Sys2Proof.Machine.execWrite value n s

end Sys2Proof.Machine
end

