-- ==== Sys2Proof/Machine/HostPort.lean ====
section
/-! DEFINITION. The command port and the host's other interactions (30_encoding.md R70, R76; 70_reset_and_hazards.md
R190, R191, R194, R199; 20_memory.md R60): one definition per host event. -/

namespace Sys2Proof.Machine

/-- Run one command record (60_exceptions.md R165): the illegal word is check 2, after the sticky fault. A
cursor command over a freed buffer is refused (R193; log entry 11). -/
def runRecord (r : Record) (s : State) : Answer :=
  match decode r with
  | .error e => withPrologue s (.next (raiseFault (.illegal e) s))
  | .ok i =>
    if needsCursor i && s.valid && s.bufferFreed then .refused .useAfterFree
    else exec i s

/-- The engine's side of a new command: no access made yet. -/
def beginCommand (s : State) : State := { s with trace := [] }

/-- The response goes out (R76) and the host's index advances by 1, whatever the outcome (10_state.md R31). -/
def respond (s : State) : State :=
  { s with response := some { status := s.status, result := s.result }, k := s.k + 1 }

/-- Issue a command and take its response. -/
def issueCommand (r : Record) (s : State) : Answer :=
  match runRecord r (beginCommand s) with
  | .next t => .next (respond t)
  | .fault f => .fault f
  | .refused f => .refused f

/-- A store by another agent or by the host, to a cell of the address space. -/
def storeCellNow (st : CellStore) (s : State) : State :=
  { s with mem := s.mem.writeCell s.cfg st.cell st.value.toNat }

/-! ### Reset during a command (R191) -/

/-- The stores of an abandoned command, each landed or not by a free draw: the cell holds its new or its old
value. -/
def landStores (cfg : Config) : List Access → Nat → Memory → Memory
  | [], _, m => m
  | .read _ :: l, d, m => landStores cfg l (d + 1) m
  | .write a v :: l, d, m =>
    landStores cfg l (d + 1) (if Config.abandonedStoreLands d then m.writeCell cfg a v else m)

/-- Reset while the command `r` is in flight: the command is abandoned, without a response; of its stores
some landed; the registers take their reset values. The host's index moves on (R31). Whether a command that was
to fault had reached `FAULT = 1` is a free draw (log entry 22). -/
def abandonCommand (r : Record) (s : State) : Answer :=
  match runRecord r (beginCommand s) with
  | .next t =>
    .next { hardReset s with
      mem := landStores s.cfg t.trace s.draws s.mem
      faultedBefore := s.hasFaulted || (t.fault && Config.abandonedFaultReached (s.draws + t.trace.length))
      draws := s.draws + t.trace.length + 1
      k := s.k + 1 }
  | .fault f => .fault f
  | .refused f => .refused f

/-! ### Racing agents (R60) -/

/-- Do the racing stores that fall before the command's accesses. -/
def storesBefore : List CellStore → Nat → State → State
  | [], _, s => s
  | st :: l, d, s =>
    storesBefore l (d + 1) (match Config.raceOrder d with
      | .before => storeCellNow st s
      | _ => s)

/-- Do the racing stores that fall later: one that falls between the engine's read and its write of the cell
is lost when the engine writes the cell, and stands when the engine only read it. -/
def storesAfter (tr : List Access) : List CellStore → Nat → State → State
  | [], _, s => s
  | st :: l, d, s =>
    storesAfter tr l (d + 1) (match Config.raceOrder d with
      | .before => s
      | .between =>
        if tr.any (fun | .write a _ => a == st.cell | .read _ => false) then s else storeCellNow st s
      | .after => storeCellNow st s)

/-- The first racing store outside the address space, if there is one. -/
def strayStore (s : State) (stores : List CellStore) : Option CellStore :=
  stores.find? (fun st => decide (s.cfg.space ≤ st.cell))

/-- Issue a command while other agents store to memory: each store falls where a free draw puts it, so a
read returns the old or the new value of a raced cell, a write leaves one of the written values, and
bits a merge should have preserved may revert (R60). -/
def raceCommand (r : Record) (stores : List CellStore) (s : State) : Answer :=
  match strayStore s stores with
  | some st => .fault (.addressOutsideSpace st.cell)
  | none =>
    let s1 := storesBefore stores s.draws (beginCommand s)
    match runRecord r { s1 with draws := s.draws + stores.length } with
    | .next t => .next (respond (storesAfter t.trace stores s.draws t))
    | .fault f => .fault f
    | .refused f => .refused f

/-! ### Between commands (R195, R199) -/

/-- A host store to one cell. -/
def hostStoreCell (st : CellStore) (s : State) : Answer :=
  if st.cell < s.cfg.space then .next (storeCellNow st s) else .fault (.addressOutsideSpace st.cell)

/-- A host store to one host byte (20_memory.md R54). -/
def hostStoreByte (a : Nat) (b : Byte) (s : State) : Answer :=
  if a < s.cfg.space * s.cfg.width.bytes then .next { s with mem := s.mem.writeByte a b }
  else .fault (.addressOutsideSpace a)

/-- A host load of one cell: nothing changes (20_memory.md R63). -/
def hostLoadCell (a : Nat) (s : State) : Answer :=
  if a < s.cfg.space then .next s else .fault (.addressOutsideSpace a)

/-- The host frees cells, or gives them to another use. A live cursor over one of them has lost its buffer, for good
(R193 item 4: "its lifetime must outlive the cursor"). DESIGN CHOICE (log entry 24): the cells keep their contents. -/
def hostFree (r : Region) (s : State) : State :=
  { s with freed := freeRegion r s.freed, bufferFreed := s.bufferFreed || (s.valid && s.buffer.overlaps r) }

/-- The host allocates cells for a buffer to come (R193 item 1). DESIGN CHOICE (log entry 24): the spec does not say what
a cell holds that was freed and is allocated again; here it keeps its contents. -/
def hostAllocate (r : Region) (s : State) : State := { s with freed := allocateRegion r s.freed }

/-- One host event (R199). -/
def hostEvent (e : HostEvent) (s : State) : Answer :=
  match e with
  | .command r => issueCommand r s
  | .commandRaced r stores => raceCommand r stores s
  | .commandThenReset r => abandonCommand r s
  | .reset => .next (hardReset s)
  | .storeCell st => hostStoreCell st s
  | .storeByte a b => hostStoreByte a b s
  | .loadCell a => hostLoadCell a s
  | .free r => .next (hostFree r s)
  | .allocate r => .next (hostAllocate r s)
  | .breach b => .refused (.dutyBroken b)

/-- The command at the front of the host's list, if an event is there; the engine waits otherwise (R192). -/
def nextEvent (s : State) : Answer :=
  match s.pending with
  | [] => .next s
  | e :: rest => hostEvent e { s with pending := rest }

/-- Present a command record to the engine as the host's next event. -/
def present (r : Record) (s : State) : State := { s with pending := .command r :: s.pending }

end Sys2Proof.Machine
end

