-- ==== Sys2Proof/Machine/Step.lean ====
section
/-! DEFINITION. One step: the next host event (70_reset_and_hazards.md R197, R199), and how the host presents a command
word. -/

namespace Sys2Proof.Machine

/-- One step. -/
def step (s : State) : Host.Outcome State Fault Refusal := nextEvent s

/-- `s` with the command record of the bits `w` presented next (log entry 7). -/
def State.withFetchWord (s : State) (nbits w : Nat) : State :=
  present (recordOfBits (w % 2 ^ nbits)) s

end Sys2Proof.Machine
end

