-- ==== Sys2Proof/Safety.lean ====
section
/-! DEFINITION. The terms claims are stated in: the invariant of reachable states (10_state.md R23, R28;
20_memory.md R50, R51), a state ready for a cursor command, and confinement (20_memory.md R56). -/

namespace Sys2Proof.Machine

/-- Every listed byte lies in the address space (20_memory.md R50). -/
abbrev State.memInSpace (s : State) : Prop := ∀ c ∈ s.mem, c.1 < s.cfg.space * s.cfg.width.bytes

/-- The buffer's cells, `ceil(CAP / W)` of them, end within the address space (R50, R51). -/
abbrev State.bufferFits (s : State) : Prop := s.base.toNat + cellsFor s.cfg s.cap.toNat ≤ s.cfg.space

/-- The invariant of the reachable states: legal parameters, `BASE` and `BIT_OFF` in their widths (R20, R23),
memory in canonical form, the ranges of R28 while a cursor is valid, and the cursor registers at 0 while none is
(R35, R101; `bufferFreed` as log entry 11 says). -/
structure State.Inv (s : State) : Prop where
  params   : s.cfg.wf
  baseFits : s.base.toNat < s.cfg.space
  offFits  : s.bitOff.toNat < s.cfg.w
  memWf    : s.mem.wf
  memIn    : s.memInSpace
  capLow   : s.valid = true → 0 ≤ s.cap
  capHigh  : s.valid = true → s.cap ≤ Config.capMax
  fits     : s.valid = true → s.bufferFits
  idle     : s.valid = false →
    s.base = 0 ∧ s.cellIdx = 0 ∧ s.bitOff = 0 ∧ s.rem = 0 ∧ s.bufferFreed = false

/-- A state in which a cursor command passes the prologue: reachable in form, no fault, a cursor (R165). -/
structure State.Ready (s : State) : Prop extends State.Inv s where
  noFault : s.fault = false
  cursor  : s.valid = true

/-- What the prologue of `i` decides (60_exceptions.md R165 checks 1 and 3), and `P` for a command that passes it.
Check 2, the illegal word, is made where the record is decoded (`runRecord`). -/
def Prologued (i : Instr) (s : State) (P : Prop) : Prop :=
  (s.fault = true → exec i s = .next { s with last := .faulted }) ∧
  (s.fault = false → needsCursor i = true → s.valid = false →
    exec i s = .next { s with last := .contract, fault := true }) ∧
  (s.fault = false → (needsCursor i = true → s.valid = true) → P)

/-- Memory-port accesses of `l` stay in the cells of the buffer of `s` (R51, R56). -/
def accessesIn (s : State) (l : List Access) : Prop :=
  ∀ x ∈ l, ∃ c, c < cellsFor s.cfg s.cap.toNat ∧
    match x with
    | .read a => a = s.base.toNat + c
    | .write a _ => a = s.base.toNat + c

/-- The reads of buffer cells `c` to `c + cnt − 1`, each once, ascending (R125). -/
def readsOf (s : State) (c cnt : Nat) : List Access :=
  (List.range cnt).map fun i => .read (s.base.toNat + (c + i))

/-- The loads of the `k` real bits at the cursor: each cell once, ascending, and none when `k = 0` (R125). -/
def State.loads (s : State) (k : Nat) : List Access :=
  if k = 0 then []
  else readsOf s (s.abs / s.cfg.w) ((s.abs + k - 1) / s.cfg.w - s.abs / s.cfg.w + 1)

/-- The accesses of a WRITE of `n` bits that leaves memory `m`: cells ascending, a store alone for a wholly covered
cell, a load then the store for a partly covered one, none when `n = 0` (42_write.md R152). -/
def State.stores (s : State) (m : Memory) (n : Nat) : List Access :=
  if n = 0 then []
  else (List.range ((s.abs + n - 1) / s.cfg.w - s.abs / s.cfg.w + 1)).flatMap fun i =>
    let c := s.abs / s.cfg.w + i
    let a := s.base.toNat + c
    if s.abs ≤ c * s.cfg.w ∧ (c + 1) * s.cfg.w ≤ s.abs + n then [.write a (m.readCell s.cfg a)]
    else [.read a, .write a (m.readCell s.cfg a)]

/-- `i` keeps the host's duty of R193: it is no cursor command over a freed buffer while `VALID = 1` (how the freed
buffer is recorded is the model's, log entry 11). -/
def State.bufferLiveFor (s : State) (i : Instr) : Prop :=
  needsCursor i = true → s.valid = true → s.bufferFreed = false

/-- A safe end of a run: no fault recorded at the end (70_reset_and_hazards.md R200), and none before a reset either: a
run that reached `FAULT = 1` has faulted (R198; log entry 22). -/
abbrev State.safe (s : State) : Prop := s.hasFaulted = false

/-- A command that returns a value (10_state.md R29). -/
def returnsValue : Instr → Bool
  | .getAlign | .getPos | .getRem
  | .readW _ | .readN _ | .freadW _ | .freadN _ | .sreadW _ | .sreadN _
  | .peekW _ | .peekN _ | .fpeekW _ | .fpeekN _ | .speekW _ | .speekN _ => true
  | .init _ _ | .release | .skip _ | .seek _ | .align | .write _ _ => false

end Sys2Proof.Machine
end

