-- ==== Sys2Proof/Certificates/Slice0/Obligations.lean ====
section
/-! DEFINITION. The statements for the provers, from the numbered rules of spec/. -/

open Sys2Proof Sys2Proof.Machine

/-! ### Encoding (30_encoding.md) -/

/-- Decoding an encoded well-formed command gives it back, every operand at every value (R71, R72, R74, R78). -/
def Obligations.DecodeOfEncodeIsTheCommand : Prop :=
  ∀ i : Instr, i.wellFormed = true → decode (encode i) = .ok i

/-- What decodes is well formed, and encoding it gives the command word back: one word per command and
count (R72: "each command has exactly one opcode"). -/
def Obligations.EncodeOfDecodeIsTheWord : Prop :=
  ∀ (r : Record) (i : Instr), decode r = .ok i → i.wellFormed = true ∧ (encode i).cmd = r.cmd

/-- R75, R167: a word is illegal exactly when its opcode is unassigned, `RSV` is not zero, or a command without a
count has `N ≠ 0`; an illegal command raises ILLEGAL and nothing else does. -/
def Obligations.IllegalCommandWordsExactly : Prop :=
  (∀ r : Record, (∃ e, decode r = .error e) ↔
    (r.cmd.toNat % 256 ∉ [0x01, 0x02, 0x03, 0x04, 0x05, 0x06, 0x07, 0x08, 0x10, 0x11, 0x12, 0x13, 0x14, 0x15,
        0x18, 0x19, 0x1A, 0x1B, 0x1C, 0x1D, 0x20]) ∨
    r.cmd.toNat / 16384 ≠ 0 ∨
    (r.cmd.toNat % 256 ∈ [0x01, 0x02, 0x03, 0x04, 0x05, 0x06, 0x07, 0x08] ∧ r.cmd.toNat / 256 % 64 ≠ 0)) ∧
  (∀ (r : Record) (s : State) (e : IllegalReason), decode r = .error e → s.fault = false →
    runRecord r s = .next { s with last := .illegal, fault := true }) ∧
  (∀ (i : Instr) (s t : State), exec i s = .next t → t.last ≠ .illegal)

/-- R73: the read group decoded from the fields `P`, `MM`, `K` and from the opcode map agree. -/
def Obligations.ReadGroupFieldsAgreeWithOpcodeMap : Prop :=
  ∀ (opc n : Nat) (a0 : DWord) (a1 : Word), opc / 16 = 1 → readGroupByFields opc n = opcodeMap opc n a0 a1

/-- R74: which fields of the record each command takes its operands from, unscaled; every other operand field is
ignored. -/
def Obligations.OperandsComeFromTheRecord : Prop :=
  ∀ (r : Record) (i : Instr), decode r = .ok i →
    (match i with
      | .init b c => b = r.arg0 ∧ c = r.arg1
      | .skip d => d = r.arg0
      | .seek a => a = r.arg0
      | .align | .getAlign | .getPos | .getRem | .release => True
      | .write v n => v = r.arg1 ∧ n = r.cmd.toNat / 256 % 64
      | .readW n | .readN n | .freadW n | .freadN n | .sreadW n | .sreadN n
      | .peekW n | .peekN n | .fpeekW n | .fpeekN n | .speekW n | .speekN n => n = r.cmd.toNat / 256 % 64) ∧
    (∀ (a0 : DWord) (a1 : Word),
      (match i with
        | .init _ _ => a0 = r.arg0 ∧ a1 = r.arg1
        | .skip _ | .seek _ => a0 = r.arg0
        | .write _ _ => a1 = r.arg1
        | _ => True) →
      decode { cmd := r.cmd, arg0 := a0, arg1 := a1 } = .ok i)

/-- Words written out from R71 and R72 decode to their commands (95_test_vectors.md Parts 2 and 3). -/
def Obligations.SpecWordsDecode : Prop :=
  decode ⟨0x00000001, 0x100, 16⟩ = .ok (.init 0x100 16) ∧
  decode ⟨0x00000002, 0xFFFFFFFFFFFFFFF7, 0⟩ = .ok (.skip 0xFFFFFFFFFFFFFFF7) ∧
  decode ⟨0x00000810, 0, 0⟩ = .ok (.readW 8) ∧
  decode ⟨0x0000031D, 0, 0⟩ = .ok (.speekN 3) ∧
  decode ⟨0x00000620, 0, 0x2A⟩ = .ok (.write 0x2A 6) ∧
  decode ⟨0x00000016, 0, 0⟩ = .error .unassignedOpcode ∧
  decode ⟨0x00004010, 0, 0⟩ = .error .reservedBits ∧
  decode ⟨0x00000102, 0, 0⟩ = .error .countOnCountless

/-! ### Registers, status and reset (10_state.md, 70_reset_and_hazards.md) -/

/-- R30: the fields of `STATUS`: `LAST` in [2:0] with the codes of R164, `VALID` a view of its register in [3],
`FAULT` in [4], `OVR` the comparison in [5], zero in [31:6]. -/
def Obligations.StatusWordFields : Prop :=
  ∀ s : State,
    (s.status.extractLsb' 0 3).toNat = (match s.last with
      | .ok => 0 | .oob => 1 | .contract => 2 | .illegal => 3 | .faulted => 4) ∧
    s.status.getLsbD 3 = s.valid ∧
    s.status.getLsbD 4 = s.fault ∧
    s.status.getLsbD 5 = (s.valid && decide (s.rem.toInt < 0)) ∧
    s.status.extractLsb' 6 26 = 0

/-- R35: the reset value of every register of R20. -/
def Obligations.ResetRegisterValues : Prop :=
  State.reset.base = 0 ∧ State.reset.cellIdx = 0 ∧ State.reset.bitOff = 0 ∧ State.reset.rem = 0 ∧
  State.reset.valid = false ∧ State.reset.result = 0 ∧ State.reset.last = .ok ∧ State.reset.fault = false ∧
  State.reset.status = 0

/-- R190: reset puts every register into its reset value and touches no memory, whatever the state; and it is the
only way to clear `FAULT`. -/
def Obligations.OnlyHardwareResetClearsFault : Prop :=
  (∀ (s : State) (rest : List HostEvent), s.pending = .reset :: rest →
    ∃ t, step s = .next t ∧ t.base = 0 ∧ t.cellIdx = 0 ∧ t.bitOff = 0 ∧ t.rem = 0 ∧ t.valid = false ∧
      t.result = 0 ∧ t.last = .ok ∧ t.fault = false ∧ t.status = 0 ∧ t.mem = s.mem ∧ t.cfg = s.cfg) ∧
  (∀ s t : State, step s = .next t → s.fault = true → t.fault = false →
    ∃ rest, s.pending = .reset :: rest ∨ ∃ r, s.pending = .commandThenReset r :: rest)

/-- R163: while `FAULT = 1` every command, and every illegal word, executes only `LAST <- FAULTED`, and no step but a
hardware reset (a host event, log entry 7) clears `FAULT`. A record that breaks the host's duty of R193 is refused
instead (the model's choice, log entry 11). -/
def Obligations.FaultedEngineRefusesEveryCommand : Prop :=
  (∀ (i : Instr) (s : State), s.fault = true → exec i s = .next { s with last := .faulted }) ∧
  (∀ (r : Record) (s : State), s.fault = true → (∀ i, decode r = .ok i → s.bufferLiveFor i) →
    runRecord r s = .next { s with last := .faulted }) ∧
  (∀ s t : State, step s = .next t → s.fault = true →
    t.fault = true ∨ ∃ rest, s.pending = .reset :: rest ∨ ∃ r, s.pending = .commandThenReset r :: rest)

/-- R25: INIT sets `VALID`, RELEASE clears it, and every other command needs it: without a cursor it raises
ContractViolation(NO_CURSOR). -/
def Obligations.ValidGatesEveryCursorCommand : Prop :=
  (∀ (i : Instr) (s : State), (∀ b c, i ≠ .init b c) → i ≠ .release → s.fault = false → s.valid = false →
    exec i s = .next { s with last := .contract, fault := true }) ∧
  (∀ (b : DWord) (c : Word) (s t : State), exec (.init b c) s = .next t → t.last = .ok → t.valid = true) ∧
  (∀ (s t : State), exec .release s = .next t → t.last = .ok → t.valid = false) ∧
  (∀ (i : Instr) (s t : State), (∀ b c, i ≠ .init b c) → i ≠ .release → exec i s = .next t → t.valid = s.valid)

/-! ### Lifecycle and positioning (40_positioning.md) -/

/-- R100: INIT. Its encoding, its three operand checks in order, and the cursor it creates, with or without one
before: all else is unchanged. The clauses about `bufferFreed`, the host's note that the buffer was not kept
allocated, are the model's and no rule of R100 (log entry 11: a cell the host has freed is one of the new buffer's). -/
def Obligations.InitCreatesTheCursor : Prop :=
  ∀ (b : DWord) (c : Word) (s : State),
    encode (.init b c) = ⟨0x00000001, b, c⟩ ∧
    Prologued (.init b c) s
      ((2 ^ s.cfg.addrW ≤ b.toNat → exec (.init b c) s = .next { s with last := .contract, fault := true }) ∧
       (b.toNat < 2 ^ s.cfg.addrW → 2147483647 < c.toNat →
         exec (.init b c) s = .next { s with last := .contract, fault := true }) ∧
       (b.toNat < 2 ^ s.cfg.addrW → c.toNat ≤ 2147483647 →
         2 ^ s.cfg.addrW < b.toNat + (c.toNat + (s.cfg.w - 1)) / s.cfg.w →
         exec (.init b c) s = .next { s with last := .contract, fault := true }) ∧
       (b.toNat < 2 ^ s.cfg.addrW → c.toNat ≤ 2147483647 →
         b.toNat + (c.toNat + (s.cfg.w - 1)) / s.cfg.w ≤ 2 ^ s.cfg.addrW →
         ∃ t, exec (.init b c) s = .next t ∧ t.remaining = c.toNat ∧ t.ovr = false ∧
           t = { s with
             base := b, cellIdx := 0, bitOff := 0, rem := c, valid := true, last := .ok
             bufferFreed := t.bufferFreed } ∧
           (t.bufferFreed = true ↔
             ∃ j, j < (c.toNat + (s.cfg.w - 1)) / s.cfg.w ∧ cellFreed s.freed (b.toNat + j) = true)))

/-- R101: RELEASE: all but the cursor, `VALID` and `LAST` is unchanged; without a cursor, in a state that meets the
invariant, it has no effect beyond `LAST <- OK`. The clause `bufferFreed := false` is the model's choice and no
rule of the spec (log entry 11). -/
def Obligations.ReleaseEndsTheCursor : Prop :=
  ∀ s : State,
    encode .release = ⟨0x00000008, 0, 0⟩ ∧
    Prologued .release s
      (exec .release s = .next { s with
        base := 0, cellIdx := 0, bitOff := 0, rem := 0, valid := false, last := .ok, bufferFreed := false } ∧
       (s.Inv → s.valid = false → exec .release s = .next { s with last := .ok }))

/-- R102: SKIP fails OutOfBounds forward past the end (`SKIP 0` with `REM < 0` among these) and backward below
position 0; else it moves `ABS` by `d` and `REM` by `−d`, exactly, and changes nothing else but `LAST`. -/
def Obligations.SkipMovesOrFailsOutOfBounds : Prop :=
  ∀ (d : DWord) (s : State), s.Inv →
    encode (.skip d) = ⟨0x00000002, d, 0⟩ ∧
    Prologued (.skip d) s
      (((0 ≤ d.toInt ∧ s.remaining < d.toInt) ∨ (d.toInt < 0 ∧ s.abs + d.toInt < 0) →
         exec (.skip d) s = .next { s with last := .oob }) ∧
       (¬ ((0 ≤ d.toInt ∧ s.remaining < d.toInt) ∨ (d.toInt < 0 ∧ s.abs + d.toInt < 0)) →
         ∃ t, exec (.skip d) s = .next t ∧
           (t.abs : Int) = s.abs + d.toInt ∧ t.bitOff.toNat < s.cfg.w ∧ t.remaining = s.remaining - d.toInt ∧
           t = { s with cellIdx := t.cellIdx, bitOff := t.bitOff, rem := t.rem, last := .ok }))

/-- R103: `SKIP d` then `SKIP −d`, both OK, restore the cursor. -/
def Obligations.SkipThenSkipBackRestoresTheCursor : Prop :=
  ∀ (d e : DWord) (s t u : State), s.Inv → e.toInt = -d.toInt →
    exec (.skip d) s = .next t → t.last = .ok → exec (.skip e) t = .next u → u.last = .ok →
    u.cellIdx = s.cellIdx ∧ u.bitOff = s.bitOff ∧ u.rem = s.rem

/-- R104: SEEK to `a`. The new `REM` is relative to the current state; OutOfBounds when it would be negative,
which is when `a > CAP`; else the position is `a` and nothing else but `REM` and `LAST` changes. -/
def Obligations.SeekMovesOrFailsOutOfBounds : Prop :=
  ∀ (a : DWord) (s : State), s.Inv →
    encode (.seek a) = ⟨0x00000003, a, 0⟩ ∧
    Prologued (.seek a) s
      ((s.remaining - ((a.toNat : Int) - s.abs) < 0 → exec (.seek a) s = .next { s with last := .oob }) ∧
       (0 ≤ s.remaining - ((a.toNat : Int) - s.abs) →
         ∃ t, exec (.seek a) s = .next t ∧
           t.abs = a.toNat ∧ t.bitOff.toNat < s.cfg.w ∧
           t.remaining = s.remaining - ((a.toNat : Int) - s.abs) ∧
           t = { s with cellIdx := t.cellIdx, bitOff := t.bitOff, rem := t.rem, last := .ok }) ∧
       (s.remaining - ((a.toNat : Int) - s.abs) < 0 ↔ s.cap < a.toNat))

/-- R105, R106: ALIGN moves to the next 8-bit boundary, or fails OutOfBounds when fewer bits remain. A second one
does not move after one that ended OK, and fails the same way after one that failed (90_conflicts.md C4). -/
def Obligations.AlignMovesToTheNextByteBoundary : Prop :=
  ∀ s : State, s.Inv →
    encode .align = ⟨0x00000004, 0, 0⟩ ∧
    s.alignBits = (8 - s.abs % 8) % 8 ∧
    Prologued .align s
      ((s.remaining < ((8 - s.bitOff.toNat % 8) % 8 : Nat) → exec .align s = .next { s with last := .oob }) ∧
       (((8 - s.bitOff.toNat % 8) % 8 : Nat) ≤ s.remaining →
         ∃ t, exec .align s = .next t ∧
           t.abs = s.abs + (8 - s.bitOff.toNat % 8) % 8 ∧ t.abs % 8 = 0 ∧
           t.remaining = s.remaining - ((8 - s.bitOff.toNat % 8) % 8 : Nat) ∧
           t = { s with cellIdx := t.cellIdx, bitOff := t.bitOff, rem := t.rem, last := .ok }) ∧
       (∀ t, exec .align s = .next t → exec .align t = .next t))

/-- R107, R108, R109: the queries return `alignBits`, `ABS` and the sign-extended `REM`, and change nothing but
`RESULT` and `LAST`. -/
def Obligations.QueriesReturnTheCursor : Prop :=
  ∀ s : State, s.Inv →
    (encode .getAlign = ⟨0x00000005, 0, 0⟩ ∧ Prologued .getAlign s
      (∃ t, exec .getAlign s = .next t ∧ t.result.toNat = (8 - s.bitOff.toNat % 8) % 8 ∧
        t = { s with result := t.result, last := .ok })) ∧
    (encode .getPos = ⟨0x00000006, 0, 0⟩ ∧ Prologued .getPos s
      (∃ t, exec .getPos s = .next t ∧ t.result.toNat = s.cellIdx.toNat * s.cfg.w + s.bitOff.toNat ∧
        t = { s with result := t.result, last := .ok })) ∧
    (encode .getRem = ⟨0x00000007, 0, 0⟩ ∧ Prologued .getRem s
      (∃ t, exec .getRem s = .next t ∧ t.result.toInt = s.remaining ∧
        t = { s with result := t.result, last := .ok }))

/-! ### Reads and peeks (41_read.md) -/

/-- R120: gather of `k` bits from `p` reads each cell of the run once, ascending, and none when `k = 0`; value bit
`k − 1 − j` of its `k`-bit result is stream bit `p + j`. -/
def Obligations.GatherIsTheStreamBitsMsbFirst : Prop :=
  ∀ (s : State) (p k : Nat), (k ≠ 0 → s.base.toNat + (p + k - 1) / s.cfg.w < 2 ^ s.cfg.addrW) →
    ∃ v, v < 2 ^ k ∧ (∀ j, j < k → v.testBit (k - 1 - j) = s.streamBit (p + j)) ∧
      gather s p k = .ok (v, { s with
        trace := s.trace ++ if k = 0 then [] else
          readsOf s (p / s.cfg.w) ((p + k - 1) / s.cfg.w - p / s.cfg.w + 1) })

/-- R139: the source's stepwise algorithm, on the cells the gather reads, computes the gather. -/
def Obligations.StepwiseGatherEqualsGather : Prop :=
  ∀ (s t : State) (p n v : Nat), 1 ≤ n → gather s p n = .ok (v, t) →
    v = stepwiseValue s.cfg.w
      ((List.range ((p + n - 1) / s.cfg.w - p / s.cfg.w + 1)).map fun i =>
        s.mem.readCell s.cfg (s.base.toNat + (p / s.cfg.w + i)))
      (p % s.cfg.w) n

/-- R127, R128: READ.W and READ.N. Over the bound, or below the floor of `REM`, a contract violation; else the
value's top bits are the real stream bits and the rest zeros, the cells of the real bits are loaded, the cursor
moves by the full `n`, and nothing else changes but `RESULT` and `LAST`. -/
def Obligations.TolerantReadsZeroFillAndConsume : Prop :=
  ∀ (n : Nat) (s : State), s.Inv →
    ∀ x ∈ [(Instr.readW n, 32, 0x10), (Instr.readN n, 16, 0x11)],
      (n < 64 → encode x.1 = ⟨BitVec.ofNat 32 (x.2.2 + n * 256), 0, 0⟩) ∧
      Prologued x.1 s
        ((x.2.1 < n → exec x.1 s = .next { s with last := .contract, fault := true }) ∧
         (n ≤ x.2.1 → s.remaining < n → s.remaining - n < -2147483648 →
           exec x.1 s = .next { s with last := .contract, fault := true }) ∧
         (n ≤ x.2.1 → ¬ (s.remaining < n ∧ s.remaining - n < -2147483648) →
           ∃ t, exec x.1 s = .next t ∧
             t.result.toNat < 2 ^ n ∧
             (∀ j, j < n → t.result.toNat.testBit (n - 1 - j) =
               (decide ((j : Int) < s.remaining) && s.streamBit (s.abs + j))) ∧
             t.abs = s.abs + n ∧ t.bitOff.toNat < s.cfg.w ∧ t.remaining = s.remaining - n ∧
             t = { s with
               cellIdx := t.cellIdx, bitOff := t.bitOff, rem := t.rem, result := t.result, last := .ok,
               trace := s.trace ++ s.loads (min n (max 0 s.remaining).toNat) }))

/-- R133, R134: PEEK.W and PEEK.N: the checks and the value of READ, and no cursor write. -/
def Obligations.TolerantPeeksZeroFillAndStay : Prop :=
  ∀ (n : Nat) (s : State), s.Inv →
    ∀ x ∈ [(Instr.peekW n, 32, 0x18), (Instr.peekN n, 16, 0x19)],
      (n < 64 → encode x.1 = ⟨BitVec.ofNat 32 (x.2.2 + n * 256), 0, 0⟩) ∧
      Prologued x.1 s
        ((x.2.1 < n → exec x.1 s = .next { s with last := .contract, fault := true }) ∧
         (n ≤ x.2.1 → s.remaining < n → s.remaining - n < -2147483648 →
           exec x.1 s = .next { s with last := .contract, fault := true }) ∧
         (n ≤ x.2.1 → ¬ (s.remaining < n ∧ s.remaining - n < -2147483648) →
           ∃ t, exec x.1 s = .next t ∧
             t.result.toNat < 2 ^ n ∧
             (∀ j, j < n → t.result.toNat.testBit (n - 1 - j) =
               (decide ((j : Int) < s.remaining) && s.streamBit (s.abs + j))) ∧
             t = { s with result := t.result, last := .ok, trace := s.trace ++ s.loads (min n (max 0 s.remaining).toNat) }))

/-- R129, R130: FREAD.W and FREAD.N: `n > REM` is a contract violation, else the stream bits, consumed. -/
def Obligations.FastReadsCheckTheirPrecondition : Prop :=
  ∀ (n : Nat) (s : State), s.Inv →
    ∀ x ∈ [(Instr.freadW n, 32, 0x12), (Instr.freadN n, 16, 0x13)],
      (n < 64 → encode x.1 = ⟨BitVec.ofNat 32 (x.2.2 + n * 256), 0, 0⟩) ∧
      Prologued x.1 s
        ((x.2.1 < n ∨ s.remaining < n → exec x.1 s = .next { s with last := .contract, fault := true }) ∧
         (n ≤ x.2.1 → (n : Int) ≤ s.remaining →
           ∃ t, exec x.1 s = .next t ∧
             t.result.toNat < 2 ^ n ∧
             (∀ j, j < n → t.result.toNat.testBit (n - 1 - j) = s.streamBit (s.abs + j)) ∧
             t.abs = s.abs + n ∧ t.bitOff.toNat < s.cfg.w ∧ t.remaining = s.remaining - n ∧
             t = { s with
               cellIdx := t.cellIdx, bitOff := t.bitOff, rem := t.rem, result := t.result, last := .ok,
               trace := s.trace ++ s.loads n }))

/-- R135, R136: FPEEK.W and FPEEK.N: as FREAD, the cursor unchanged. -/
def Obligations.FastPeeksCheckTheirPrecondition : Prop :=
  ∀ (n : Nat) (s : State), s.Inv →
    ∀ x ∈ [(Instr.fpeekW n, 32, 0x1A), (Instr.fpeekN n, 16, 0x1B)],
      (n < 64 → encode x.1 = ⟨BitVec.ofNat 32 (x.2.2 + n * 256), 0, 0⟩) ∧
      Prologued x.1 s
        ((x.2.1 < n ∨ s.remaining < n → exec x.1 s = .next { s with last := .contract, fault := true }) ∧
         (n ≤ x.2.1 → (n : Int) ≤ s.remaining →
           ∃ t, exec x.1 s = .next t ∧
             t.result.toNat < 2 ^ n ∧
             (∀ j, j < n → t.result.toNat.testBit (n - 1 - j) = s.streamBit (s.abs + j)) ∧
             t = { s with result := t.result, last := .ok, trace := s.trace ++ s.loads n }))

/-- R131, R132: SREAD.W and SREAD.N: the width check first, then OutOfBounds with `RESULT` and cursor untouched when
`n > REM`, else the stream bits, consumed. -/
def Obligations.SafeReadsFailOutOfBounds : Prop :=
  ∀ (n : Nat) (s : State), s.Inv →
    ∀ x ∈ [(Instr.sreadW n, 32, 0x14), (Instr.sreadN n, 16, 0x15)],
      (n < 64 → encode x.1 = ⟨BitVec.ofNat 32 (x.2.2 + n * 256), 0, 0⟩) ∧
      Prologued x.1 s
        ((x.2.1 < n → exec x.1 s = .next { s with last := .contract, fault := true }) ∧
         (n ≤ x.2.1 → s.remaining < n → exec x.1 s = .next { s with last := .oob }) ∧
         (n ≤ x.2.1 → (n : Int) ≤ s.remaining →
           ∃ t, exec x.1 s = .next t ∧
             t.result.toNat < 2 ^ n ∧
             (∀ j, j < n → t.result.toNat.testBit (n - 1 - j) = s.streamBit (s.abs + j)) ∧
             t.abs = s.abs + n ∧ t.bitOff.toNat < s.cfg.w ∧ t.remaining = s.remaining - n ∧
             t = { s with
               cellIdx := t.cellIdx, bitOff := t.bitOff, rem := t.rem, result := t.result, last := .ok,
               trace := s.trace ++ s.loads n }))

/-- R137, R138: SPEEK.W and SPEEK.N: as SREAD, the cursor unchanged. -/
def Obligations.SafePeeksFailOutOfBounds : Prop :=
  ∀ (n : Nat) (s : State), s.Inv →
    ∀ x ∈ [(Instr.speekW n, 32, 0x1C), (Instr.speekN n, 16, 0x1D)],
      (n < 64 → encode x.1 = ⟨BitVec.ofNat 32 (x.2.2 + n * 256), 0, 0⟩) ∧
      Prologued x.1 s
        ((x.2.1 < n → exec x.1 s = .next { s with last := .contract, fault := true }) ∧
         (n ≤ x.2.1 → s.remaining < n → exec x.1 s = .next { s with last := .oob }) ∧
         (n ≤ x.2.1 → (n : Int) ≤ s.remaining →
           ∃ t, exec x.1 s = .next t ∧
             t.result.toNat < 2 ^ n ∧
             (∀ j, j < n → t.result.toNat.testBit (n - 1 - j) = s.streamBit (s.abs + j)) ∧
             t = { s with result := t.result, last := .ok, trace := s.trace ++ s.loads n }))

/-- R125: a read or peek that ends OK loads exactly the cells of its real bits, each once, ascending, and none when
there are none; one that fails or faults loads nothing. -/
def Obligations.ReadsLoadOnlyTheCellsOfRealBits : Prop :=
  ∀ (n : Nat) (s t : State), s.Inv →
    ∀ i ∈ [Instr.readW n, .readN n, .freadW n, .freadN n, .sreadW n, .sreadN n,
           .peekW n, .peekN n, .fpeekW n, .fpeekN n, .speekW n, .speekN n],
      exec i s = .next t →
      (t.last ≠ .ok → t.trace = s.trace) ∧
      (t.last = .ok → t.trace = s.trace ++ s.loads (min n (max 0 s.remaining).toNat))

/-- R123: a wide form takes `n` up to 32 and a narrow one up to 16, a larger `n` violates the contract before any other
check except the prologue; for the same `n` the two compute the same. -/
def Obligations.NarrowAndWideFormsAgree : Prop :=
  (∀ (n : Nat) (s : State), s.fault = false → s.valid = true →
    ∀ x ∈ [(Instr.readW n, 32), (.freadW n, 32), (.sreadW n, 32), (.peekW n, 32), (.fpeekW n, 32), (.speekW n, 32),
           (.readN n, 16), (.freadN n, 16), (.sreadN n, 16), (.peekN n, 16), (.fpeekN n, 16), (.speekN n, 16)],
      x.2 < n → exec x.1 s = .next { s with last := .contract, fault := true }) ∧
  (∀ (n : Nat) (s : State), n ≤ 16 →
    exec (.readN n) s = exec (.readW n) s ∧ exec (.freadN n) s = exec (.freadW n) s ∧
    exec (.sreadN n) s = exec (.sreadW n) s ∧ exec (.peekN n) s = exec (.peekW n) s ∧
    exec (.fpeekN n) s = exec (.fpeekW n) s ∧ exec (.speekN n) s = exec (.speekW n) s)

/-- R129 ("When the precondition holds, the result equals READ.W's") and R131 ("otherwise delegates to `fast_read`"):
on bits that all remain the three kinds of read, and of peek, are one. -/
def Obligations.ReadKindsAgreeInsideTheBuffer : Prop :=
  ∀ (n : Nat) (s : State), (n : Int) ≤ s.remaining →
    exec (.freadW n) s = exec (.readW n) s ∧ exec (.sreadW n) s = exec (.readW n) s ∧
    exec (.fpeekW n) s = exec (.peekW n) s ∧ exec (.speekW n) s = exec (.peekW n) s

/-- R121: a peek makes the checks and the memory reads of its read and computes its value; it commits `RESULT` and
`STATUS` and no cursor register. -/
def Obligations.PeeksCommitNoCursorState : Prop :=
  ∀ (n : Nat) (s t u : State),
    ∀ x ∈ [(Instr.peekW n, Instr.readW n), (.peekN n, .readN n), (.fpeekW n, .freadW n),
           (.fpeekN n, .freadN n), (.speekW n, .sreadW n), (.speekN n, .sreadN n)],
      exec x.1 s = .next t → exec x.2 s = .next u →
      t = { s with result := u.result, last := u.last, fault := u.fault, trace := u.trace }

/-- R121 and R133's last corner case: a peek that ended OK, then the read of the same kind and count, return the same
value. -/
def Obligations.PeekThenReadReturnsTheSameValue : Prop :=
  ∀ (n : Nat) (s t : State), s.Inv →
    ∀ x ∈ [(Instr.peekW n, Instr.readW n), (.peekN n, .readN n), (.fpeekW n, .freadW n),
           (.fpeekN n, .freadN n), (.speekW n, .sreadW n), (.speekN n, .sreadN n)],
      exec x.1 s = .next t → t.last = .ok →
      ∃ u, exec x.2 t = .next u ∧ u.last = .ok ∧ u.result = t.result

/-! ### Writes (42_write.md) -/

/-- R150, R151: WRITE. Width, value and bounds in that order; else the run's bits replace stream bits `ABS` to
`ABS + n − 1`, most significant first, every other stream bit and every byte outside the run's cells keeps its
value, the cursor moves by `n`, and nothing else changes but `LAST`;
the port's accesses are R151's. -/
def Obligations.WriteStoresTheRunAndNothingElse : Prop :=
  ∀ (v : Word) (n : Nat) (s : State), s.Inv →
    (n < 64 → encode (.write v n) = ⟨BitVec.ofNat 32 (0x20 + n * 256), 0, v⟩) ∧
    Prologued (.write v n) s
      ((32 < n → exec (.write v n) s = .next { s with last := .contract, fault := true }) ∧
       (n ≤ 32 → 2 ^ n ≤ v.toNat → exec (.write v n) s = .next { s with last := .contract, fault := true }) ∧
       (n ≤ 32 → v.toNat < 2 ^ n → s.remaining < n → exec (.write v n) s = .next { s with last := .oob }) ∧
       (n ≤ 32 → v.toNat < 2 ^ n → (n : Int) ≤ s.remaining →
         ∃ t, exec (.write v n) s = .next t ∧
           (∀ j, j < n → t.streamBit (s.abs + j) = v.toNat.testBit (n - 1 - j)) ∧
           (∀ q, ¬ (s.abs ≤ q ∧ q < s.abs + n) → t.streamBit q = s.streamBit q) ∧
           (∀ a, (∀ c, n ≠ 0 → s.abs / s.cfg.w ≤ c → c ≤ (s.abs + n - 1) / s.cfg.w →
               ∀ j, j < s.cfg.width.bytes → a ≠ byteAddr s.cfg (s.base.toNat + c) j) →
             t.mem.readByte a = s.mem.readByte a) ∧
           t.abs = s.abs + n ∧ t.bitOff.toNat < s.cfg.w ∧ t.remaining = s.remaining - n ∧
           t = { s with
             cellIdx := t.cellIdx, bitOff := t.bitOff, rem := t.rem, last := .ok, mem := t.mem,
             trace := s.trace ++ s.stores t.mem n }))

/-- R152: the accesses of a WRITE that ends OK: cells ascending, a store alone for a wholly covered cell, a load then
the store for a partly covered one, none when `n = 0` (`State.stores`); one that fails or faults makes none. -/
def Obligations.WriteAccessesInOrder : Prop :=
  ∀ (v : Word) (n : Nat) (s t : State), s.Inv → exec (.write v n) s = .next t →
    (t.last ≠ .ok → t.trace = s.trace ∧ t.mem = s.mem) ∧
    (t.last = .ok → t.trace = s.trace ++ s.stores t.mem n ∧ (n = 0 → t.mem = s.mem))

/-- R153: `WRITE v, n`, then SEEK back, then `READ.W n` ends OK and returns `v`, whatever the buffer held. -/
def Obligations.WriteSeekReadRoundTrip : Prop :=
  ∀ (v : Word) (n : Nat) (s : State), s.Ready → n ≤ 32 → v.toNat < 2 ^ n → (n : Int) ≤ s.remaining →
    ∃ t u x, exec (.write v n) s = .next t ∧ t.last = .ok ∧
      exec (.seek (BitVec.ofNat 64 s.abs)) t = .next u ∧ u.last = .ok ∧
      exec (.readW n) u = .next x ∧ x.last = .ok ∧ x.result.toNat = v.toNat

/-! ### Rules about the whole machine -/

/-- The invariant of R23, R28, R50 and R51 holds at reset. -/
def Obligations.InvariantHoldsAtReset : Prop := State.reset.Inv

/-- Every step keeps the invariant: legal parameters, `BASE` and `BIT_OFF` in their widths, canonical memory in the
address space, and the ranges of R28 while a cursor is valid. -/
def Obligations.EveryStepKeepsTheInvariant : Prop :=
  ∀ s t : State, s.Inv → step s = .next t → t.Inv

/-- R160: every command ends in exactly one of the four outcomes, and none hangs or stops: from every state that
meets the invariant it answers a next state, which is OK, or the same state but for `LAST` = OOB, or but
for `LAST` and `FAULT` after a fault, or but for `LAST` = FAULTED; so does every illegal word. -/
def Obligations.EveryCommandEndsInOneOfFourOutcomes : Prop :=
  (∀ (i : Instr) (s : State), s.Inv → ∃ t, exec i s = .next t ∧
    ((t.last = .ok ∧ s.fault = false ∧ t.fault = false) ∨
     (t = { s with last := .oob } ∧ s.fault = false) ∨
     (t = { s with last := .contract, fault := true } ∧ s.fault = false) ∨
     (t = { s with last := .faulted } ∧ s.fault = true))) ∧
  (∀ (r : Record) (e : IllegalReason) (s : State), decode r = .error e → ∃ t, runRecord r s = .next t ∧
    ((t = { s with last := .illegal, fault := true } ∧ s.fault = false) ∨
     (t = { s with last := .faulted } ∧ s.fault = true)))

/-- R166: the complete list of contract violations; no other condition raises CONTRACT. -/
def Obligations.ContractViolationsExactly : Prop :=
  ∀ (i : Instr) (s t : State), exec i s = .next t → s.fault = false →
    (t.last = .contract ↔
      ((∀ b c, i ≠ .init b c) ∧ i ≠ .release ∧ s.valid = false) ∨
      match i with
      | .init b c => 2 ^ s.cfg.addrW ≤ b.toNat ∨ 2147483647 < c.toNat ∨
          2 ^ s.cfg.addrW < b.toNat + (c.toNat + (s.cfg.w - 1)) / s.cfg.w
      | .readW n | .peekW n => 32 < n ∨ (s.remaining < n ∧ s.remaining - n < -2147483648)
      | .readN n | .peekN n => 16 < n ∨ (s.remaining < n ∧ s.remaining - n < -2147483648)
      | .freadW n | .fpeekW n => 32 < n ∨ s.remaining < n
      | .freadN n | .fpeekN n => 16 < n ∨ s.remaining < n
      | .sreadW n | .speekW n => 32 < n
      | .sreadN n | .speekN n => 16 < n
      | .write v n => 32 < n ∨ 2 ^ n ≤ v.toNat
      | .skip _ | .seek _ | .align | .getAlign | .getPos | .getRem | .release => False)

/-- R164 ("produced by") with R168 and R165: which commands end OutOfBounds, and exactly when. -/
def Obligations.OutOfBoundsExactly : Prop :=
  ∀ (i : Instr) (s t : State), exec i s = .next t →
    (t.last = .oob ↔ s.fault = false ∧ s.valid = true ∧
      match i with
      | .skip d => (0 ≤ d.toInt ∧ s.remaining < d.toInt) ∨ (d.toInt < 0 ∧ s.abs + d.toInt < 0)
      | .seek a => s.cap < a.toNat
      | .align => s.remaining < s.alignBits
      | .sreadW n | .speekW n => n ≤ 32 ∧ s.remaining < n
      | .sreadN n | .speekN n => n ≤ 16 ∧ s.remaining < n
      | .write v n => n ≤ 32 ∧ v.toNat < 2 ^ n ∧ s.remaining < n
      | .init _ _ | .release | .getAlign | .getPos | .getRem | .readW _ | .readN _ | .peekW _ | .peekN _
      | .freadW _ | .freadN _ | .fpeekW _ | .fpeekN _ => False)

/-- R161: a command that ends OutOfBounds changed `LAST` and nothing else: no register, no memory cell, no memory
access; and it is not sticky. -/
def Obligations.OutOfBoundsChangesOnlyLast : Prop :=
  ∀ (i : Instr) (s t : State), exec i s = .next t → t.last = .oob → t = { s with last := .oob } ∧ t.fault = false

/-- R162, R170: faults are precise: a command after which `FAULT` is newly set changed `LAST` and `FAULT` and nothing
else, the illegal word included. -/
def Obligations.FaultsArePrecise : Prop :=
  ∀ (r : Record) (s t : State), runRecord r s = .next t → s.fault = false → t.fault = true →
    t = { s with last := t.last, fault := true } ∧
    ((∃ e, decode r = .error e) ∧ t.last = .illegal ∨ (∃ i, decode r = .ok i) ∧ t.last = .contract)

/-- R56: every access of a command is to a cell of the buffer. -/
def Obligations.AccessesStayInTheBuffer : Prop :=
  ∀ (i : Instr) (s t : State), s.Inv → exec i s = .next t →
    ∃ l, t.trace = s.trace ++ l ∧ accessesIn s l

/-- R29: `RESULT` is written only by a value-returning command that ends OK. -/
def Obligations.ResultWrittenOnlyByValueCommands : Prop :=
  ∀ (i : Instr) (s t : State), exec i s = .next t →
    (returnsValue i = false ∨ t.last ≠ .ok) → t.result = s.result

/-- R27: after INIT with capacity `c` the derived `CAP` is `c`, and every other command of a live cursor keeps
`REM + ABS`. -/
def Obligations.CapacityIsKept : Prop :=
  (∀ (b : DWord) (c : Word) (s t : State), exec (.init b c) s = .next t → t.last = .ok →
    t.remaining + t.abs = c.toNat) ∧
  (∀ (i : Instr) (s t : State), s.Inv → s.valid = true → (∀ b c, i ≠ .init b c) → i ≠ .release →
    exec i s = .next t → t.remaining + t.abs = s.remaining + s.abs)

/-- R102, R104, R105, R129 to R132 and R150, read together: only a tolerant consuming read takes the cursor past the
end, so only it can set `OVR`. -/
def Obligations.OnlyTolerantReadsOverrun : Prop :=
  ∀ (i : Instr) (s t : State), s.Inv → exec i s = .next t → s.ovr = false → t.ovr = true →
    (∃ n, i = .readW n ∨ i = .readN n)

/-- The frame of every command: memory is WRITE's alone (R150), `BASE` and `VALID` are INIT's and RELEASE's alone (R20),
and the parameters (R8) are no command's. The rest is about fields of the model's own: the host's position (log
entry 7), the response port (log entry 8), the draw counter (log entry 16) and the record of an earlier
fault (log entry 22) are no command's to change, nor is what the host has freed (`freed`, log entry 11), and the note
`bufferFreed` (log entry 11) is INIT's and RELEASE's alone. -/
def Obligations.CommandFrame : Prop :=
  ∀ (i : Instr) (s t : State), exec i s = .next t →
    t.cfg = s.cfg ∧ t.response = s.response ∧ t.pending = s.pending ∧ t.k = s.k ∧ t.draws = s.draws ∧
    t.faultedBefore = s.faultedBefore ∧ t.freed = s.freed ∧
    ((∀ v n, i ≠ .write v n) → t.mem = s.mem) ∧
    ((∀ b c, i ≠ .init b c) → i ≠ .release →
      t.base = s.base ∧ t.valid = s.valid ∧ t.bufferFreed = s.bufferFreed)

/-- R175 ("Instances whose buffers are disjoint do not interact"), with R56: what a command leaves in every register
depends on memory only through the cells of its buffer. -/
def Obligations.CommandsSeeOnlyTheirBuffer : Prop :=
  ∀ (i : Instr) (s t : State) (m : Memory), s.Inv → { s with mem := m }.Inv →
    (∀ c, c < cellsFor s.cfg s.cap.toNat →
      m.readCell s.cfg (s.base.toNat + c) = s.mem.readCell s.cfg (s.base.toNat + c)) →
    exec i s = .next t →
    ∃ m', exec i { s with mem := m } = .next { t with mem := m' } ∧
      (∀ c, c < cellsFor s.cfg s.cap.toNat →
        m'.readCell s.cfg (s.base.toNat + c) = t.mem.readCell s.cfg (s.base.toNat + c)) ∧
      (∀ a, (∀ c, c < cellsFor s.cfg s.cap.toNat → a ≠ s.base.toNat + c) →
        m'.readCell s.cfg a = m.readCell s.cfg a)

/-! ### The step and the host (30_encoding.md R70, R76; 70_reset_and_hazards.md) -/

/-- A step on a command record that decodes runs `exec` of the command, unless it is a cursor command over a freed
buffer. What the step adds: `STATUS` and `RESULT` go out (R76) and the host's index advances by 1 (R31); that the
event is consumed is the model's choice of log entry 7, and that the port's trace starts empty that of log entry 8. -/
def Obligations.StepRunsTheDecodedCommand : Prop :=
  ∀ (r : Record) (i : Instr) (rest : List HostEvent) (s t : State),
    s.pending = .command r :: rest → decode r = .ok i → s.bufferLiveFor i →
    exec i { s with pending := rest, trace := [] } = .next t →
    step s = .next { t with response := some ⟨t.status, t.result⟩, k := t.k + 1 }

/-- R76: the engine answers every command record, an illegal one too, with one response record, `STATUS` and `RESULT`
after the command; R31: the host's index advances by exactly 1, whatever the outcome. That the event is consumed
(`t.pending = rest`) is the model's choice (log entry 7), and so is where the response stands (log entry 8). -/
def Obligations.EveryCommandIsAnswered : Prop :=
  ∀ (r : Record) (rest : List HostEvent) (s : State),
    s.Inv → s.pending = .command r :: rest → (∀ i, decode r = .ok i → s.bufferLiveFor i) →
    ∃ t, step s = .next t ∧ t.response = some ⟨t.status, t.result⟩ ∧ t.k = s.k + 1 ∧ t.pending = rest

/-- R192: with nothing presented the engine waits: the step leaves the state as it is (the step's form is the
model's, log entry 7). -/
def Obligations.EngineWaitsForACommand : Prop :=
  ∀ s : State, s.pending = [] → step s = .next s

/-- R191: a reset during a command: no response is sent, the registers are at their reset values, each cell the command
was to write holds its old or its new value, every other cell is unchanged. That the port is empty after the reset
(`t.response = none`) is the model's choice (log entries 8 and 17). -/
def Obligations.ResetDuringACommandAbandonsIt : Prop :=
  ∀ (r : Record) (rest : List HostEvent) (s u : State),
    s.Inv → s.pending = .commandThenReset r :: rest →
    runRecord r { s with pending := rest, trace := [] } = .next u →
    ∃ t, step s = .next t ∧ t.response = none ∧
      t.base = 0 ∧ t.cellIdx = 0 ∧ t.bitOff = 0 ∧ t.rem = 0 ∧ t.valid = false ∧ t.result = 0 ∧
      t.last = .ok ∧ t.fault = false ∧
      (∀ a, t.mem.readCell s.cfg a = s.mem.readCell s.cfg a ∨
        t.mem.readCell s.cfg a = u.mem.readCell s.cfg a) ∧
      (∀ a, (∀ v, Access.write a v ∉ u.trace) → t.mem.readCell s.cfg a = s.mem.readCell s.cfg a)

/-- R195, R58: a host store to a cell between commands leaves that cell at the stored value, every other cell and every
register as they were (that the event is consumed is log entry 7's); and a `READ.W` of the whole cell as the next
command returns the stored value. -/
def Obligations.HostStoreIsSeenByTheNextCommand : Prop :=
  ∀ (st : CellStore) (rest : List HostEvent) (s : State),
    s.Inv → s.pending = .storeCell st :: rest → st.cell < 2 ^ s.cfg.addrW →
    ∃ t, step s = .next t ∧
      t.mem.readCell s.cfg st.cell = st.value.toNat % 2 ^ s.cfg.w ∧
      (∀ a, a ≠ st.cell → t.mem.readCell s.cfg a = s.mem.readCell s.cfg a) ∧
      t = { s with mem := t.mem, pending := rest } ∧
      (∀ later, rest = .command (encode (.readW s.cfg.w)) :: later →
        s.fault = false → s.valid = true → s.bufferFreed = false →
        s.base.toNat + s.cellIdx.toNat = st.cell → s.bitOff = 0 → (s.cfg.w : Int) ≤ s.remaining →
        ∃ u, step t = .next u ∧ u.last = .ok ∧ u.result.toNat = st.value.toNat % 2 ^ s.cfg.w)

/-- R54, R199: what else the host may do between commands: a store to one host byte changes that byte and no other, a
load changes nothing, and freeing or allocating cells changes no register of the engine and no memory (that the cells
keep their contents is the model's choice, log entry 24). What is recorded
of the freed cells, and that a live cursor over one of them has lost its buffer (`bufferFreed`), is the model's
(log entry 11); that the event is consumed is log entry 7's. -/
def Obligations.HostByteStoreLoadAndFree : Prop :=
  (∀ (a : Nat) (b : Byte) (rest : List HostEvent) (s : State),
    s.Inv → s.pending = .storeByte a b :: rest → a < 2 ^ s.cfg.addrW * s.cfg.width.bytes →
    ∃ t, step s = .next t ∧ t.mem.readByte a = b ∧
      (∀ x, x ≠ a → t.mem.readByte x = s.mem.readByte x) ∧
      t = { s with mem := t.mem, pending := rest }) ∧
  (∀ (a : Nat) (rest : List HostEvent) (s : State),
    s.pending = .loadCell a :: rest → a < 2 ^ s.cfg.addrW → step s = .next { s with pending := rest }) ∧
  (∀ (r : Region) (rest : List HostEvent) (s : State), s.pending = .free r :: rest →
    ∃ t, step s = .next t ∧ t = { s with pending := rest, freed := t.freed, bufferFreed := t.bufferFreed } ∧
      (∀ a, cellFreed t.freed a = true ↔ (r.first ≤ a ∧ a < r.first + r.cells) ∨ cellFreed s.freed a = true) ∧
      (t.bufferFreed = true ↔ s.bufferFreed = true ∨ (s.valid = true ∧
        ∃ j, j < cellsFor s.cfg s.cap.toNat ∧ r.first ≤ s.base.toNat + j ∧ s.base.toNat + j < r.first + r.cells))) ∧
  (∀ (r : Region) (rest : List HostEvent) (s : State), s.pending = .allocate r :: rest →
    ∃ t, step s = .next t ∧ t = { s with pending := rest, freed := t.freed } ∧
      (∀ a, cellFreed t.freed a = true ↔ ¬ (r.first ≤ a ∧ a < r.first + r.cells) ∧ cellFreed s.freed a = true))

/-- R60, as the model draws it (log entry 10): a raced command runs on a memory in which each cell holds its old value
or one an agent stored to it. A cell that an agent or the command stored to ends at one of those written values; a
cell that neither stored to keeps its old value. (A store the command makes may carry preserved bits as its read
saw them: the value is that of its access.) -/
def Obligations.RacedCellsHoldOneOfTheValues : Prop :=
  ∀ (r : Record) (stores : List CellStore) (rest : List HostEvent) (s t : State),
    s.Inv → s.pending = .commandRaced r stores :: rest → step s = .next t →
    ∃ (m : Memory) (u : State),
      (∀ a, m.readCell s.cfg a = s.mem.readCell s.cfg a ∨
        ∃ st ∈ stores, st.cell = a ∧ m.readCell s.cfg a = st.value.toNat % 2 ^ s.cfg.w) ∧
      runRecord r { s with pending := rest, trace := [], mem := m, draws := s.draws + stores.length } = .next u ∧
      t = { u with mem := t.mem, response := some ⟨u.status, u.result⟩, k := s.k + 1 } ∧
      (∀ a, ((∃ st ∈ stores, st.cell = a) ∨ ∃ v, Access.write a v ∈ u.trace) →
        (∃ st ∈ stores, st.cell = a ∧ t.mem.readCell s.cfg a = st.value.toNat % 2 ^ s.cfg.w) ∨
        ∃ v, Access.write a v ∈ u.trace ∧ t.mem.readCell s.cfg a = v) ∧
      (∀ a, (∀ st ∈ stores, st.cell ≠ a) → (∀ v, Access.write a v ∉ u.trace) →
        t.mem.readCell s.cfg a = s.mem.readCell s.cfg a)

/-- R193, R199: a run that breaks a duty of the host is refused: a cursor command over a freed buffer, and each duty
the engine cannot check. -/
def Obligations.BrokenDutiesAreRefused : Prop :=
  (∀ (r : Record) (i : Instr) (rest : List HostEvent) (s : State),
    s.pending = .command r :: rest → decode r = .ok i → (∀ b c, i ≠ .init b c) → i ≠ .release →
    s.valid = true → s.bufferFreed = true → step s = .refused .useAfterFree) ∧
  (∀ (b : Breach) (rest : List HostEvent) (s : State),
    s.pending = .breach b :: rest → step s = .refused (.dutyBroken b))

/-- R198: a run that reached `FAULT = 1` has faulted, whatever commands and host events follow, a reset among them. A
run comes to have faulted only where `FAULT` is set, or where a reset abandons a command that was to set it (there
a free draw decides). How the run's record is kept (`State.hasFaulted`) is the model's (log entry 22). -/
def Obligations.FaultedRunStaysFaulted : Prop :=
  ∀ s t : State, step s = .next t →
    (s.fault = true → t.hasFaulted = true) ∧
    (s.hasFaulted = true → t.hasFaulted = true) ∧
    (t.safe → t.fault = false ∧ s.safe) ∧
    (s.safe → t.hasFaulted = true → t.fault = true ∨
      ∃ (r : Record) (rest : List HostEvent) (u : State), s.pending = .commandThenReset r :: rest ∧
        runRecord r { s with pending := rest, trace := [] } = .next u ∧ u.fault = true)

/-- R193 items 1 and 4, R199 ("re-INIT elsewhere"): an INIT of a buffer with a freed cell, the freed buffer named again
among these, does not end the host's duty: the next cursor command is refused. An INIT of a buffer without one does.
(How the freed cells are recorded is the model's, log entry 11.) -/
def Obligations.InitEndsTheDutyOnlyElsewhere : Prop :=
  ∀ (b : DWord) (c : Word) (rest : List HostEvent) (s t : State),
    s.pending = .command (encode (.init b c)) :: rest → step s = .next t → t.last = .ok →
    ((∃ j, j < (c.toNat + (s.cfg.w - 1)) / s.cfg.w ∧ cellFreed s.freed (b.toNat + j) = true) →
      ∀ (r : Record) (i : Instr) (later : List HostEvent), rest = .command r :: later → decode r = .ok i →
        (∀ b c, i ≠ .init b c) → i ≠ .release → step t = .refused .useAfterFree) ∧
    ((∀ j, j < (c.toNat + (s.cfg.w - 1)) / s.cfg.w → cellFreed s.freed (b.toNat + j) = false) →
      ∀ i, t.bufferLiveFor i)
end

