-- ==== Sys2Proof/Laws/State.lean ====
section
/-! SUPPORT. What each update of State leaves in each field: one lemma per field per update, so that no later
proof unfolds a record update. -/

namespace Sys2Proof.Machine

@[simp] theorem raiseFault_cfg (e : FaultEvent) (s : State) : (raiseFault e s).cfg = s.cfg := rfl
@[simp] theorem raiseFault_base (e : FaultEvent) (s : State) : (raiseFault e s).base = s.base := rfl
@[simp] theorem raiseFault_cellIdx (e : FaultEvent) (s : State) : (raiseFault e s).cellIdx = s.cellIdx := rfl
@[simp] theorem raiseFault_bitOff (e : FaultEvent) (s : State) : (raiseFault e s).bitOff = s.bitOff := rfl
@[simp] theorem raiseFault_rem (e : FaultEvent) (s : State) : (raiseFault e s).rem = s.rem := rfl
@[simp] theorem raiseFault_valid (e : FaultEvent) (s : State) : (raiseFault e s).valid = s.valid := rfl
@[simp] theorem raiseFault_result (e : FaultEvent) (s : State) : (raiseFault e s).result = s.result := rfl
@[simp] theorem raiseFault_last (e : FaultEvent) (s : State) : (raiseFault e s).last = faultCode e := rfl
@[simp] theorem raiseFault_fault (e : FaultEvent) (s : State) : (raiseFault e s).fault = true := rfl
@[simp] theorem raiseFault_mem (e : FaultEvent) (s : State) : (raiseFault e s).mem = s.mem := rfl
@[simp] theorem raiseFault_response (e : FaultEvent) (s : State) : (raiseFault e s).response = s.response := rfl
@[simp] theorem raiseFault_trace (e : FaultEvent) (s : State) : (raiseFault e s).trace = s.trace := rfl
@[simp] theorem raiseFault_pending (e : FaultEvent) (s : State) : (raiseFault e s).pending = s.pending := rfl
@[simp] theorem raiseFault_k (e : FaultEvent) (s : State) : (raiseFault e s).k = s.k := rfl
@[simp] theorem raiseFault_freed (e : FaultEvent) (s : State) : (raiseFault e s).freed = s.freed := rfl
@[simp] theorem raiseFault_bufferFreed (e : FaultEvent) (s : State) : (raiseFault e s).bufferFreed = s.bufferFreed := rfl
@[simp] theorem raiseFault_faultedBefore (e : FaultEvent) (s : State) : (raiseFault e s).faultedBefore = s.faultedBefore := rfl
@[simp] theorem raiseFault_draws (e : FaultEvent) (s : State) : (raiseFault e s).draws = s.draws := rfl

@[simp] theorem refuseFaulted_cfg (s : State) : (refuseFaulted s).cfg = s.cfg := rfl
@[simp] theorem refuseFaulted_base (s : State) : (refuseFaulted s).base = s.base := rfl
@[simp] theorem refuseFaulted_cellIdx (s : State) : (refuseFaulted s).cellIdx = s.cellIdx := rfl
@[simp] theorem refuseFaulted_bitOff (s : State) : (refuseFaulted s).bitOff = s.bitOff := rfl
@[simp] theorem refuseFaulted_rem (s : State) : (refuseFaulted s).rem = s.rem := rfl
@[simp] theorem refuseFaulted_valid (s : State) : (refuseFaulted s).valid = s.valid := rfl
@[simp] theorem refuseFaulted_result (s : State) : (refuseFaulted s).result = s.result := rfl
@[simp] theorem refuseFaulted_last (s : State) : (refuseFaulted s).last = .faulted := rfl
@[simp] theorem refuseFaulted_fault (s : State) : (refuseFaulted s).fault = s.fault := rfl
@[simp] theorem refuseFaulted_mem (s : State) : (refuseFaulted s).mem = s.mem := rfl
@[simp] theorem refuseFaulted_response (s : State) : (refuseFaulted s).response = s.response := rfl
@[simp] theorem refuseFaulted_trace (s : State) : (refuseFaulted s).trace = s.trace := rfl
@[simp] theorem refuseFaulted_pending (s : State) : (refuseFaulted s).pending = s.pending := rfl
@[simp] theorem refuseFaulted_k (s : State) : (refuseFaulted s).k = s.k := rfl
@[simp] theorem refuseFaulted_freed (s : State) : (refuseFaulted s).freed = s.freed := rfl
@[simp] theorem refuseFaulted_bufferFreed (s : State) : (refuseFaulted s).bufferFreed = s.bufferFreed := rfl
@[simp] theorem refuseFaulted_faultedBefore (s : State) : (refuseFaulted s).faultedBefore = s.faultedBefore := rfl
@[simp] theorem refuseFaulted_draws (s : State) : (refuseFaulted s).draws = s.draws := rfl

@[simp] theorem failOutOfBounds_cfg (s : State) : (failOutOfBounds s).cfg = s.cfg := rfl
@[simp] theorem failOutOfBounds_base (s : State) : (failOutOfBounds s).base = s.base := rfl
@[simp] theorem failOutOfBounds_cellIdx (s : State) : (failOutOfBounds s).cellIdx = s.cellIdx := rfl
@[simp] theorem failOutOfBounds_bitOff (s : State) : (failOutOfBounds s).bitOff = s.bitOff := rfl
@[simp] theorem failOutOfBounds_rem (s : State) : (failOutOfBounds s).rem = s.rem := rfl
@[simp] theorem failOutOfBounds_valid (s : State) : (failOutOfBounds s).valid = s.valid := rfl
@[simp] theorem failOutOfBounds_result (s : State) : (failOutOfBounds s).result = s.result := rfl
@[simp] theorem failOutOfBounds_last (s : State) : (failOutOfBounds s).last = .oob := rfl
@[simp] theorem failOutOfBounds_fault (s : State) : (failOutOfBounds s).fault = s.fault := rfl
@[simp] theorem failOutOfBounds_mem (s : State) : (failOutOfBounds s).mem = s.mem := rfl
@[simp] theorem failOutOfBounds_response (s : State) : (failOutOfBounds s).response = s.response := rfl
@[simp] theorem failOutOfBounds_trace (s : State) : (failOutOfBounds s).trace = s.trace := rfl
@[simp] theorem failOutOfBounds_pending (s : State) : (failOutOfBounds s).pending = s.pending := rfl
@[simp] theorem failOutOfBounds_k (s : State) : (failOutOfBounds s).k = s.k := rfl
@[simp] theorem failOutOfBounds_freed (s : State) : (failOutOfBounds s).freed = s.freed := rfl
@[simp] theorem failOutOfBounds_bufferFreed (s : State) : (failOutOfBounds s).bufferFreed = s.bufferFreed := rfl
@[simp] theorem failOutOfBounds_faultedBefore (s : State) : (failOutOfBounds s).faultedBefore = s.faultedBefore := rfl
@[simp] theorem failOutOfBounds_draws (s : State) : (failOutOfBounds s).draws = s.draws := rfl

@[simp] theorem doneOk_cfg (s : State) : (doneOk s).cfg = s.cfg := rfl
@[simp] theorem doneOk_base (s : State) : (doneOk s).base = s.base := rfl
@[simp] theorem doneOk_cellIdx (s : State) : (doneOk s).cellIdx = s.cellIdx := rfl
@[simp] theorem doneOk_bitOff (s : State) : (doneOk s).bitOff = s.bitOff := rfl
@[simp] theorem doneOk_rem (s : State) : (doneOk s).rem = s.rem := rfl
@[simp] theorem doneOk_valid (s : State) : (doneOk s).valid = s.valid := rfl
@[simp] theorem doneOk_result (s : State) : (doneOk s).result = s.result := rfl
@[simp] theorem doneOk_last (s : State) : (doneOk s).last = .ok := rfl
@[simp] theorem doneOk_fault (s : State) : (doneOk s).fault = s.fault := rfl
@[simp] theorem doneOk_mem (s : State) : (doneOk s).mem = s.mem := rfl
@[simp] theorem doneOk_response (s : State) : (doneOk s).response = s.response := rfl
@[simp] theorem doneOk_trace (s : State) : (doneOk s).trace = s.trace := rfl
@[simp] theorem doneOk_pending (s : State) : (doneOk s).pending = s.pending := rfl
@[simp] theorem doneOk_k (s : State) : (doneOk s).k = s.k := rfl
@[simp] theorem doneOk_freed (s : State) : (doneOk s).freed = s.freed := rfl
@[simp] theorem doneOk_bufferFreed (s : State) : (doneOk s).bufferFreed = s.bufferFreed := rfl
@[simp] theorem doneOk_faultedBefore (s : State) : (doneOk s).faultedBefore = s.faultedBefore := rfl
@[simp] theorem doneOk_draws (s : State) : (doneOk s).draws = s.draws := rfl

@[simp] theorem setPos_cfg (a : Nat) (s : State) : (setPos a s).cfg = s.cfg := rfl
@[simp] theorem setPos_base (a : Nat) (s : State) : (setPos a s).base = s.base := rfl
@[simp] theorem setPos_cellIdx (a : Nat) (s : State) : (setPos a s).cellIdx = BitVec.ofNat 32 (a / s.cfg.w) := rfl
@[simp] theorem setPos_bitOff (a : Nat) (s : State) : (setPos a s).bitOff = BitVec.ofNat 5 (a % s.cfg.w) := rfl
@[simp] theorem setPos_rem (a : Nat) (s : State) : (setPos a s).rem = s.rem := rfl
@[simp] theorem setPos_valid (a : Nat) (s : State) : (setPos a s).valid = s.valid := rfl
@[simp] theorem setPos_result (a : Nat) (s : State) : (setPos a s).result = s.result := rfl
@[simp] theorem setPos_last (a : Nat) (s : State) : (setPos a s).last = s.last := rfl
@[simp] theorem setPos_fault (a : Nat) (s : State) : (setPos a s).fault = s.fault := rfl
@[simp] theorem setPos_mem (a : Nat) (s : State) : (setPos a s).mem = s.mem := rfl
@[simp] theorem setPos_response (a : Nat) (s : State) : (setPos a s).response = s.response := rfl
@[simp] theorem setPos_trace (a : Nat) (s : State) : (setPos a s).trace = s.trace := rfl
@[simp] theorem setPos_pending (a : Nat) (s : State) : (setPos a s).pending = s.pending := rfl
@[simp] theorem setPos_k (a : Nat) (s : State) : (setPos a s).k = s.k := rfl
@[simp] theorem setPos_freed (a : Nat) (s : State) : (setPos a s).freed = s.freed := rfl
@[simp] theorem setPos_bufferFreed (a : Nat) (s : State) : (setPos a s).bufferFreed = s.bufferFreed := rfl
@[simp] theorem setPos_faultedBefore (a : Nat) (s : State) : (setPos a s).faultedBefore = s.faultedBefore := rfl
@[simp] theorem setPos_draws (a : Nat) (s : State) : (setPos a s).draws = s.draws := rfl

@[simp] theorem setRemaining_cfg (r : Int) (s : State) : (setRemaining r s).cfg = s.cfg := rfl
@[simp] theorem setRemaining_base (r : Int) (s : State) : (setRemaining r s).base = s.base := rfl
@[simp] theorem setRemaining_cellIdx (r : Int) (s : State) : (setRemaining r s).cellIdx = s.cellIdx := rfl
@[simp] theorem setRemaining_bitOff (r : Int) (s : State) : (setRemaining r s).bitOff = s.bitOff := rfl
@[simp] theorem setRemaining_rem (r : Int) (s : State) : (setRemaining r s).rem = BitVec.ofInt 32 r := rfl
@[simp] theorem setRemaining_valid (r : Int) (s : State) : (setRemaining r s).valid = s.valid := rfl
@[simp] theorem setRemaining_result (r : Int) (s : State) : (setRemaining r s).result = s.result := rfl
@[simp] theorem setRemaining_last (r : Int) (s : State) : (setRemaining r s).last = s.last := rfl
@[simp] theorem setRemaining_fault (r : Int) (s : State) : (setRemaining r s).fault = s.fault := rfl
@[simp] theorem setRemaining_mem (r : Int) (s : State) : (setRemaining r s).mem = s.mem := rfl
@[simp] theorem setRemaining_response (r : Int) (s : State) : (setRemaining r s).response = s.response := rfl
@[simp] theorem setRemaining_trace (r : Int) (s : State) : (setRemaining r s).trace = s.trace := rfl
@[simp] theorem setRemaining_pending (r : Int) (s : State) : (setRemaining r s).pending = s.pending := rfl
@[simp] theorem setRemaining_k (r : Int) (s : State) : (setRemaining r s).k = s.k := rfl
@[simp] theorem setRemaining_freed (r : Int) (s : State) : (setRemaining r s).freed = s.freed := rfl
@[simp] theorem setRemaining_bufferFreed (r : Int) (s : State) : (setRemaining r s).bufferFreed = s.bufferFreed := rfl
@[simp] theorem setRemaining_faultedBefore (r : Int) (s : State) : (setRemaining r s).faultedBefore = s.faultedBefore := rfl
@[simp] theorem setRemaining_draws (r : Int) (s : State) : (setRemaining r s).draws = s.draws := rfl

@[simp] theorem setResult_cfg (v : DWord) (s : State) : (setResult v s).cfg = s.cfg := rfl
@[simp] theorem setResult_base (v : DWord) (s : State) : (setResult v s).base = s.base := rfl
@[simp] theorem setResult_cellIdx (v : DWord) (s : State) : (setResult v s).cellIdx = s.cellIdx := rfl
@[simp] theorem setResult_bitOff (v : DWord) (s : State) : (setResult v s).bitOff = s.bitOff := rfl
@[simp] theorem setResult_rem (v : DWord) (s : State) : (setResult v s).rem = s.rem := rfl
@[simp] theorem setResult_valid (v : DWord) (s : State) : (setResult v s).valid = s.valid := rfl
@[simp] theorem setResult_result (v : DWord) (s : State) : (setResult v s).result = v := rfl
@[simp] theorem setResult_last (v : DWord) (s : State) : (setResult v s).last = s.last := rfl
@[simp] theorem setResult_fault (v : DWord) (s : State) : (setResult v s).fault = s.fault := rfl
@[simp] theorem setResult_mem (v : DWord) (s : State) : (setResult v s).mem = s.mem := rfl
@[simp] theorem setResult_response (v : DWord) (s : State) : (setResult v s).response = s.response := rfl
@[simp] theorem setResult_trace (v : DWord) (s : State) : (setResult v s).trace = s.trace := rfl
@[simp] theorem setResult_pending (v : DWord) (s : State) : (setResult v s).pending = s.pending := rfl
@[simp] theorem setResult_k (v : DWord) (s : State) : (setResult v s).k = s.k := rfl
@[simp] theorem setResult_freed (v : DWord) (s : State) : (setResult v s).freed = s.freed := rfl
@[simp] theorem setResult_bufferFreed (v : DWord) (s : State) : (setResult v s).bufferFreed = s.bufferFreed := rfl
@[simp] theorem setResult_faultedBefore (v : DWord) (s : State) : (setResult v s).faultedBefore = s.faultedBefore := rfl
@[simp] theorem setResult_draws (v : DWord) (s : State) : (setResult v s).draws = s.draws := rfl

@[simp] theorem moveBy_cfg (d : Int) (s : State) : (moveBy d s).cfg = s.cfg := rfl
@[simp] theorem moveBy_base (d : Int) (s : State) : (moveBy d s).base = s.base := rfl
@[simp] theorem moveBy_cellIdx (d : Int) (s : State) : (moveBy d s).cellIdx = BitVec.ofNat 32 ((s.abs + d).toNat / s.cfg.w) := rfl
@[simp] theorem moveBy_bitOff (d : Int) (s : State) : (moveBy d s).bitOff = BitVec.ofNat 5 ((s.abs + d).toNat % s.cfg.w) := rfl
@[simp] theorem moveBy_rem (d : Int) (s : State) : (moveBy d s).rem = BitVec.ofInt 32 (s.remaining - d) := rfl
@[simp] theorem moveBy_valid (d : Int) (s : State) : (moveBy d s).valid = s.valid := rfl
@[simp] theorem moveBy_result (d : Int) (s : State) : (moveBy d s).result = s.result := rfl
@[simp] theorem moveBy_last (d : Int) (s : State) : (moveBy d s).last = s.last := rfl
@[simp] theorem moveBy_fault (d : Int) (s : State) : (moveBy d s).fault = s.fault := rfl
@[simp] theorem moveBy_mem (d : Int) (s : State) : (moveBy d s).mem = s.mem := rfl
@[simp] theorem moveBy_response (d : Int) (s : State) : (moveBy d s).response = s.response := rfl
@[simp] theorem moveBy_trace (d : Int) (s : State) : (moveBy d s).trace = s.trace := rfl
@[simp] theorem moveBy_pending (d : Int) (s : State) : (moveBy d s).pending = s.pending := rfl
@[simp] theorem moveBy_k (d : Int) (s : State) : (moveBy d s).k = s.k := rfl
@[simp] theorem moveBy_freed (d : Int) (s : State) : (moveBy d s).freed = s.freed := rfl
@[simp] theorem moveBy_bufferFreed (d : Int) (s : State) : (moveBy d s).bufferFreed = s.bufferFreed := rfl
@[simp] theorem moveBy_faultedBefore (d : Int) (s : State) : (moveBy d s).faultedBefore = s.faultedBefore := rfl
@[simp] theorem moveBy_draws (d : Int) (s : State) : (moveBy d s).draws = s.draws := rfl

@[simp] theorem createCursor_cfg (b : DWord) (c : Word) (s : State) : (createCursor b c s).cfg = s.cfg := rfl
@[simp] theorem createCursor_base (b : DWord) (c : Word) (s : State) : (createCursor b c s).base = BitVec.ofNat 64 (b.toNat % s.cfg.space) := rfl
@[simp] theorem createCursor_cellIdx (b : DWord) (c : Word) (s : State) : (createCursor b c s).cellIdx = 0 := rfl
@[simp] theorem createCursor_bitOff (b : DWord) (c : Word) (s : State) : (createCursor b c s).bitOff = 0 := rfl
@[simp] theorem createCursor_rem (b : DWord) (c : Word) (s : State) : (createCursor b c s).rem = c := rfl
@[simp] theorem createCursor_valid (b : DWord) (c : Word) (s : State) : (createCursor b c s).valid = true := rfl
@[simp] theorem createCursor_result (b : DWord) (c : Word) (s : State) : (createCursor b c s).result = s.result := rfl
@[simp] theorem createCursor_last (b : DWord) (c : Word) (s : State) : (createCursor b c s).last = s.last := rfl
@[simp] theorem createCursor_fault (b : DWord) (c : Word) (s : State) : (createCursor b c s).fault = s.fault := rfl
@[simp] theorem createCursor_mem (b : DWord) (c : Word) (s : State) : (createCursor b c s).mem = s.mem := rfl
@[simp] theorem createCursor_response (b : DWord) (c : Word) (s : State) : (createCursor b c s).response = s.response := rfl
@[simp] theorem createCursor_trace (b : DWord) (c : Word) (s : State) : (createCursor b c s).trace = s.trace := rfl
@[simp] theorem createCursor_pending (b : DWord) (c : Word) (s : State) : (createCursor b c s).pending = s.pending := rfl
@[simp] theorem createCursor_k (b : DWord) (c : Word) (s : State) : (createCursor b c s).k = s.k := rfl
@[simp] theorem createCursor_freed (b : DWord) (c : Word) (s : State) : (createCursor b c s).freed = s.freed := rfl
@[simp] theorem createCursor_bufferFreed (b : DWord) (c : Word) (s : State) : (createCursor b c s).bufferFreed = regionFreed s.freed { first := b.toNat % s.cfg.space, cells := cellsFor s.cfg c.toNat } := rfl
@[simp] theorem createCursor_faultedBefore (b : DWord) (c : Word) (s : State) : (createCursor b c s).faultedBefore = s.faultedBefore := rfl
@[simp] theorem createCursor_draws (b : DWord) (c : Word) (s : State) : (createCursor b c s).draws = s.draws := rfl

@[simp] theorem destroyCursor_cfg (s : State) : (destroyCursor s).cfg = s.cfg := rfl
@[simp] theorem destroyCursor_base (s : State) : (destroyCursor s).base = 0 := rfl
@[simp] theorem destroyCursor_cellIdx (s : State) : (destroyCursor s).cellIdx = 0 := rfl
@[simp] theorem destroyCursor_bitOff (s : State) : (destroyCursor s).bitOff = 0 := rfl
@[simp] theorem destroyCursor_rem (s : State) : (destroyCursor s).rem = 0 := rfl
@[simp] theorem destroyCursor_valid (s : State) : (destroyCursor s).valid = false := rfl
@[simp] theorem destroyCursor_result (s : State) : (destroyCursor s).result = s.result := rfl
@[simp] theorem destroyCursor_last (s : State) : (destroyCursor s).last = s.last := rfl
@[simp] theorem destroyCursor_fault (s : State) : (destroyCursor s).fault = s.fault := rfl
@[simp] theorem destroyCursor_mem (s : State) : (destroyCursor s).mem = s.mem := rfl
@[simp] theorem destroyCursor_response (s : State) : (destroyCursor s).response = s.response := rfl
@[simp] theorem destroyCursor_trace (s : State) : (destroyCursor s).trace = s.trace := rfl
@[simp] theorem destroyCursor_pending (s : State) : (destroyCursor s).pending = s.pending := rfl
@[simp] theorem destroyCursor_k (s : State) : (destroyCursor s).k = s.k := rfl
@[simp] theorem destroyCursor_freed (s : State) : (destroyCursor s).freed = s.freed := rfl
@[simp] theorem destroyCursor_bufferFreed (s : State) : (destroyCursor s).bufferFreed = false := rfl
@[simp] theorem destroyCursor_faultedBefore (s : State) : (destroyCursor s).faultedBefore = s.faultedBefore := rfl
@[simp] theorem destroyCursor_draws (s : State) : (destroyCursor s).draws = s.draws := rfl

@[simp] theorem hardReset_cfg (s : State) : (hardReset s).cfg = s.cfg := rfl
@[simp] theorem hardReset_base (s : State) : (hardReset s).base = 0 := rfl
@[simp] theorem hardReset_cellIdx (s : State) : (hardReset s).cellIdx = 0 := rfl
@[simp] theorem hardReset_bitOff (s : State) : (hardReset s).bitOff = 0 := rfl
@[simp] theorem hardReset_rem (s : State) : (hardReset s).rem = 0 := rfl
@[simp] theorem hardReset_valid (s : State) : (hardReset s).valid = false := rfl
@[simp] theorem hardReset_result (s : State) : (hardReset s).result = 0 := rfl
@[simp] theorem hardReset_last (s : State) : (hardReset s).last = .ok := rfl
@[simp] theorem hardReset_fault (s : State) : (hardReset s).fault = false := rfl
@[simp] theorem hardReset_mem (s : State) : (hardReset s).mem = s.mem := rfl
@[simp] theorem hardReset_response (s : State) : (hardReset s).response = none := rfl
@[simp] theorem hardReset_trace (s : State) : (hardReset s).trace = [] := rfl
@[simp] theorem hardReset_pending (s : State) : (hardReset s).pending = s.pending := rfl
@[simp] theorem hardReset_k (s : State) : (hardReset s).k = s.k := rfl
@[simp] theorem hardReset_freed (s : State) : (hardReset s).freed = s.freed := rfl
@[simp] theorem hardReset_bufferFreed (s : State) : (hardReset s).bufferFreed = false := rfl
@[simp] theorem hardReset_faultedBefore (s : State) : (hardReset s).faultedBefore = s.hasFaulted := rfl
@[simp] theorem hardReset_draws (s : State) : (hardReset s).draws = s.draws := rfl

/-- A reset keeps the record of a fault (R198). -/
@[simp] theorem hardReset_hasFaulted (s : State) : (hardReset s).hasFaulted = s.hasFaulted := by simp [State.hasFaulted]

@[simp] theorem beginCommand_cfg (s : State) : (beginCommand s).cfg = s.cfg := rfl
@[simp] theorem beginCommand_base (s : State) : (beginCommand s).base = s.base := rfl
@[simp] theorem beginCommand_cellIdx (s : State) : (beginCommand s).cellIdx = s.cellIdx := rfl
@[simp] theorem beginCommand_bitOff (s : State) : (beginCommand s).bitOff = s.bitOff := rfl
@[simp] theorem beginCommand_rem (s : State) : (beginCommand s).rem = s.rem := rfl
@[simp] theorem beginCommand_valid (s : State) : (beginCommand s).valid = s.valid := rfl
@[simp] theorem beginCommand_result (s : State) : (beginCommand s).result = s.result := rfl
@[simp] theorem beginCommand_last (s : State) : (beginCommand s).last = s.last := rfl
@[simp] theorem beginCommand_fault (s : State) : (beginCommand s).fault = s.fault := rfl
@[simp] theorem beginCommand_mem (s : State) : (beginCommand s).mem = s.mem := rfl
@[simp] theorem beginCommand_response (s : State) : (beginCommand s).response = s.response := rfl
@[simp] theorem beginCommand_trace (s : State) : (beginCommand s).trace = [] := rfl
@[simp] theorem beginCommand_pending (s : State) : (beginCommand s).pending = s.pending := rfl
@[simp] theorem beginCommand_k (s : State) : (beginCommand s).k = s.k := rfl
@[simp] theorem beginCommand_freed (s : State) : (beginCommand s).freed = s.freed := rfl
@[simp] theorem beginCommand_bufferFreed (s : State) : (beginCommand s).bufferFreed = s.bufferFreed := rfl
@[simp] theorem beginCommand_faultedBefore (s : State) : (beginCommand s).faultedBefore = s.faultedBefore := rfl
@[simp] theorem beginCommand_draws (s : State) : (beginCommand s).draws = s.draws := rfl

@[simp] theorem respond_cfg (s : State) : (respond s).cfg = s.cfg := rfl
@[simp] theorem respond_base (s : State) : (respond s).base = s.base := rfl
@[simp] theorem respond_cellIdx (s : State) : (respond s).cellIdx = s.cellIdx := rfl
@[simp] theorem respond_bitOff (s : State) : (respond s).bitOff = s.bitOff := rfl
@[simp] theorem respond_rem (s : State) : (respond s).rem = s.rem := rfl
@[simp] theorem respond_valid (s : State) : (respond s).valid = s.valid := rfl
@[simp] theorem respond_result (s : State) : (respond s).result = s.result := rfl
@[simp] theorem respond_last (s : State) : (respond s).last = s.last := rfl
@[simp] theorem respond_fault (s : State) : (respond s).fault = s.fault := rfl
@[simp] theorem respond_mem (s : State) : (respond s).mem = s.mem := rfl
@[simp] theorem respond_response (s : State) : (respond s).response = some { status := s.status, result := s.result } := rfl
@[simp] theorem respond_trace (s : State) : (respond s).trace = s.trace := rfl
@[simp] theorem respond_pending (s : State) : (respond s).pending = s.pending := rfl
@[simp] theorem respond_k (s : State) : (respond s).k = s.k + 1 := rfl
@[simp] theorem respond_freed (s : State) : (respond s).freed = s.freed := rfl
@[simp] theorem respond_bufferFreed (s : State) : (respond s).bufferFreed = s.bufferFreed := rfl
@[simp] theorem respond_faultedBefore (s : State) : (respond s).faultedBefore = s.faultedBefore := rfl
@[simp] theorem respond_draws (s : State) : (respond s).draws = s.draws := rfl

@[simp] theorem storeCellNow_cfg (st : CellStore) (s : State) : (storeCellNow st s).cfg = s.cfg := rfl
@[simp] theorem storeCellNow_base (st : CellStore) (s : State) : (storeCellNow st s).base = s.base := rfl
@[simp] theorem storeCellNow_cellIdx (st : CellStore) (s : State) : (storeCellNow st s).cellIdx = s.cellIdx := rfl
@[simp] theorem storeCellNow_bitOff (st : CellStore) (s : State) : (storeCellNow st s).bitOff = s.bitOff := rfl
@[simp] theorem storeCellNow_rem (st : CellStore) (s : State) : (storeCellNow st s).rem = s.rem := rfl
@[simp] theorem storeCellNow_valid (st : CellStore) (s : State) : (storeCellNow st s).valid = s.valid := rfl
@[simp] theorem storeCellNow_result (st : CellStore) (s : State) : (storeCellNow st s).result = s.result := rfl
@[simp] theorem storeCellNow_last (st : CellStore) (s : State) : (storeCellNow st s).last = s.last := rfl
@[simp] theorem storeCellNow_fault (st : CellStore) (s : State) : (storeCellNow st s).fault = s.fault := rfl
@[simp] theorem storeCellNow_mem (st : CellStore) (s : State) : (storeCellNow st s).mem = s.mem.writeCell s.cfg st.cell st.value.toNat := rfl
@[simp] theorem storeCellNow_response (st : CellStore) (s : State) : (storeCellNow st s).response = s.response := rfl
@[simp] theorem storeCellNow_trace (st : CellStore) (s : State) : (storeCellNow st s).trace = s.trace := rfl
@[simp] theorem storeCellNow_pending (st : CellStore) (s : State) : (storeCellNow st s).pending = s.pending := rfl
@[simp] theorem storeCellNow_k (st : CellStore) (s : State) : (storeCellNow st s).k = s.k := rfl
@[simp] theorem storeCellNow_freed (st : CellStore) (s : State) : (storeCellNow st s).freed = s.freed := rfl
@[simp] theorem storeCellNow_bufferFreed (st : CellStore) (s : State) : (storeCellNow st s).bufferFreed = s.bufferFreed := rfl
@[simp] theorem storeCellNow_faultedBefore (st : CellStore) (s : State) : (storeCellNow st s).faultedBefore = s.faultedBefore := rfl
@[simp] theorem storeCellNow_draws (st : CellStore) (s : State) : (storeCellNow st s).draws = s.draws := rfl

@[simp] theorem hostFree_cfg (r : Region) (s : State) : (hostFree r s).cfg = s.cfg := rfl
@[simp] theorem hostFree_base (r : Region) (s : State) : (hostFree r s).base = s.base := rfl
@[simp] theorem hostFree_cellIdx (r : Region) (s : State) : (hostFree r s).cellIdx = s.cellIdx := rfl
@[simp] theorem hostFree_bitOff (r : Region) (s : State) : (hostFree r s).bitOff = s.bitOff := rfl
@[simp] theorem hostFree_rem (r : Region) (s : State) : (hostFree r s).rem = s.rem := rfl
@[simp] theorem hostFree_valid (r : Region) (s : State) : (hostFree r s).valid = s.valid := rfl
@[simp] theorem hostFree_result (r : Region) (s : State) : (hostFree r s).result = s.result := rfl
@[simp] theorem hostFree_last (r : Region) (s : State) : (hostFree r s).last = s.last := rfl
@[simp] theorem hostFree_fault (r : Region) (s : State) : (hostFree r s).fault = s.fault := rfl
@[simp] theorem hostFree_mem (r : Region) (s : State) : (hostFree r s).mem = s.mem := rfl
@[simp] theorem hostFree_response (r : Region) (s : State) : (hostFree r s).response = s.response := rfl
@[simp] theorem hostFree_trace (r : Region) (s : State) : (hostFree r s).trace = s.trace := rfl
@[simp] theorem hostFree_pending (r : Region) (s : State) : (hostFree r s).pending = s.pending := rfl
@[simp] theorem hostFree_k (r : Region) (s : State) : (hostFree r s).k = s.k := rfl
@[simp] theorem hostFree_freed (r : Region) (s : State) : (hostFree r s).freed = freeRegion r s.freed := rfl
@[simp] theorem hostFree_bufferFreed (r : Region) (s : State) : (hostFree r s).bufferFreed = (s.bufferFreed || (s.valid && s.buffer.overlaps r)) := rfl
@[simp] theorem hostFree_faultedBefore (r : Region) (s : State) : (hostFree r s).faultedBefore = s.faultedBefore := rfl
@[simp] theorem hostFree_draws (r : Region) (s : State) : (hostFree r s).draws = s.draws := rfl

@[simp] theorem hostAllocate_cfg (r : Region) (s : State) : (hostAllocate r s).cfg = s.cfg := rfl
@[simp] theorem hostAllocate_base (r : Region) (s : State) : (hostAllocate r s).base = s.base := rfl
@[simp] theorem hostAllocate_cellIdx (r : Region) (s : State) : (hostAllocate r s).cellIdx = s.cellIdx := rfl
@[simp] theorem hostAllocate_bitOff (r : Region) (s : State) : (hostAllocate r s).bitOff = s.bitOff := rfl
@[simp] theorem hostAllocate_rem (r : Region) (s : State) : (hostAllocate r s).rem = s.rem := rfl
@[simp] theorem hostAllocate_valid (r : Region) (s : State) : (hostAllocate r s).valid = s.valid := rfl
@[simp] theorem hostAllocate_result (r : Region) (s : State) : (hostAllocate r s).result = s.result := rfl
@[simp] theorem hostAllocate_last (r : Region) (s : State) : (hostAllocate r s).last = s.last := rfl
@[simp] theorem hostAllocate_fault (r : Region) (s : State) : (hostAllocate r s).fault = s.fault := rfl
@[simp] theorem hostAllocate_mem (r : Region) (s : State) : (hostAllocate r s).mem = s.mem := rfl
@[simp] theorem hostAllocate_response (r : Region) (s : State) : (hostAllocate r s).response = s.response := rfl
@[simp] theorem hostAllocate_trace (r : Region) (s : State) : (hostAllocate r s).trace = s.trace := rfl
@[simp] theorem hostAllocate_pending (r : Region) (s : State) : (hostAllocate r s).pending = s.pending := rfl
@[simp] theorem hostAllocate_k (r : Region) (s : State) : (hostAllocate r s).k = s.k := rfl
@[simp] theorem hostAllocate_freed (r : Region) (s : State) : (hostAllocate r s).freed = allocateRegion r s.freed := rfl
@[simp] theorem hostAllocate_bufferFreed (r : Region) (s : State) : (hostAllocate r s).bufferFreed = s.bufferFreed := rfl
@[simp] theorem hostAllocate_faultedBefore (r : Region) (s : State) : (hostAllocate r s).faultedBefore = s.faultedBefore := rfl
@[simp] theorem hostAllocate_draws (r : Region) (s : State) : (hostAllocate r s).draws = s.draws := rfl

end Sys2Proof.Machine
end

