-- ==== Sys2Proof/Laws/Memory.lean ====
section
/-! SUPPORT. The laws of memory: read after write, everything else alone, the canonical form kept; for host
bytes and then for cells under either layout. -/

namespace Sys2Proof.Machine

theorem CellWidth_bits_pos (c : CellWidth) : 0 < c.bits := by cases c <;> decide

theorem CellWidth_bytes_pos (c : CellWidth) : 0 < c.bytes := by cases c <;> decide

theorem CellWidth_bits_le (c : CellWidth) : c.bits ≤ 32 := by cases c <;> decide

/-- A cell of `W` bits is `W / 8` host bytes. -/
theorem CellWidth_bits_bytes (c : CellWidth) : 2 ^ c.bits = 256 ^ c.bytes := by cases c <;> decide

/-! ### Bytes -/

theorem Memory.lookup_writeByte (m : Memory) (hm : m.wf) (a a' : Nat) (b : Byte) :
    (m.writeByte a b).lookup a' = if a' = a then some b else m.lookup a' := by
  induction m with
  | nil =>
    by_cases h : a' = a
    · simp [Memory.writeByte, Memory.lookup, h]
    · simp [Memory.writeByte, Memory.lookup, h, Ne.symm h]
  | cons x m ih =>
    obtain ⟨a0, b0⟩ := x
    have hm' : Memory.wf m := (List.pairwise_cons.mp hm).2
    simp only [Memory.writeByte]
    split
    · by_cases h : a' = a
      · simp [Memory.lookup, h]
      · simp [Memory.lookup, h, Ne.symm h]
    · split
      · rename_i h1 h2
        subst h2
        by_cases h : a' = a
        · simp [Memory.lookup, h]
        · simp [Memory.lookup, h, Ne.symm h]
      · rename_i h1 h2
        by_cases h0 : a0 = a'
        · subst h0
          simp [Memory.lookup, Ne.symm h2]
        · simp [Memory.lookup, h0, ih hm']

theorem Memory.readByte_writeByte (m : Memory) (hm : m.wf) (a a' : Nat) (b : Byte) :
    (m.writeByte a b).readByte a' = if a' = a then b else m.readByte a' := by
  unfold Memory.readByte
  rw [Memory.lookup_writeByte m hm]
  split <;> simp

/-- The addresses listed after a write are the old ones and the written one. -/
theorem Memory.mem_writeByte (m : Memory) (a : Nat) (b : Byte) (x : Nat)
    (h : x ∈ (m.writeByte a b).map Prod.fst) : x = a ∨ x ∈ m.map Prod.fst := by
  induction m with
  | nil => simpa [Memory.writeByte] using h
  | cons y m ih =>
    obtain ⟨a0, b0⟩ := y
    simp only [Memory.writeByte] at h
    split at h
    · simpa using h
    · split at h
      · rename_i h2
        simp only [List.map_cons, List.mem_cons] at h ⊢
        tauto
      · simp only [List.map_cons, List.mem_cons] at h ⊢
        rcases h with h | h
        · exact .inr (.inl h)
        · rcases ih h with h | h
          · exact .inl h
          · exact .inr (.inr h)

theorem Memory.wf_writeByte (m : Memory) (hm : m.wf) (a : Nat) (b : Byte) : (m.writeByte a b).wf := by
  induction m with
  | nil => simp [Memory.writeByte, Memory.wf]
  | cons y m ih =>
    obtain ⟨a0, b0⟩ := y
    have hc := List.pairwise_cons.mp hm
    simp only [Memory.writeByte]
    split
    · rename_i h
      refine List.pairwise_cons.mpr ⟨?_, hm⟩
      intro x hx
      simp only [List.map_cons, List.mem_cons] at hx
      rcases hx with rfl | hx
      · exact h
      · exact lt_trans h (hc.1 x hx)
    · split
      · rename_i h
        subst h
        exact List.pairwise_cons.mpr hc
      · refine List.pairwise_cons.mpr ⟨?_, ih hc.2⟩
        intro x hx
        rcases Memory.mem_writeByte m a b x hx with rfl | hx
        · simp only []; omega
        · exact hc.1 x hx

/-! ### Cells -/

/-- Two byte addresses of the layout agree only for the same byte of the same cell. -/
theorem byteAddr_inj (cfg : Config) {a a' j j' : Nat} (hj : j < cfg.width.bytes) (hj' : j' < cfg.width.bytes)
    (h : byteAddr cfg a j = byteAddr cfg a' j') : a = a' ∧ j = j' := by
  unfold byteAddr at h
  cases hw : cfg.width <;> cases hl : cfg.layout <;> simp only [hw, hl, CellWidth.bytes] at h hj hj' <;> omega

theorem byteAddr_lt (cfg : Config) {a j n : Nat} (hj : j < cfg.width.bytes) (ha : a < n) :
    byteAddr cfg a j < n * cfg.width.bytes := by
  unfold byteAddr
  cases hw : cfg.width <;> cases hl : cfg.layout <;> simp only [hw, CellWidth.bytes] at hj ⊢ <;> omega

theorem Memory.wf_storeBytes (cfg : Config) (m : Memory) (hm : m.wf) (a v k : Nat) :
    (Memory.storeBytes cfg m a v k).wf := by
  induction k with
  | zero => exact hm
  | succ k ih => exact Memory.wf_writeByte _ ih _ _

theorem Memory.wf_writeCell (cfg : Config) (m : Memory) (hm : m.wf) (a v : Nat) : (m.writeCell cfg a v).wf :=
  Memory.wf_storeBytes cfg m hm a v _

theorem Memory.mem_storeBytes (cfg : Config) (m : Memory) (a v k x : Nat)
    (h : x ∈ (Memory.storeBytes cfg m a v k).map Prod.fst) :
    (∃ j, j < k ∧ x = byteAddr cfg a j) ∨ x ∈ m.map Prod.fst := by
  induction k with
  | zero => exact .inr h
  | succ k ih =>
    rcases Memory.mem_writeByte _ _ _ _ h with h | h
    · exact .inl ⟨k, Nat.lt_succ_self k, h⟩
    · rcases ih h with ⟨j, hj, h⟩ | h
      · exact .inl ⟨j, Nat.lt_succ_of_lt hj, h⟩
      · exact .inr h

/-- A byte that is none of the stored ones reads as before. -/
theorem Memory.readByte_storeBytes_other (cfg : Config) (m : Memory) (hm : m.wf) (a v k x : Nat)
    (h : ∀ j, j < k → x ≠ byteAddr cfg a j) :
    (Memory.storeBytes cfg m a v k).readByte x = m.readByte x := by
  induction k with
  | zero => rfl
  | succ k ih =>
    rw [Memory.storeBytes, Memory.readByte_writeByte _ (Memory.wf_storeBytes cfg m hm a v k),
      if_neg (h k (Nat.lt_succ_self k)), ih fun j hj => h j (Nat.lt_succ_of_lt hj)]

/-- A byte outside the stored cell reads as before. -/
theorem Memory.readByte_writeCell_other (cfg : Config) (m : Memory) (hm : m.wf) (a v x : Nat)
    (h : ∀ j, j < cfg.width.bytes → x ≠ byteAddr cfg a j) :
    (m.writeCell cfg a v).readByte x = m.readByte x :=
  Memory.readByte_storeBytes_other cfg m hm a v _ x h

theorem Memory.readByte_storeBytes_same (cfg : Config) (m : Memory) (hm : m.wf) (a v k j : Nat)
    (hk : k ≤ cfg.width.bytes) (hj : j < k) :
    (Memory.storeBytes cfg m a v k).readByte (byteAddr cfg a j) = BitVec.ofNat 8 (v / 256 ^ j) := by
  induction k with
  | zero => omega
  | succ k ih =>
    rw [Memory.storeBytes, Memory.readByte_writeByte _ (Memory.wf_storeBytes cfg m hm a v k)]
    split
    · rename_i h
      obtain ⟨-, rfl⟩ := byteAddr_inj cfg (by omega) (by omega) h
      rfl
    · rename_i h
      refine ih (by omega) ?_
      rcases Nat.lt_succ_iff_lt_or_eq.mp hj with hj | rfl
      · exact hj
      · exact absurd rfl h

/-- Bytes that agree make cells that agree. -/
theorem Memory.cellBytes_congr (cfg : Config) (m m' : Memory) (a k : Nat)
    (h : ∀ j, j < k → m.readByte (byteAddr cfg a j) = m'.readByte (byteAddr cfg a j)) :
    Memory.cellBytes cfg m a k = Memory.cellBytes cfg m' a k := by
  induction k with
  | zero => rfl
  | succ k ih =>
    rw [Memory.cellBytes, Memory.cellBytes, h k (Nat.lt_succ_self k), ih fun j hj => h j (Nat.lt_succ_of_lt hj)]

theorem Memory.cellBytes_lt (cfg : Config) (m : Memory) (a k : Nat) : Memory.cellBytes cfg m a k < 256 ^ k := by
  induction k with
  | zero => simp [Memory.cellBytes]
  | succ k ih =>
    rw [Memory.cellBytes, pow_succ]
    have h := (m.readByte (byteAddr cfg a k)).isLt
    have h2 : (m.readByte (byteAddr cfg a k)).toNat * 256 ^ k ≤ 255 * 256 ^ k :=
      Nat.mul_le_mul_right _ (by omega)
    omega

/-- A cell holds `W` bits. -/
theorem Memory.readCell_lt (cfg : Config) (m : Memory) (a : Nat) : m.readCell cfg a < 2 ^ cfg.w := by
  have h := Memory.cellBytes_lt cfg m a cfg.width.bytes
  rw [← CellWidth_bits_bytes] at h
  exact h

/-- Read after write, the same cell (R52). -/
theorem Memory.readCell_writeCell_same (cfg : Config) (m : Memory) (hm : m.wf) (a v : Nat) :
    (m.writeCell cfg a v).readCell cfg a = v % 2 ^ cfg.w := by
  have key : ∀ k, k ≤ cfg.width.bytes → Memory.cellBytes cfg (m.writeCell cfg a v) a k = v % 256 ^ k := by
    intro k hk
    induction k with
    | zero => simp [Memory.cellBytes, Nat.mod_one]
    | succ k ih =>
      rw [Memory.cellBytes, ih (by omega), Memory.writeCell,
        Memory.readByte_storeBytes_same cfg m hm a v _ k (Nat.le_refl _) (by omega), BitVec.toNat_ofNat]
      have h := Nat.mod_mul (x := v) (a := 256 ^ k) (b := 256)
      rw [← pow_succ, Nat.mul_comm (256 ^ k) (_ % _)] at h
      exact h.symm
  have h := key _ (Nat.le_refl _)
  rw [← CellWidth_bits_bytes] at h
  exact h

/-- A write leaves every other cell alone (R52). -/
theorem Memory.readCell_writeCell_other (cfg : Config) (m : Memory) (hm : m.wf) {a a' : Nat} (v : Nat)
    (h : a' ≠ a) : (m.writeCell cfg a v).readCell cfg a' = m.readCell cfg a' := by
  refine Memory.cellBytes_congr cfg _ _ a' _ fun j hj => ?_
  refine Memory.readByte_writeCell_other cfg m hm a v _ fun j' hj' heq => h ?_
  exact (byteAddr_inj cfg hj hj' heq).1

/-- The addresses listed stay in the address space when the stored cell is in it (R50). -/
theorem Memory.inSpace_writeCell (cfg : Config) (m : Memory) (a v n : Nat) (ha : a < n)
    (h : ∀ c ∈ m, c.1 < n * cfg.width.bytes) :
    ∀ c ∈ m.writeCell cfg a v, c.1 < n * cfg.width.bytes := by
  intro c hc
  rcases Memory.mem_storeBytes cfg m a v _ c.1 (List.mem_map_of_mem hc) with ⟨j, hj, h1⟩ | h1
  · rw [h1]; exact byteAddr_lt cfg hj ha
  · obtain ⟨d, hd, he⟩ := List.mem_map.mp h1
    rw [← he]; exact h d hd

end Sys2Proof.Machine
end

