-- ==== Sys2Proof/Laws/Port.lean ====
section
/-! SUPPORT. What the memory port, gather and scatter can do, said once: each answers either the one stated
result or the one fault. -/

namespace Sys2Proof.Machine

theorem State.w_pos (s : State) : 0 < s.cfg.w := CellWidth_bits_pos _

/-! ### Reading cells -/

theorem memRead_ok {s t : State} {a v : Nat} (h : memRead s a = .ok (v, t)) :
    a < s.cfg.space ∧ v = s.mem.readCell s.cfg a ∧ t = { s with trace := s.trace ++ [.read a] } := by
  unfold memRead at h
  split at h
  · rename_i hlt
    simp only [Except.ok.injEq, Prod.mk.injEq] at h
    exact ⟨hlt, h.1.symm, h.2.symm⟩
  · cases h

theorem memWrite_ok {s t : State} {a v : Nat} (h : memWrite s a v = .ok t) :
    a < s.cfg.space ∧
      t = { s with mem := s.mem.writeCell s.cfg a v, trace := s.trace ++ [.write a v] } := by
  unfold memWrite at h
  split at h
  · rename_i hlt
    simp only [Except.ok.injEq] at h
    exact ⟨hlt, h.symm⟩
  · cases h

/-- The contents of buffer cells `c` to `c + cnt − 1`. -/
def State.cellsFrom (s : State) (c cnt : Nat) : List Nat :=
  (List.range cnt).map fun i => s.mem.readCell s.cfg (s.base.toNat + (c + i))

theorem State.cellsFrom_succ (s : State) (c cnt : Nat) :
    s.cellsFrom c (cnt + 1) = s.mem.readCell s.cfg (s.base.toNat + c) :: s.cellsFrom (c + 1) cnt := by
  simp only [State.cellsFrom, List.range_succ_eq_map, List.map_cons, List.map_map, Nat.add_zero]
  congr 1
  refine List.map_congr_left fun i _ => ?_
  simp only [Function.comp_apply, Nat.succ_eq_add_one]
  congr 1
  omega

theorem readsOf_succ (s : State) (c cnt : Nat) :
    readsOf s c (cnt + 1) = .read (s.base.toNat + c) :: readsOf s (c + 1) cnt := by
  simp only [readsOf, List.range_succ_eq_map, List.map_cons, List.map_map, Nat.add_zero]
  congr 1
  refine List.map_congr_left fun i _ => ?_
  simp only [Function.comp_apply, Nat.succ_eq_add_one]
  congr 1
  omega

/-- `readCells` answers the cells' contents and records one read of each, ascending (R120, R125). -/
theorem readCells_ok {s t : State} {c cnt : Nat} {vs : List Nat} (h : readCells s c cnt = .ok (vs, t)) :
    vs = s.cellsFrom c cnt ∧ t = { s with trace := s.trace ++ readsOf s c cnt } := by
  induction cnt generalizing s t c vs with
  | zero =>
    simp only [readCells, Except.ok.injEq, Prod.mk.injEq] at h
    obtain ⟨rfl, rfl⟩ := h
    simp [State.cellsFrom, readsOf]
  | succ cnt ih =>
    simp only [readCells] at h
    split at h
    · cases h
    · rename_i v s1 h1
      obtain ⟨-, rfl, rfl⟩ := memRead_ok h1
      split at h
      · cases h
      · rename_i vs' s2 h2
        obtain ⟨rfl, rfl⟩ := ih h2
        simp only [Except.ok.injEq, Prod.mk.injEq] at h
        obtain ⟨rfl, rfl⟩ := h
        refine ⟨(State.cellsFrom_succ s c cnt).symm, ?_⟩
        simp only [State.mk.injEq, true_and, and_true, readsOf_succ, List.append_assoc, List.singleton_append]
        rfl

/-- It answers whenever the cells lie in the address space (R50). -/
theorem readCells_total (s : State) (c cnt : Nat) (h : s.base.toNat + c + cnt ≤ s.cfg.space) :
    readCells s c cnt = .ok (s.cellsFrom c cnt, { s with trace := s.trace ++ readsOf s c cnt }) := by
  have : ∃ r, readCells s c cnt = .ok r := by
    induction cnt generalizing s c with
    | zero => exact ⟨_, rfl⟩
    | succ cnt ih =>
      have hlt : s.base.toNat + c < s.cfg.space := by omega
      obtain ⟨r, hr⟩ := ih { s with trace := s.trace ++ [.read (s.base.toNat + c)] } (c + 1)
        (by show s.base.toNat + (c + 1) + cnt ≤ s.cfg.space; omega)
      simp only [readCells, memRead, hlt, if_true, hr]
      exact ⟨_, rfl⟩
  obtain ⟨⟨vs, t⟩, hr⟩ := this
  obtain ⟨rfl, rfl⟩ := readCells_ok hr
  exact hr

/-! ### The number a run makes -/

theorem runValue_lt (w : Nat) (cells : List Nat) (q k : Nat) : runValue w cells q k < 2 ^ k := by
  induction k with
  | zero => simp [runValue]
  | succ k ih =>
    rw [runValue, pow_succ]
    have := Bool.toNat_lt (runBit w cells (q + k))
    omega

/-- Value bit `k − 1 − i` is bit `i` of the run (R120). -/
theorem runValue_testBit (w : Nat) (cells : List Nat) (q k i : Nat) (h : i < k) :
    (runValue w cells q k).testBit (k - 1 - i) = runBit w cells (q + i) := by
  induction k with
  | zero => omega
  | succ k ih =>
    rw [runValue]
    rcases Nat.lt_succ_iff_lt_or_eq.mp h with h | rfl
    · have e : k + 1 - 1 - i = (k - 1 - i) + 1 := by omega
      have hb := Bool.toNat_lt (runBit w cells (q + k))
      rw [e, Nat.testBit_succ, ← ih h]
      congr 1
      omega
    · have e : i + 1 - 1 - i = 0 := by omega
      rw [e, Nat.testBit_zero]
      cases runBit w cells (q + i) <;> simp

/-- The number the `k` stream bits from `p` make. -/
def State.streamValue (s : State) (p : Nat) : Nat → Nat
  | 0 => 0
  | k + 1 => 2 * State.streamValue s p k + (s.streamBit (p + k)).toNat

theorem State.streamValue_lt (s : State) (p k : Nat) : s.streamValue p k < 2 ^ k := by
  induction k with
  | zero => simp [State.streamValue]
  | succ k ih =>
    rw [State.streamValue, pow_succ]
    have := Bool.toNat_lt (s.streamBit (p + k))
    omega

theorem State.streamValue_testBit (s : State) (p k i : Nat) (h : i < k) :
    (s.streamValue p k).testBit (k - 1 - i) = s.streamBit (p + i) := by
  induction k with
  | zero => omega
  | succ k ih =>
    rw [State.streamValue]
    rcases Nat.lt_succ_iff_lt_or_eq.mp h with h | rfl
    · have e : k + 1 - 1 - i = (k - 1 - i) + 1 := by omega
      have hb := Bool.toNat_lt (s.streamBit (p + k))
      rw [e, Nat.testBit_succ, ← ih h]
      congr 1
      omega
    · have e : i + 1 - 1 - i = 0 := by omega
      rw [e, Nat.testBit_zero]
      cases s.streamBit (p + i) <;> simp

/-- Stream bits that agree make numbers that agree. -/
theorem State.streamValue_congr {s t : State} {p k : Nat}
    (h : ∀ i, i < k → s.streamBit (p + i) = t.streamBit (p + i)) : s.streamValue p k = t.streamValue p k := by
  induction k with
  | zero => rfl
  | succ k ih =>
    rw [State.streamValue, State.streamValue, h k (Nat.lt_succ_self k), ih fun i hi => h i (Nat.lt_succ_of_lt hi)]

/-- The number whose bits, most significant first, are the stream bits is the run's number. -/
theorem State.streamValue_unique (s : State) (p k v : Nat) (hv : v < 2 ^ k)
    (h : ∀ i, i < k → s.streamBit (p + i) = v.testBit (k - 1 - i)) : s.streamValue p k = v := by
  refine Nat.eq_of_testBit_eq fun j => ?_
  by_cases hj : j < k
  · have e : j = k - 1 - (k - 1 - j) := by omega
    rw [e, State.streamValue_testBit _ _ _ _ (by omega), h _ (by omega)]
  · rw [Nat.testBit_lt_two_pow (lt_of_lt_of_le (s.streamValue_lt p k) (Nat.pow_le_pow_right (by omega) (by omega))),
      Nat.testBit_lt_two_pow (lt_of_lt_of_le hv (Nat.pow_le_pow_right (by omega) (by omega)))]

theorem div_add_mod_div (p i w : Nat) (hw : 0 < w) : p / w + (p % w + i) / w = (p + i) / w := by
  conv_rhs => rw [← Nat.div_add_mod p w, Nat.add_assoc, Nat.mul_add_div hw]

theorem mod_add_mod (p i w : Nat) : (p % w + i) % w = (p + i) % w := by
  rw [Nat.add_mod, Nat.mod_mod, ← Nat.add_mod]

/-- A stream bit of the run lies in one of the cells the run spans. -/
theorem div_lt_cellSpan (w p k i : Nat) (hw : 0 < w) (h : i < k) : (p % w + i) / w < cellSpan w p k := by
  have hk : k ≠ 0 := by omega
  simp only [cellSpan, hk, if_false]
  have h1 := div_add_mod_div p i w hw
  have h2 : (p + i) / w ≤ (p + k - 1) / w := Nat.div_le_div_right (by omega)
  omega

theorem runBit_cellsFrom (s : State) (p k i : Nat) (h : i < k) :
    runBit s.cfg.w (s.cellsFrom (p / s.cfg.w) (cellSpan s.cfg.w p k)) (p % s.cfg.w + i) = s.streamBit (p + i) := by
  have hw := s.w_pos
  have hl := div_lt_cellSpan s.cfg.w p k i hw h
  unfold runBit State.streamBit State.cellsFrom
  rw [List.getD_eq_getElem _ _ (by simpa using hl)]
  simp only [List.getElem_map, List.getElem_range, div_add_mod_div _ _ _ hw, mod_add_mod]

theorem runValue_cellsFrom (s : State) (p k : Nat) :
    runValue s.cfg.w (s.cellsFrom (p / s.cfg.w) (cellSpan s.cfg.w p k)) (p % s.cfg.w) k = s.streamValue p k := by
  have key : ∀ j, j ≤ k →
      runValue s.cfg.w (s.cellsFrom (p / s.cfg.w) (cellSpan s.cfg.w p k)) (p % s.cfg.w) j = s.streamValue p j := by
    intro j hj
    induction j with
    | zero => rfl
    | succ j ih => rw [runValue, State.streamValue, ih (by omega), runBit_cellsFrom s p k j (by omega)]
  exact key k (Nat.le_refl k)

/-- `gather` answers the stream bits' number and records one read of each cell they lie in (R120, R125). -/
theorem gather_ok {s t : State} {p k v : Nat} (h : gather s p k = .ok (v, t)) :
    v = s.streamValue p k ∧
      t = { s with trace := s.trace ++ readsOf s (p / s.cfg.w) (cellSpan s.cfg.w p k) } := by
  unfold gather at h
  split at h
  · cases h
  · rename_i cells s1 h1
    obtain ⟨rfl, rfl⟩ := readCells_ok h1
    simp only [Except.ok.injEq, Prod.mk.injEq] at h
    exact ⟨h.1.symm.trans (runValue_cellsFrom s p k), h.2.symm⟩

/-- Cells of a run of `k > 0` bits from `p`, when the run's last cell lies below `n`. -/
theorem cellSpan_le (w p k n b : Nat) (h : k ≠ 0 → b + (p + k - 1) / w < n) (h0 : k = 0 → b + p / w ≤ n) :
    b + p / w + cellSpan w p k ≤ n := by
  unfold cellSpan
  split
  · rename_i hk; have := h0 hk; omega
  · rename_i hk
    have h1 := h hk
    have h2 : p / w ≤ (p + k - 1) / w := Nat.div_le_div_right (by omega)
    omega

theorem gather_zero (s : State) (p : Nat) : gather s p 0 = .ok (0, s) := by
  simp [gather, cellSpan, readCells, runValue]

/-- `gather` answers whenever the run's cells lie in the address space. -/
theorem gather_total (s : State) (p k : Nat) (h : k ≠ 0 → s.base.toNat + (p + k - 1) / s.cfg.w < s.cfg.space) :
    gather s p k = .ok (s.streamValue p k,
      { s with trace := s.trace ++ readsOf s (p / s.cfg.w) (cellSpan s.cfg.w p k) }) := by
  by_cases hk : k = 0
  · subst hk
    rw [gather_zero]
    simp [cellSpan, readsOf, State.streamValue]
  · have hr := readCells_total s (p / s.cfg.w) (cellSpan s.cfg.w p k)
      (cellSpan_le _ _ _ _ _ h fun h0 => absurd h0 hk)
    unfold gather
    rw [hr]
    simp only [runValue_cellsFrom]

/-! ### The tolerant value -/

/-- The number of a tolerant read (R124): real bits, then zeros. -/
def State.tolerantValue (s : State) (n : Nat) : Nat :=
  s.streamValue s.abs (s.realBits n) <<< (n - s.realBits n)

/-- `tolval` answers the real bits and zeros, and reads the cells of the real bits only (R124, R125). -/
theorem tolval_ok {s t : State} {n v : Nat} (h : tolval s n = .ok (v, t)) :
    v = s.tolerantValue n ∧
      t = { s with trace := s.trace ++ readsOf s (s.abs / s.cfg.w) (cellSpan s.cfg.w s.abs (s.realBits n)) } := by
  unfold tolval at h
  split at h
  · rename_i hle
    have e : s.realBits n = n := by unfold State.realBits; omega
    obtain ⟨rfl, rfl⟩ := gather_ok h
    simp [State.tolerantValue, e]
  · rename_i hle
    have e : s.realBits n = (max 0 s.remaining).toNat := by unfold State.realBits; omega
    simp only at h
    split at h
    · cases h
    · rename_i v' s1 h1
      obtain ⟨rfl, rfl⟩ := gather_ok h1
      simp only [Except.ok.injEq, Prod.mk.injEq] at h
      obtain ⟨rfl, rfl⟩ := h
      simp [State.tolerantValue, e]

theorem tolval_total (s : State) (n : Nat)
    (h : s.realBits n ≠ 0 → s.base.toNat + (s.abs + s.realBits n - 1) / s.cfg.w < s.cfg.space) :
    tolval s n = .ok (s.tolerantValue n,
      { s with trace := s.trace ++ readsOf s (s.abs / s.cfg.w) (cellSpan s.cfg.w s.abs (s.realBits n)) }) := by
  unfold tolval
  split
  · rename_i hle
    have e : s.realBits n = n := by unfold State.realBits; omega
    rw [e] at h
    rw [gather_total s _ _ h]
    simp [State.tolerantValue, e]
  · rename_i hle
    have e : (max 0 s.remaining).toNat = s.realBits n := by unfold State.realBits; omega
    simp only [e, gather_total s _ _ h]
    rfl

/-- Its top bits are the real stream bits and its low ones zero (R124). -/
theorem State.tolerantValue_testBit (s : State) (n i : Nat) (h : i < n) :
    (s.tolerantValue n).testBit (n - 1 - i) = (decide ((i : Int) < s.remaining) && s.streamBit (s.abs + i)) := by
  have hm : s.realBits n ≤ n := Nat.min_le_left _ _
  unfold State.tolerantValue
  rw [Nat.testBit_shiftLeft]
  by_cases hi : i < s.realBits n
  · have h1 : (i : Int) < s.remaining := by unfold State.realBits at hi; omega
    have e : n - 1 - i - (n - s.realBits n) = s.realBits n - 1 - i := by omega
    rw [e, State.streamValue_testBit _ _ _ _ hi]
    simp only [h1, decide_true, Bool.true_and]
    simp only [Bool.and_eq_right_iff_imp, decide_eq_true_eq]
    intro _; omega
  · have h1 : ¬ (i : Int) < s.remaining := by unfold State.realBits at hi; omega
    simp only [h1, decide_false, Bool.false_and, Bool.and_eq_false_iff, decide_eq_false_iff_not]
    left; omega

theorem State.tolerantValue_lt (s : State) (n : Nat) : s.tolerantValue n < 2 ^ n := by
  have hm : s.realBits n ≤ n := Nat.min_le_left _ _
  unfold State.tolerantValue
  rw [Nat.shiftLeft_eq]
  have h := s.streamValue_lt s.abs (s.realBits n)
  calc _ < 2 ^ s.realBits n * 2 ^ (n - s.realBits n) := Nat.mul_lt_mul_of_pos_right h (by positivity)
    _ = 2 ^ n := by rw [← pow_add]; congr 1; omega

/-! ### Scatter -/

theorem replaceBit_testBit (x sh i : Nat) (b : Bool) :
    (replaceBit x sh b).testBit i = if i = sh then b else x.testBit i := by
  unfold replaceBit
  rw [Nat.testBit_or, Nat.testBit_xor, Nat.testBit_and, Nat.testBit_shiftLeft, Nat.testBit_shiftLeft]
  by_cases h : i = sh
  · subst h; cases b <;> simp
  · simp only [h, if_false]
    by_cases h2 : sh ≤ i
    · have h3 : i - sh ≠ 0 := by omega
      obtain ⟨j, hj⟩ := Nat.exists_eq_succ_of_ne_zero h3
      cases b <;> simp [hj, h2, Nat.testBit_succ]
    · simp [h2]

/-- A merge replaces exactly the covered bits (R151). `o` is a cursor offset in the cell. -/
theorem mergeBits_testBit (w p k v x q cnt o : Nat) (ho : o < w) (hc : q % w + cnt ≤ w) :
    (mergeBits w p k v x q cnt).testBit (w - 1 - o) =
      if q % w ≤ o ∧ o < q % w + cnt then v.testBit (k - 1 - (q / w * w + o - p)) else x.testBit (w - 1 - o) := by
  induction cnt generalizing x q with
  | zero =>
    rw [mergeBits, if_neg (by omega)]
  | succ cnt ih =>
    rw [mergeBits]
    have hqm : q % w < w := Nat.mod_lt _ (by omega)
    have hq : q / w * w + q % w = q := Nat.div_add_mod' q w
    by_cases hlast : cnt = 0
    · subst hlast
      rw [mergeBits, replaceBit_testBit]
      by_cases h : o = q % w
      · subst h
        rw [if_pos rfl, if_pos (by omega), hq]
      · rw [if_neg (by omega), if_neg (by omega)]
    · have h1 : (q + 1) % w = q % w + 1 := by
        rw [Nat.add_mod, Nat.mod_eq_of_lt (a := 1) (by omega)]
        exact Nat.mod_eq_of_lt (by omega)
      have h2 : (q + 1) / w = q / w := by
        have e : (q + 1) / w * w + (q + 1) % w = q + 1 := Nat.div_add_mod' _ _
        rw [h1] at e
        have hwp : 0 < w := by omega
        have e' : (q + 1) / w * w = q / w * w := by omega
        exact Nat.eq_of_mul_eq_mul_right hwp e'
      rw [ih _ _ (by omega), replaceBit_testBit, h1, h2]
      by_cases h : o = q % w
      · subst h
        rw [if_neg (by omega), if_pos rfl, if_pos (by omega), hq]
      · rw [if_neg (show ¬ w - 1 - o = w - 1 - q % w by omega)]
        by_cases h3 : q % w + 1 ≤ o ∧ o < q % w + 1 + cnt
        · rw [if_pos h3, if_pos (by omega)]
        · rw [if_neg h3, if_neg (by omega)]

/-- A merge stays in `w` bits. -/
theorem mergeBits_lt (w p k v x q cnt : Nat) (hw : 0 < w) (hx : x < 2 ^ w) :
    mergeBits w p k v x q cnt < 2 ^ w := by
  induction cnt generalizing x q with
  | zero => exact hx
  | succ cnt ih =>
    refine ih _ _ (Nat.lt_pow_two_of_testBit _ fun i hi => ?_)
    rw [replaceBit_testBit, if_neg (by omega)]
    exact Nat.testBit_lt_two_pow (lt_of_lt_of_le hx (Nat.pow_le_pow_right (by omega) hi))

/-- The accesses a write makes to cell `c` (R152): a store alone when the cell is wholly covered, a load then
the store when it is partly covered. `m` is the memory after the write. -/
def cellAccesses (cfg : Config) (base p k : Nat) (m : Memory) (c : Nat) : List Access :=
  if p ≤ c * cfg.w ∧ (c + 1) * cfg.w ≤ p + k then [.write (base + c) (m.readCell cfg (base + c))]
  else [.read (base + c), .write (base + c) (m.readCell cfg (base + c))]

/-- What a scatter over cells `c` to `c + cnt − 1` leaves (R151, R152). -/
structure Scattered (s t : State) (p k v c cnt : Nat) : Prop where
  rest     : t = { s with mem := t.mem, trace := t.trace }
  wf       : t.mem.wf
  accesses : t.trace =
    s.trace ++ (List.range cnt).flatMap fun i => cellAccesses s.cfg s.base.toNat p k t.mem (c + i)
  bits     : ∀ q, c ≤ q / s.cfg.w → q / s.cfg.w < c + cnt →
    t.streamBit q = if p ≤ q ∧ q < p + k then v.testBit (k - 1 - (q - p)) else s.streamBit q
  cells    : ∀ a, (a < s.base.toNat + c ∨ s.base.toNat + c + cnt ≤ a) →
    t.mem.readCell s.cfg a = s.mem.readCell s.cfg a
  bytes    : ∀ x, (∀ i, i < cnt → ∀ j, j < s.cfg.width.bytes → x ≠ byteAddr s.cfg (s.base.toNat + (c + i)) j) →
    t.mem.readByte x = s.mem.readByte x
  inSpace  : s.memInSpace → t.memInSpace

/-- The merge of the part of a run that falls in cell `c`, bit by bit (R151). -/
theorem mergeCell_testBit (w p k v x c o : Nat) (ho : o < w) (hcov : p < (c + 1) * w) (hcov' : c * w < p + k) :
    (mergeBits w p k v x (max p (c * w)) (min (p + k) ((c + 1) * w) - max p (c * w))).testBit (w - 1 - o) =
      if p ≤ c * w + o ∧ c * w + o < p + k then v.testBit (k - 1 - (c * w + o - p)) else x.testBit (w - 1 - o) := by
  have e : (c + 1) * w = c * w + w := by ring
  rw [e] at hcov ⊢
  have hd : max p (c * w) / w = c := by
    refine Nat.div_eq_of_lt_le (by omega) ?_
    rw [e]; omega
  have hm : c * w + max p (c * w) % w = max p (c * w) := by
    have := Nat.div_add_mod' (max p (c * w)) w
    rwa [hd] at this
  rw [mergeBits_testBit w p k v x _ _ o ho (by omega), hd]
  by_cases h : p ≤ c * w + o ∧ c * w + o < p + k
  · rw [if_pos h, if_pos (by omega)]
  · rw [if_neg h, if_neg (by omega)]

theorem scatterCells_ok {s t : State} {p k v c cnt : Nat} (hwf : s.mem.wf)
    (hcov : ∀ i, i < cnt → p < (c + i + 1) * s.cfg.w ∧ (c + i) * s.cfg.w < p + k)
    (h : scatterCells p k v s c cnt = .ok t) : Scattered s t p k v c cnt := by
  induction cnt generalizing s c with
  | zero =>
    simp only [scatterCells, Except.ok.injEq] at h
    subst h
    exact ⟨rfl, hwf, by simp, fun q h1 h2 => by omega, fun a _ => rfl, fun x _ => rfl, id⟩
  | succ cnt ih =>
    have hw := s.w_pos
    have hc0 := hcov 0 (Nat.succ_pos _)
    simp only [Nat.add_zero] at hc0
    have e1 : (c + 1) * s.cfg.w = c * s.cfg.w + s.cfg.w := by ring
    simp only [scatterCells] at h
    split at h
    · cases h
    · rename_i old s1 h1
      -- what the load of the old contents left
      have hs1 : ∃ tr, s1 = { s with trace := s.trace ++ tr } ∧ old < 2 ^ s.cfg.w ∧
          (tr = if p ≤ c * s.cfg.w ∧ (c + 1) * s.cfg.w ≤ p + k then [] else [.read (s.base.toNat + c)]) ∧
          (¬ (p ≤ c * s.cfg.w ∧ (c + 1) * s.cfg.w ≤ p + k) → old = s.mem.readCell s.cfg (s.base.toNat + c)) := by
        by_cases hw1 : max p (c * s.cfg.w) = c * s.cfg.w ∧ min (p + k) ((c + 1) * s.cfg.w) = (c + 1) * s.cfg.w
        · rw [if_pos hw1] at h1
          simp only [Except.ok.injEq, Prod.mk.injEq] at h1
          obtain ⟨rfl, rfl⟩ := h1
          have hfull : p ≤ c * s.cfg.w ∧ (c + 1) * s.cfg.w ≤ p + k := by omega
          exact ⟨[], by simp, by positivity, by simp [hfull], fun hn => absurd hfull hn⟩
        · rw [if_neg hw1] at h1
          obtain ⟨-, rfl, rfl⟩ := memRead_ok h1
          have hpart : ¬ (p ≤ c * s.cfg.w ∧ (c + 1) * s.cfg.w ≤ p + k) := by omega
          exact ⟨_, rfl, Memory.readCell_lt _ _ _, by rw [if_neg hpart], fun _ => rfl⟩
      obtain ⟨tr, rfl, hold, htr, hold'⟩ := hs1
      split at h
      · cases h
      · rename_i s2 h2
        obtain ⟨hsp, rfl⟩ := memWrite_ok h2
        simp only at hsp h
        set new := mergeBits s.cfg.w p k v old (max p (c * s.cfg.w))
          (min (p + k) ((c + 1) * s.cfg.w) - max p (c * s.cfg.w)) with hnew
        have hnewlt : new < 2 ^ s.cfg.w := mergeBits_lt _ _ _ _ _ _ _ hw hold
        have hr := ih (s := { s with
            mem := s.mem.writeCell s.cfg (s.base.toNat + c) new
            trace := s.trace ++ tr ++ [.write (s.base.toNat + c) new] }) (c := c + 1)
          (Memory.wf_writeCell _ _ hwf _ _)
          (fun i hi => by have := hcov (i + 1) (by omega); rw [show c + 1 + i = c + (i + 1) by omega]; exact this) h
        obtain ⟨hrest, hwf', hacc, hbits, hcells, hbytes, hin⟩ := hr
        simp only at hrest hacc hbits hcells hbytes hin
        have hcell : t.mem.readCell s.cfg (s.base.toNat + c) = new := by
          rw [hcells _ (by omega), Memory.readCell_writeCell_same _ _ hwf, Nat.mod_eq_of_lt hnewlt]
        have hcfg : t.cfg = s.cfg := by rw [hrest]
        have hbase : t.base = s.base := by rw [hrest]
        refine ⟨?_, hwf', ?_, ?_, ?_, ?_, ?_⟩
        · rw [hrest]
        · rw [hacc, List.range_succ_eq_map, List.flatMap_cons, List.flatMap_map]
          have e2 : ∀ i, c + 1 + i = c + (i + 1) := by intro i; omega
          simp only [e2, Nat.add_zero, Nat.succ_eq_add_one]
          rw [List.append_assoc, List.append_assoc]
          congr 1
          rw [← List.append_assoc]
          congr 1
          unfold cellAccesses
          rw [hcell, htr]
          split <;> rfl
        · intro q hq1 hq2
          by_cases hq : q / s.cfg.w = c
          · have ho : q % s.cfg.w < s.cfg.w := Nat.mod_lt _ hw
            have hqq : c * s.cfg.w + q % s.cfg.w = q := by
              have := Nat.div_add_mod' q s.cfg.w
              rwa [hq] at this
            unfold State.streamBit
            rw [hcfg, hbase, hq, hcell, hnew, mergeCell_testBit _ _ _ _ _ _ _ ho hc0.1 hc0.2, hqq]
            by_cases hin2 : p ≤ q ∧ q < p + k
            · rw [if_pos hin2, if_pos hin2]
            · rw [if_neg hin2, if_neg hin2, hold' (by omega)]
          · rw [hbits q (by omega) (by omega)]
            by_cases hin2 : p ≤ q ∧ q < p + k
            · rw [if_pos hin2, if_pos hin2]
            · rw [if_neg hin2, if_neg hin2]
              unfold State.streamBit
              simp only
              rw [Memory.readCell_writeCell_other _ _ hwf _ (by omega)]
        · intro a ha
          rw [hcells a (by omega), Memory.readCell_writeCell_other _ _ hwf _ (by omega)]
        · intro x hx
          rw [hbytes x ?_, Memory.readByte_writeCell_other _ _ hwf]
          · intro j hj
            have := hx 0 (Nat.succ_pos _) j hj
            simpa using this
          · intro i hi j hj
            have := hx (i + 1) (by omega) j hj
            rwa [show c + (i + 1) = c + 1 + i by omega] at this
        · intro hsin
          exact hin (Memory.inSpace_writeCell s.cfg s.mem _ _ _ hsp hsin)

/-- The cells of a run are touched by it. -/
theorem cellSpan_covers (w p k : Nat) (hw : 0 < w) (i : Nat) (hi : i < cellSpan w p k) :
    p < (p / w + i + 1) * w ∧ (p / w + i) * w < p + k := by
  unfold cellSpan at hi
  split at hi
  · omega
  · rename_i hk
    have h1 : (p / w + 1) * w ≤ (p / w + i + 1) * w := Nat.mul_le_mul_right _ (by omega)
    have h2 : p < (p / w + 1) * w := by
      have e := Nat.div_add_mod' p w
      have hm := Nat.mod_lt p hw
      rw [Nat.add_mul, Nat.one_mul]
      omega
    have h0 : p / w ≤ (p + k - 1) / w := Nat.div_le_div_right (by omega)
    have h3 : p / w + i ≤ (p + k - 1) / w := by omega
    have h4 : (p / w + i) * w ≤ p + k - 1 := (Nat.le_div_iff_mul_le hw).mp h3
    omega

/-- `scatter` replaces the run's bits and records its accesses (R151, R152). -/
theorem scatter_ok {s t : State} {p k v : Nat} (hwf : s.mem.wf) (h : scatter s p k v = .ok t) :
    Scattered s t p k v (p / s.cfg.w) (cellSpan s.cfg.w p k) :=
  scatterCells_ok hwf (cellSpan_covers _ _ _ s.w_pos) h

theorem cellSpan_ne {w p k : Nat} (hk : k ≠ 0) : cellSpan w p k = (p + k - 1) / w - p / w + 1 := by
  simp [cellSpan, hk]

/-- Every stream bit after a scatter, in the run's cells or not (R151). -/
theorem scatter_streamBit {s t : State} {p k v : Nat} (hwf : s.mem.wf) (h : scatter s p k v = .ok t) (q : Nat) :
    t.streamBit q = if p ≤ q ∧ q < p + k then v.testBit (k - 1 - (q - p)) else s.streamBit q := by
  have hs := scatter_ok hwf h
  by_cases hc : p / s.cfg.w ≤ q / s.cfg.w ∧ q / s.cfg.w < p / s.cfg.w + cellSpan s.cfg.w p k
  · exact hs.bits q hc.1 hc.2
  · have hout : ¬ (p ≤ q ∧ q < p + k) := by
      rintro ⟨h1, h2⟩
      have a1 : p / s.cfg.w ≤ q / s.cfg.w := Nat.div_le_div_right h1
      have a2 : q / s.cfg.w ≤ (p + k - 1) / s.cfg.w := Nat.div_le_div_right (by omega)
      rw [cellSpan_ne (by omega)] at hc
      omega
    have e1 : t.cfg = s.cfg := by rw [hs.rest]
    have e2 : t.base = s.base := by rw [hs.rest]
    rw [if_neg hout]
    unfold State.streamBit
    rw [e1, e2, hs.cells _ (by omega)]

theorem scatterCells_total (s : State) (p k v c cnt : Nat) (h : s.base.toNat + c + cnt ≤ s.cfg.space) :
    ∃ t, scatterCells p k v s c cnt = .ok t := by
  induction cnt generalizing s c with
  | zero => exact ⟨s, rfl⟩
  | succ cnt ih =>
    have hlt : s.base.toNat + c < s.cfg.space := by omega
    simp only [scatterCells]
    split
    · rename_i e h1
      split at h1
      · cases h1
      · simp [memRead, hlt] at h1
    · rename_i old s1 h1
      have hs1 : s1.base = s.base ∧ s1.cfg = s.cfg := by
        split at h1
        · simp only [Except.ok.injEq, Prod.mk.injEq] at h1
          rw [← h1.2]; exact ⟨rfl, rfl⟩
        · obtain ⟨-, -, rfl⟩ := memRead_ok h1
          exact ⟨rfl, rfl⟩
      simp only [memWrite, hs1.2, hlt, if_true]
      exact ih _ _ (by simp only [hs1.1]; omega)

/-- `scatter` answers whenever the run's cells lie in the address space. -/
theorem scatter_total (s : State) (p k v : Nat) (h : k ≠ 0 → s.base.toNat + (p + k - 1) / s.cfg.w < s.cfg.space) :
    ∃ t, scatter s p k v = .ok t := by
  by_cases hk : k = 0
  · subst hk
    exact ⟨s, by simp [scatter, cellSpan, scatterCells]⟩
  · exact scatterCells_total s p k v _ _ (cellSpan_le _ _ _ _ _ h fun h0 => absurd h0 hk)

end Sys2Proof.Machine
end

