-- ==== Sys2Proof/Laws/Cursor.lean ====
section
/-! SUPPORT. The arithmetic of the cursor (10_state.md R26 to R28, 40_positioning.md R110): what a move leaves in `ABS` and
`REM`, the ranges the invariant gives, and which cells lie in the buffer. -/

namespace Sys2Proof.Machine

theorem State.remaining_ge (s : State) : -2147483648 ≤ s.remaining := by
  have := BitVec.le_toInt s.rem; simpa [State.remaining] using this

theorem State.remaining_lt (s : State) : s.remaining < 2147483648 := by
  have := BitVec.toInt_lt (x := s.rem); simpa [State.remaining] using this

theorem abs_setPos (s : State) (a : Nat) (h : a < 4294967296) : (setPos a s).abs = a := by
  have hw := s.w_pos
  have hw32 : s.cfg.w ≤ 32 := CellWidth_bits_le _
  have h1 : a / s.cfg.w < 2 ^ 32 := lt_of_le_of_lt (Nat.div_le_self _ _) h
  have h2 : a % s.cfg.w < 2 ^ 5 := lt_of_lt_of_le (Nat.mod_lt _ hw) hw32
  simp only [State.abs, setPos_cellIdx, setPos_bitOff, setPos_cfg, BitVec.toNat_ofNat]
  rw [Nat.mod_eq_of_lt h1, Nat.mod_eq_of_lt h2, Nat.div_add_mod']

theorem bitOff_setPos_lt (s : State) (a : Nat) : (setPos a s).bitOff.toNat < s.cfg.w := by
  simp only [setPos_bitOff, BitVec.toNat_ofNat]
  exact lt_of_le_of_lt (Nat.mod_le _ _) (Nat.mod_lt _ s.w_pos)

theorem remaining_setRemaining (s : State) (r : Int) (h : -2147483648 ≤ r) (h' : r < 2147483648) :
    (setRemaining r s).remaining = r := by
  simp only [State.remaining, setRemaining_rem, BitVec.toInt_ofInt]
  exact Int.bmod_eq_of_le (by norm_num; omega) (by norm_num; omega)

theorem State.Inv.abs_lt {s : State} (h : s.Inv) (hv : s.valid = true) : s.abs < 4294967296 := by
  have h1 := h.capHigh hv
  have h2 := s.remaining_ge
  unfold State.cap Config.capMax at h1
  omega

/-- Only the position is read off `CELL_IDX` and `BIT_OFF`. -/
theorem State.abs_congr {s t : State} (h1 : t.cfg = s.cfg) (h2 : t.cellIdx = s.cellIdx) (h3 : t.bitOff = s.bitOff) :
    t.abs = s.abs := by
  simp only [State.abs, h1, h2, h3]

/-- A move that stays at or above position 0 and does not run below the floor of `REM` is exact: nothing
wraps (R110). -/
theorem State.Inv.move {s : State} (h : s.Inv) (hv : s.valid = true) {d : Int} (h0 : 0 ≤ s.abs + d)
    (hr : Config.remMin ≤ s.remaining - d) :
    ((moveBy d s).abs : Int) = s.abs + d ∧ (moveBy d s).remaining = s.remaining - d ∧
      (moveBy d s).cap = s.cap := by
  have h1 := h.capHigh hv
  unfold State.cap Config.capMax at h1
  unfold Config.remMin at hr
  have ha : (moveBy d s).abs = (s.abs + d).toNat := by
    have e : (moveBy d s).abs = (setPos (s.abs + d).toNat s).abs := rfl
    rw [e, abs_setPos _ _ (by omega)]
  have hrem : (moveBy d s).remaining = s.remaining - d := remaining_setRemaining _ _ (by omega) (by omega)
  refine ⟨by rw [ha]; omega, hrem, ?_⟩
  unfold State.cap
  rw [hrem, ha]
  omega

/-- The invariant reads nothing but parameters, cursor and memory. -/
theorem State.Inv.congr {s t : State} (h : s.Inv) (hcfg : t.cfg = s.cfg) (hb : t.base = s.base)
    (hc : t.cellIdx = s.cellIdx) (ho : t.bitOff = s.bitOff) (hr : t.rem = s.rem) (hv : t.valid = s.valid)
    (hm : t.mem = s.mem) (hbf : t.bufferFreed = s.bufferFreed) : t.Inv := by
  have ha : t.abs = s.abs := State.abs_congr hcfg hc ho
  have hcap : t.cap = s.cap := by simp only [State.cap, State.remaining, ha, hr]
  constructor
  · rw [hcfg]; exact h.params
  · rw [hcfg, hb]; exact h.baseFits
  · rw [hcfg, ho]; exact h.offFits
  · rw [hm]; exact h.memWf
  · unfold State.memInSpace; rw [hm, hcfg]; exact h.memIn
  · rw [hv, hcap]; exact h.capLow
  · rw [hv, hcap]; exact h.capHigh
  · unfold State.bufferFits; rw [hv, hcap, hb, hcfg]; exact h.fits
  · rw [hv, hb, hc, ho, hr, hbf]; exact h.idle

/-- A store to memory that keeps it canonical and in the address space keeps the invariant. -/
theorem State.Inv.withMem {s t : State} (h : s.Inv) (ht : t = { s with mem := t.mem, trace := t.trace })
    (hwf : t.mem.wf) (hin : s.memInSpace → t.memInSpace) : t.Inv := by
  have hm := hin h.memIn
  rw [ht] at hm ⊢
  exact { h with memWf := hwf, memIn := hm }

theorem State.Inv.moved {s : State} (h : s.Inv) (hv : s.valid = true) {d : Int} (h0 : 0 ≤ s.abs + d)
    (hr : Config.remMin ≤ s.remaining - d) : (moveBy d s).Inv := by
  obtain ⟨-, -, hcap⟩ := h.move hv h0 hr
  constructor
  · exact h.params
  · exact h.baseFits
  · exact bitOff_setPos_lt s _
  · exact h.memWf
  · exact h.memIn
  · intro hv'; rw [hcap]; exact h.capLow hv
  · intro hv'; rw [hcap]; exact h.capHigh hv
  · intro hv'; unfold State.bufferFits; rw [hcap]; exact h.fits hv
  · intro hv'; rw [show (moveBy d s).valid = s.valid from rfl, hv] at hv'; cases hv'

/-- The cell of a position below the capacity is a cell of the buffer (20_memory.md R51). -/
theorem State.Inv.div_lt_cells {s : State} {q : Nat} (hq : (q : Int) < s.cap) :
    q / s.cfg.w < cellsFor s.cfg s.cap.toNat := by
  have hw := s.w_pos
  rw [Nat.div_lt_iff_lt_mul hw]
  have h1 : s.cap.toNat ≤ cellsFor s.cfg s.cap.toNat * s.cfg.w := by
    unfold cellsFor
    have h := Nat.div_add_mod' (s.cap.toNat + (s.cfg.w - 1)) s.cfg.w
    have h2 := Nat.mod_lt (s.cap.toNat + (s.cfg.w - 1)) hw
    omega
  omega

/-- And lies in the address space (R50). -/
theorem State.Inv.cell_lt_space {s : State} (h : s.Inv) (hv : s.valid = true) {q : Nat} (hq : (q : Int) < s.cap) :
    s.base.toNat + q / s.cfg.w < s.cfg.space := by
  have h1 := State.Inv.div_lt_cells hq
  have h2 := h.fits hv
  unfold State.bufferFits at h2
  omega

/-- The real bits of a read end at or below the capacity (20_memory.md R56). -/
theorem State.realBits_le_cap (s : State) (n : Nat) (h : s.realBits n ≠ 0) :
    ((s.abs + s.realBits n - 1 : Nat) : Int) < s.cap := by
  unfold State.cap State.realBits at *
  omega

/-- Reads of the cells of `k` bits below the capacity stay in the buffer. -/
theorem readsOf_in_buffer {s : State} {p k : Nat} (h : k ≠ 0 → ((p + k - 1 : Nat) : Int) < s.cap) :
    accessesIn s (readsOf s (p / s.cfg.w) (cellSpan s.cfg.w p k)) := by
  intro x hx
  simp only [readsOf, List.mem_map, List.mem_range] at hx
  obtain ⟨i, hi, rfl⟩ := hx
  refine ⟨p / s.cfg.w + i, ?_, rfl⟩
  unfold cellSpan at hi
  split at hi
  · omega
  · rename_i hk
    have h1 := State.Inv.div_lt_cells (h hk)
    have h2 : p / s.cfg.w ≤ (p + k - 1) / s.cfg.w := Nat.div_le_div_right (by omega)
    omega

end Sys2Proof.Machine
end

