-- ==== Sys2Proof/Laws/Commands.lean ====
section
/-! SUPPORT. What a command can do, said once: `exec_next` lists every way `exec i s` can answer a next state, and
`exec_total` says that it answers one in every state that meets the invariant. Later proofs cite the two
and never unfold a meaning. -/

namespace Sys2Proof.Machine

/-- The distance a positioning command asks for (R102, R104, R105). -/
def moveOf (s : State) : Instr → Option Int
  | .skip d => some (sint64 d)
  | .seek a => some ((a.toNat : Int) - s.abs)
  | .align => some s.alignBits
  | _ => none

/-- The value a query returns (R107 to R109). -/
def queryOf (s : State) : Instr → Option DWord
  | .getAlign => some (BitVec.ofNat 64 s.alignBits)
  | .getPos => some (BitVec.ofNat 64 s.abs)
  | .getRem => some (s.rem.signExtend 64)
  | _ => none

/-- A read or peek as its policy, mode, width bound and count (30_encoding.md R73, R123). -/
def readOf : Instr → Option (ReadKind × ReadMode × Nat × Nat)
  | .readW n => some (.tolerant, .consume, 32, n)
  | .readN n => some (.tolerant, .consume, 16, n)
  | .freadW n => some (.fast, .consume, 32, n)
  | .freadN n => some (.fast, .consume, 16, n)
  | .sreadW n => some (.safe, .consume, 32, n)
  | .sreadN n => some (.safe, .consume, 16, n)
  | .peekW n => some (.tolerant, .peek, 32, n)
  | .peekN n => some (.tolerant, .peek, 16, n)
  | .fpeekW n => some (.fast, .peek, 32, n)
  | .fpeekN n => some (.fast, .peek, 16, n)
  | .speekW n => some (.safe, .peek, 32, n)
  | .speekN n => some (.safe, .peek, 16, n)
  | _ => none

/-- `s` after the loads of a read of `n` bits: its trace holds them, nothing else changed (R125). -/
def State.loaded (s : State) (n : Nat) : State :=
  { s with trace := s.trace ++ readsOf s (s.abs / s.cfg.w) (cellSpan s.cfg.w s.abs (s.realBits n)) }

theorem State.realBits_eq (s : State) (n : Nat) : s.realBits n = min n (max 0 s.remaining).toNat := by
  unfold State.realBits; omega

theorem State.realBits_of_le {s : State} {n : Nat} (h : (n : Int) ≤ s.remaining) : s.realBits n = n := by
  unfold State.realBits; omega

theorem State.loads_eq (s : State) (k : Nat) :
    s.loads k = readsOf s (s.abs / s.cfg.w) (cellSpan s.cfg.w s.abs k) := by
  unfold State.loads cellSpan
  split <;> simp [readsOf]

/-- The port's trace after the loads of a read, in the claims' terms. -/
theorem State.loaded_trace (s : State) (n : Nat) : (s.loaded n).trace = s.trace ++ s.loads (s.realBits n) := by
  rw [State.loads_eq]; rfl

/-- The accesses of a scatter at the cursor, in the claims' terms. -/
theorem Scattered.trace_eq {s t : State} {k v : Nat}
    (h : Scattered s t s.abs k v (s.abs / s.cfg.w) (cellSpan s.cfg.w s.abs k)) :
    t.trace = s.trace ++ s.stores t.mem k := by
  rw [h.accesses]
  unfold State.stores cellSpan
  split
  · simp
  · rfl

/-- What a command that ends in `done(OK)` does, by kind of command. -/
inductive Completed (s : State) : Instr → State → Prop
  | init (base : DWord) (cap : Word) (hb : base.toNat < s.cfg.space) (hc : cap.toNat ≤ Config.capMax)
      (hf : base.toNat + cellsFor s.cfg cap.toNat ≤ s.cfg.space) :
      Completed s (.init base cap) (doneOk (createCursor base cap s))
  | release : Completed s .release (doneOk (destroyCursor s))
  | move {i : Instr} {d : Int} (hm : moveOf s i = some d) (hv : s.valid = true) (h0 : 0 ≤ s.abs + d)
      (hr : 0 ≤ d → d ≤ s.remaining) : Completed s i (doneOk (moveBy d s))
  | query {i : Instr} {v : DWord} (hq : queryOf s i = some v) (hv : s.valid = true) :
      Completed s i (doneOk (setResult v s))
  | read {i : Instr} {kind : ReadKind} {mode : ReadMode} {bound n : Nat}
      (hi : readOf i = some (kind, mode, bound, n)) (hv : s.valid = true) (hn : n ≤ bound)
      (ht : kind = .tolerant → ¬ (s.remaining < n ∧ s.remaining - n < Config.remMin))
      (hs : kind ≠ .tolerant → (n : Int) ≤ s.remaining) :
      Completed s i (commitRead mode n (s.tolerantValue n) (s.loaded n))
  | write {value : Word} {n : Nat} {s1 : State} (hv : s.valid = true) (hn : n ≤ 32) (hval : value.toNat < 2 ^ n)
      (hr : (n : Int) ≤ s.remaining) (hs : scatter s s.abs n value.toNat = .ok s1) :
      Completed s (.write value n) (doneOk (moveBy n s1))

/-- Every way a command can end in a next state (60_exceptions.md R160). -/
inductive Ended (s : State) (i : Instr) : State → Prop
  | faulted (h : s.fault = true) : Ended s i (refuseFaulted s)
  | contract (h : s.fault = false) (r : ContractReason) : Ended s i (raiseFault (.contract r) s)
  | outOfBounds (h : s.fault = false) (hv : s.valid = true) : Ended s i (failOutOfBounds s)
  | completed {t : State} (h : s.fault = false) (ht : Completed s i t) : Ended s i t

/-- A read or peek is `readCommand` with its policy, mode and bound. -/
theorem exec_read {i : Instr} {s : State} {kind : ReadKind} {mode : ReadMode} {bound n : Nat}
    (hi : readOf i = some (kind, mode, bound, n)) : exec i s = readCommand kind mode bound n s := by
  cases i <;> simp only [readOf, Option.some.injEq, Prod.mk.injEq, reduceCtorEq] at hi <;>
    (obtain ⟨rfl, rfl, rfl, rfl⟩ := hi; rfl)

/-- The prologue answers next only by its own checks or by the body (R165). -/
theorem withCursor_next {s t : State} {body : Answer} (h : withCursor s body = .next t) :
    (s.fault = true ∧ t = refuseFaulted s) ∨
    (s.fault = false ∧ s.valid = false ∧ t = raiseFault (.contract .noCursor) s) ∨
    (s.fault = false ∧ s.valid = true ∧ body = .next t) := by
  unfold withCursor withPrologue at h
  split at h
  · rename_i hf
    simp only [Host.Outcome.next.injEq] at h
    exact .inl ⟨hf, h.symm⟩
  · rename_i hf
    have hf : s.fault = false := by simpa using hf
    split at h
    · rename_i hv; exact .inr (.inr ⟨hf, hv, h⟩)
    · rename_i hv
      simp only [violate, Host.Outcome.next.injEq] at h
      exact .inr (.inl ⟨hf, by simpa using hv, h.symm⟩)

theorem skipBy_next {s t : State} {d : Int} (h : skipBy d s = .next t) :
    t = failOutOfBounds s ∨ (t = doneOk (moveBy d s) ∧ 0 ≤ s.abs + d ∧ (0 ≤ d → d ≤ s.remaining)) := by
  unfold skipBy at h
  split at h
  · exact .inl (by simpa using h.symm)
  · split at h
    · exact .inl (by simpa using h.symm)
    · simp only [Host.Outcome.next.injEq] at h
      exact .inr ⟨h.symm, by omega, by omega⟩

/-- On bits that are all real, a gather is the tolerant value (R124). -/
theorem gather_real {s s1 : State} {n v : Nat} (hr : (n : Int) ≤ s.remaining) (h : gather s s.abs n = .ok (v, s1)) :
    v = s.tolerantValue n ∧ s1 = s.loaded n := by
  have e : s.realBits n = n := by unfold State.realBits; omega
  obtain ⟨rfl, rfl⟩ := gather_ok h
  simp [State.tolerantValue, State.loaded, e]

theorem onPort_next {α : Type} {x : Except Fault α} {f : α → Answer} {t : State} (h : onPort x f = .next t) :
    ∃ v, x = .ok v ∧ f v = .next t := by
  cases x with
  | error e => simp [onPort] at h
  | ok v => exact ⟨v, rfl, h⟩

theorem readCommand_next {s t : State} {i : Instr} {kind : ReadKind} {mode : ReadMode} {bound n : Nat}
    (hi : readOf i = some (kind, mode, bound, n)) (h : readCommand kind mode bound n s = .next t) : Ended s i t := by
  unfold readCommand at h
  rcases withCursor_next h with ⟨hf, rfl⟩ | ⟨hf, -, rfl⟩ | ⟨hf, hv, h⟩
  · exact .faulted hf
  · exact .contract hf _
  · split at h
    · simp only [violate, Host.Outcome.next.injEq] at h
      subst h; exact .contract hf _
    · rename_i hb
      have hn : n ≤ bound := by omega
      cases kind with
      | tolerant =>
        simp only at h
        split at h
        · simp only [violate, Host.Outcome.next.injEq] at h
          subst h; exact .contract hf _
        · rename_i hu
          obtain ⟨⟨v, s1⟩, h1, h2⟩ := onPort_next h
          obtain ⟨rfl, rfl⟩ := tolval_ok h1
          simp only [Host.Outcome.next.injEq] at h2
          subst h2
          exact .completed hf (.read hi hv hn (fun _ => hu) (fun hc => absurd rfl hc))
      | fast =>
        simp only at h
        split at h
        · simp only [violate, Host.Outcome.next.injEq] at h
          subst h; exact .contract hf _
        · rename_i hu
          obtain ⟨⟨v, s1⟩, h1, h2⟩ := onPort_next h
          obtain ⟨rfl, rfl⟩ := gather_real (by omega) h1
          simp only [Host.Outcome.next.injEq] at h2
          subst h2
          exact .completed hf (.read hi hv hn (fun hc => by cases hc) (fun _ => by omega))
      | safe =>
        simp only at h
        split at h
        · simp only [Host.Outcome.next.injEq] at h
          subst h; exact .outOfBounds hf hv
        · rename_i hu
          obtain ⟨⟨v, s1⟩, h1, h2⟩ := onPort_next h
          obtain ⟨rfl, rfl⟩ := gather_real (by omega) h1
          simp only [Host.Outcome.next.injEq] at h2
          subst h2
          exact .completed hf (.read hi hv hn (fun hc => by cases hc) (fun _ => by omega))

theorem skip_next {s t : State} {i : Instr} {d : Int} (hm : moveOf s i = some d)
    (h : withCursor s (skipBy d s) = .next t) : Ended s i t := by
  rcases withCursor_next h with ⟨hf, rfl⟩ | ⟨hf, -, rfl⟩ | ⟨hf, hv, h⟩
  · exact .faulted hf
  · exact .contract hf _
  · rcases skipBy_next h with rfl | ⟨rfl, h0, hr⟩
    · exact .outOfBounds hf hv
    · exact .completed hf (.move hm hv h0 hr)

theorem query_next {s t : State} {i : Instr} {v : DWord} (hq : queryOf s i = some v)
    (h : withCursor s (.next (doneOk (setResult v s))) = .next t) : Ended s i t := by
  rcases withCursor_next h with ⟨hf, rfl⟩ | ⟨hf, -, rfl⟩ | ⟨hf, hv, h⟩
  · exact .faulted hf
  · exact .contract hf _
  · simp only [Host.Outcome.next.injEq] at h
    subst h; exact .completed hf (.query hq hv)

/-- SEEK is a move by the difference of the positions (90_conflicts.md C10). -/
theorem seek_is_move (s : State) (a : Nat) :
    setRemaining (s.remaining - ((a : Int) - s.abs)) (setPos a s) = moveBy ((a : Int) - s.abs) s := by
  unfold moveBy
  have e : ((s.abs : Int) + ((a : Int) - s.abs)).toNat = a := by omega
  rw [e]

/-- Every way `exec` answers a next state. -/
theorem exec_next {i : Instr} {s t : State} (h : exec i s = .next t) : Ended s i t := by
  cases i with
  | init base cap =>
    simp only [exec, execInit, withPrologue] at h
    split at h
    · rename_i hf
      simp only [Host.Outcome.next.injEq] at h
      subst h; exact .faulted hf
    · rename_i hf
      have hf : s.fault = false := by simpa using hf
      split at h
      · simp only [violate, Host.Outcome.next.injEq] at h
        subst h; exact .contract hf _
      · split at h
        · simp only [violate, Host.Outcome.next.injEq] at h
          subst h; exact .contract hf _
        · split at h
          · simp only [violate, Host.Outcome.next.injEq] at h
            subst h; exact .contract hf _
          · simp only [Host.Outcome.next.injEq] at h
            subst h; exact .completed hf (.init _ _ (by omega) (by omega) (by omega))
  | release =>
    simp only [exec, execRelease, withPrologue] at h
    split at h
    · rename_i hf
      simp only [Host.Outcome.next.injEq] at h
      subst h; exact .faulted hf
    · rename_i hf
      simp only [Host.Outcome.next.injEq] at h
      subst h; exact .completed (by simpa using hf) .release
  | skip d => exact skip_next rfl h
  | seek a =>
    rcases withCursor_next h with ⟨hf, rfl⟩ | ⟨hf, -, rfl⟩ | ⟨hf, hv, h⟩
    · exact .faulted hf
    · exact .contract hf _
    · simp only at h
      split at h
      · simp only [Host.Outcome.next.injEq] at h
        subst h; exact .outOfBounds hf hv
      · simp only [Host.Outcome.next.injEq] at h
        subst h
        rw [seek_is_move]
        exact .completed hf (.move rfl hv (by omega) (by omega))
  | align => exact skip_next rfl h
  | getAlign => exact query_next rfl h
  | getPos => exact query_next rfl h
  | getRem => exact query_next rfl h
  | readW n => exact readCommand_next rfl h
  | readN n => exact readCommand_next rfl h
  | freadW n => exact readCommand_next rfl h
  | freadN n => exact readCommand_next rfl h
  | sreadW n => exact readCommand_next rfl h
  | sreadN n => exact readCommand_next rfl h
  | peekW n => exact readCommand_next rfl h
  | peekN n => exact readCommand_next rfl h
  | fpeekW n => exact readCommand_next rfl h
  | fpeekN n => exact readCommand_next rfl h
  | speekW n => exact readCommand_next rfl h
  | speekN n => exact readCommand_next rfl h
  | write value n =>
    rcases withCursor_next h with ⟨hf, rfl⟩ | ⟨hf, -, rfl⟩ | ⟨hf, hv, h⟩
    · exact .faulted hf
    · exact .contract hf _
    · split at h
      · simp only [violate, Host.Outcome.next.injEq] at h
        subst h; exact .contract hf _
      · rename_i hn
        split at h
        · simp only [violate, Host.Outcome.next.injEq] at h
          subst h; exact .contract hf _
        · split at h
          · simp only [Host.Outcome.next.injEq] at h
            subst h; exact .outOfBounds hf hv
          · obtain ⟨s1, h1, h2⟩ := onPort_next h
            simp only [Host.Outcome.next.injEq] at h2
            subst h2
            unfold Config.nmaxWrite at hn
            exact .completed hf (.write hv (by omega) (by omega) (by omega) h1)

/-! ### The prologue, once for all commands -/

theorem withCursor_passes {s : State} {body : Answer} (h : s.fault = false) (hv : s.valid = true) :
    withCursor s body = body := by
  simp [withCursor, withPrologue, h, hv]

theorem withCursor_faulted {s : State} {body : Answer} (h : s.fault = true) :
    withCursor s body = .next (refuseFaulted s) := by
  simp [withCursor, withPrologue, h]

theorem withCursor_noCursor {s : State} {body : Answer} (h : s.fault = false) (hv : s.valid = false) :
    withCursor s body = .next (raiseFault (.contract .noCursor) s) := by
  simp [withCursor, withPrologue, h, hv, violate]

/-- Check 1 of the prologue (R163). -/
theorem exec_of_fault (i : Instr) {s : State} (h : s.fault = true) : exec i s = .next (refuseFaulted s) := by
  cases i with
  | init base cap => simp [exec, execInit, withPrologue, h]
  | release => simp [exec, execRelease, withPrologue, h]
  | _ => exact withCursor_faulted h

/-- Check 3 of the prologue (R25). -/
theorem exec_of_noCursor {i : Instr} {s : State} (h : s.fault = false) (hn : needsCursor i = true)
    (hv : s.valid = false) : exec i s = .next (raiseFault (.contract .noCursor) s) := by
  cases i with
  | init base cap => cases hn
  | release => cases hn
  | _ => exact withCursor_noCursor h hv

/-- To show `Prologued i s P`, show `P` for a command that passes the prologue. -/
theorem prologued {i : Instr} {s : State} {P : Prop}
    (h : s.fault = false → (needsCursor i = true → s.valid = true) → P) : Prologued i s P :=
  ⟨fun hf => exec_of_fault i hf, fun hf hn hv => exec_of_noCursor hf hn hv, h⟩

/-- ALIGN's count from the absolute position (R106, 00_scope.md R9). -/
theorem State.alignBits_eq (s : State) : s.alignBits = (8 - s.abs % 8) % 8 := by
  have h : s.abs % 8 = s.bitOff.toNat % 8 := by
    unfold State.abs Config.w
    cases s.cfg.width <;> simp [CellWidth.bits] <;> omega
  rw [h]; rfl

/-- A move that goes nowhere writes the position back as it was. -/
theorem moveBy_zero {s : State} (h : s.bitOff.toNat < s.cfg.w) : moveBy 0 s = s := by
  have hw := s.w_pos
  have h1 : BitVec.ofNat 32 (s.abs / s.cfg.w) = s.cellIdx := by
    rw [State.abs, Nat.mul_comm, Nat.mul_add_div hw, Nat.div_eq_of_lt h]; simp
  have h2 : BitVec.ofNat 5 (s.abs % s.cfg.w) = s.bitOff := by
    rw [State.abs, Nat.mul_comm, Nat.mul_add_mod, Nat.mod_eq_of_lt h]; simp
  simp only [moveBy, setRemaining, setPos, add_zero, Int.toNat_natCast, sub_zero, State.remaining,
    BitVec.ofInt_toInt, h1, h2]

/-! ### What a completed command leaves alone -/

/-- The scatter of a WRITE, with what it leaves (R151, R152). -/
theorem scattered_of_write {s s1 : State} {n v : Nat} (hwf : s.mem.wf) (hs : scatter s s.abs n v = .ok s1) :
    Scattered s s1 s.abs n v (s.abs / s.cfg.w) (cellSpan s.cfg.w s.abs n) := scatter_ok hwf hs

/-- A scatter changes memory and the port's trace only, whatever memory holds. -/
theorem scatterCells_rest {s t : State} {p k v c cnt : Nat} (h : scatterCells p k v s c cnt = .ok t) :
    t = { s with mem := t.mem, trace := t.trace } := by
  induction cnt generalizing s c with
  | zero =>
    simp only [scatterCells, Except.ok.injEq] at h
    subst h; rfl
  | succ cnt ih =>
    simp only [scatterCells] at h
    split at h
    · cases h
    · rename_i old s1 h1
      have hs1 : s1 = { s with trace := s1.trace } := by
        split at h1
        · simp only [Except.ok.injEq, Prod.mk.injEq] at h1
          rw [← h1.2]
        · obtain ⟨-, -, rfl⟩ := memRead_ok h1
          rfl
      split at h
      · cases h
      · rename_i s2 h2
        obtain ⟨-, rfl⟩ := memWrite_ok h2
        rw [ih h, hs1]

theorem scatter_rest {s t : State} {p k v : Nat} (h : scatter s p k v = .ok t) :
    t = { s with mem := t.mem, trace := t.trace } := scatterCells_rest h

theorem Completed.last {s t : State} {i : Instr} (h : Completed s i t) : t.last = .ok := by
  cases h <;> rfl

theorem Completed.fault {s t : State} {i : Instr} (h : Completed s i t) : t.fault = s.fault := by
  cases h with
  | read =>
    rename_i kind mode bound n hi hv hn ht hs
    cases mode <;> rfl
  | write hv hn hval hr hs =>
    rw [doneOk_fault, moveBy_fault, scatter_rest hs]
  | _ => rfl

/-! ### Every command answers -/

theorem withCursor_total {s : State} {body : Answer} (h : s.valid = true → ∃ t, body = .next t) :
    ∃ t, withCursor s body = .next t := by
  unfold withCursor withPrologue
  split
  · exact ⟨_, rfl⟩
  · split
    · rename_i hv; exact h hv
    · exact ⟨_, rfl⟩

theorem skipBy_total (s : State) (d : Int) : ∃ t, skipBy d s = .next t := by
  unfold skipBy
  split
  · exact ⟨_, rfl⟩
  · split <;> exact ⟨_, rfl⟩

/-- A gather of real bits answers in a state that meets the invariant (20_memory.md R56). -/
theorem gather_real_total {s : State} (h : s.Inv) (hv : s.valid = true) {n : Nat} (hr : (n : Int) ≤ s.remaining) :
    gather s s.abs n = .ok (s.tolerantValue n, s.loaded n) := by
  have e : s.realBits n = n := by unfold State.realBits; omega
  rw [gather_total s _ _ fun hn => h.cell_lt_space hv (by unfold State.cap; omega)]
  simp [State.tolerantValue, State.loaded, e]

theorem tolval_inv_total {s : State} (h : s.Inv) (hv : s.valid = true) (n : Nat) :
    tolval s n = .ok (s.tolerantValue n, s.loaded n) :=
  tolval_total s n fun hm => h.cell_lt_space hv (s.realBits_le_cap n hm)

theorem readCommand_total {s : State} (h : s.Inv) (kind : ReadKind) (mode : ReadMode) (bound n : Nat) :
    ∃ t, readCommand kind mode bound n s = .next t := by
  refine withCursor_total fun hv => ?_
  split
  · exact ⟨_, rfl⟩
  · cases kind with
    | tolerant =>
      simp only
      split
      · exact ⟨_, rfl⟩
      · rw [tolval_inv_total h hv]; exact ⟨_, rfl⟩
    | fast =>
      simp only
      split
      · exact ⟨_, rfl⟩
      · rw [gather_real_total h hv (by omega)]; exact ⟨_, rfl⟩
    | safe =>
      simp only
      split
      · exact ⟨_, rfl⟩
      · rw [gather_real_total h hv (by omega)]; exact ⟨_, rfl⟩

/-- Every command answers a next state in every state that meets the invariant. -/
theorem exec_total (i : Instr) {s : State} (h : s.Inv) : ∃ t, exec i s = .next t := by
  cases i with
  | init base cap =>
    simp only [exec, execInit, withPrologue]
    split
    · exact ⟨_, rfl⟩
    · split
      · exact ⟨_, rfl⟩
      · split
        · exact ⟨_, rfl⟩
        · split <;> exact ⟨_, rfl⟩
  | release =>
    simp only [exec, execRelease, withPrologue]
    split <;> exact ⟨_, rfl⟩
  | skip d => exact withCursor_total fun _ => skipBy_total s _
  | seek a =>
    refine withCursor_total fun _ => ?_
    simp only
    split <;> exact ⟨_, rfl⟩
  | align => exact withCursor_total fun _ => skipBy_total s _
  | getAlign => exact withCursor_total fun _ => ⟨_, rfl⟩
  | getPos => exact withCursor_total fun _ => ⟨_, rfl⟩
  | getRem => exact withCursor_total fun _ => ⟨_, rfl⟩
  | readW n => rw [exec_read rfl]; exact readCommand_total h ..
  | readN n => rw [exec_read rfl]; exact readCommand_total h ..
  | freadW n => rw [exec_read rfl]; exact readCommand_total h ..
  | freadN n => rw [exec_read rfl]; exact readCommand_total h ..
  | sreadW n => rw [exec_read rfl]; exact readCommand_total h ..
  | sreadN n => rw [exec_read rfl]; exact readCommand_total h ..
  | peekW n => rw [exec_read rfl]; exact readCommand_total h ..
  | peekN n => rw [exec_read rfl]; exact readCommand_total h ..
  | fpeekW n => rw [exec_read rfl]; exact readCommand_total h ..
  | fpeekN n => rw [exec_read rfl]; exact readCommand_total h ..
  | speekW n => rw [exec_read rfl]; exact readCommand_total h ..
  | speekN n => rw [exec_read rfl]; exact readCommand_total h ..
  | write value n =>
    refine withCursor_total fun hv => ?_
    split
    · exact ⟨_, rfl⟩
    · split
      · exact ⟨_, rfl⟩
      · split
        · exact ⟨_, rfl⟩
        · obtain ⟨t, ht⟩ := scatter_total s s.abs n value.toNat
            fun hn => h.cell_lt_space hv (by unfold State.cap; omega)
          rw [ht]; exact ⟨_, rfl⟩

/-! ### What each check of a read or peek answers, and what it commits -/

theorem readOf_needsCursor {i : Instr} {x : ReadKind × ReadMode × Nat × Nat} (h : readOf i = some x) :
    needsCursor i = true := by
  cases i with
  | init base cap => cases h
  | release => cases h
  | _ => rfl

theorem readOf_bound {i : Instr} {kind : ReadKind} {mode : ReadMode} {bound n : Nat}
    (h : readOf i = some (kind, mode, bound, n)) : bound ≤ 32 := by
  cases i <;> simp only [readOf, Option.some.injEq, Prod.mk.injEq, reduceCtorEq] at h <;> omega

/-- A read is no move and no query. -/
theorem moveOf_of_read {i : Instr} {x : ReadKind × ReadMode × Nat × Nat} (s : State) (h : readOf i = some x) :
    moveOf s i = none ∧ queryOf s i = none := by
  cases i with
  | skip d => cases h
  | seek a => cases h
  | align => cases h
  | getAlign => cases h
  | getPos => cases h
  | getRem => cases h
  | _ => exact ⟨rfl, rfl⟩

section
variable {s : State} {i : Instr} {kind : ReadKind} {mode : ReadMode} {bound n : Nat}

/-- N_TOO_LARGE (R123). -/
theorem read_tooLarge (hi : readOf i = some (kind, mode, bound, n)) (hf : s.fault = false) (hv : s.valid = true)
    (h : bound < n) : exec i s = .next (raiseFault (.contract .nTooLarge) s) := by
  rw [exec_read hi]
  unfold readCommand
  rw [withCursor_passes hf hv, if_pos h]
  rfl

/-- REM_UNDERFLOW (R126). -/
theorem read_underflow (hi : readOf i = some (.tolerant, mode, bound, n)) (hf : s.fault = false)
    (hv : s.valid = true) (hn : n ≤ bound) (h : s.remaining < n ∧ s.remaining - n < Config.remMin) :
    exec i s = .next (raiseFault (.contract .remUnderflow) s) := by
  rw [exec_read hi]
  unfold readCommand
  rw [withCursor_passes hf hv, if_neg (show ¬ bound < n by omega)]
  simp only
  rw [if_pos h]
  rfl

/-- FAST_PRECONDITION (R129). -/
theorem read_fastPrecondition (hi : readOf i = some (.fast, mode, bound, n)) (hf : s.fault = false)
    (hv : s.valid = true) (hn : n ≤ bound) (h : s.remaining < n) :
    exec i s = .next (raiseFault (.contract .fastPrecondition) s) := by
  rw [exec_read hi]
  unfold readCommand
  rw [withCursor_passes hf hv, if_neg (show ¬ bound < n by omega)]
  simp only
  rw [if_pos h]
  rfl

/-- OutOfBounds of a safe read (R131). -/
theorem read_safeFails (hi : readOf i = some (.safe, mode, bound, n)) (hf : s.fault = false)
    (hv : s.valid = true) (hn : n ≤ bound) (h : s.remaining < n) : exec i s = .next (failOutOfBounds s) := by
  rw [exec_read hi]
  unfold readCommand
  rw [withCursor_passes hf hv, if_neg (show ¬ bound < n by omega)]
  simp only
  rw [if_pos h]

/-- A read or peek whose checks pass commits the tolerant value. -/
theorem read_answers (hI : s.Inv) (hi : readOf i = some (kind, mode, bound, n)) (hf : s.fault = false)
    (hv : s.valid = true) (hn : n ≤ bound)
    (ht : kind = .tolerant → ¬ (s.remaining < n ∧ s.remaining - n < Config.remMin))
    (hs : kind ≠ .tolerant → (n : Int) ≤ s.remaining) :
    exec i s = .next (commitRead mode n (s.tolerantValue n) (s.loaded n)) := by
  rw [exec_read hi]
  unfold readCommand
  rw [withCursor_passes hf hv, if_neg (show ¬ bound < n by omega)]
  cases kind with
  | tolerant =>
    simp only
    rw [if_neg (ht rfl), tolval_inv_total hI hv]
    rfl
  | fast =>
    have h1 := hs (by simp)
    simp only
    rw [if_neg (show ¬ s.remaining < n by omega), gather_real_total hI hv h1]
    rfl
  | safe =>
    have h1 := hs (by simp)
    simp only
    rw [if_neg (show ¬ s.remaining < n by omega), gather_real_total hI hv h1]
    rfl

/-- What a consuming read commits (R122): exact, nothing else changed. -/
theorem commitRead_consume (hI : s.Inv) (hv : s.valid = true) (n v : Nat) (hn : n ≤ 32) (hlt : v < 2 ^ n)
    (hr : Config.remMin ≤ s.remaining - n) :
    let t := commitRead .consume n v (s.loaded n)
    t.result.toNat = v ∧ t.abs = s.abs + n ∧ t.bitOff.toNat < s.cfg.w ∧ t.remaining = s.remaining - n ∧
      t = { s with
        cellIdx := t.cellIdx, bitOff := t.bitOff, rem := t.rem, result := t.result, last := .ok,
        trace := t.trace } := by
  have hIl : (s.loaded n).Inv := hI.congr rfl rfl rfl rfl rfl rfl rfl rfl
  have hm := hIl.move hv (d := n) (by omega) hr
  have h32 : 2 ^ n ≤ 2 ^ 32 := Nat.pow_le_pow_right (by norm_num) hn
  refine ⟨?_, ?_, bitOff_setPos_lt _ _, hm.2.1, rfl⟩
  · simp only [commitRead, doneOk_result, setResult_result, BitVec.toNat_ofNat]
    exact Nat.mod_eq_of_lt (by omega)
  · have e : (commitRead .consume n v (s.loaded n)).abs = (moveBy n (s.loaded n)).abs := rfl
    have e2 : (s.loaded n).abs = s.abs := rfl
    rw [e]; omega

/-- What a peek commits (R121). -/
theorem commitRead_peek (n v : Nat) (hn : n ≤ 32) (hlt : v < 2 ^ n) :
    let t := commitRead .peek n v (s.loaded n)
    t.result.toNat = v ∧ t = { s with result := t.result, last := .ok, trace := t.trace } := by
  have h32 : 2 ^ n ≤ 2 ^ 32 := Nat.pow_le_pow_right (by norm_num) hn
  refine ⟨?_, rfl⟩
  simp only [commitRead, doneOk_result, setResult_result, BitVec.toNat_ofNat]
  exact Nat.mod_eq_of_lt (by omega)

/-- A WRITE whose checks pass scatters its run, then moves (R150). -/
theorem write_answers {s : State} {v : Word} {n : Nat} (hI : s.Inv) (hf : s.fault = false) (hv : s.valid = true)
    (hn : n ≤ 32) (hval : v.toNat < 2 ^ n) (hr : (n : Int) ≤ s.remaining) :
    ∃ s1, scatter s s.abs n v.toNat = .ok s1 ∧ exec (.write v n) s = .next (doneOk (moveBy n s1)) := by
  obtain ⟨s1, hs⟩ := scatter_total s s.abs n v.toNat fun hn => hI.cell_lt_space hv (by unfold State.cap; omega)
  refine ⟨s1, hs, ?_⟩
  show withCursor s _ = _
  rw [withCursor_passes hf hv, if_neg (by unfold Config.nmaxWrite; omega), if_neg (by omega),
    if_neg (by omega), hs]
  rfl

/-- A SEEK whose check passes is a move to its target (R104). -/
theorem seek_answers {s : State} {a : DWord} (hf : s.fault = false) (hv : s.valid = true)
    (h : 0 ≤ s.remaining - ((a.toNat : Int) - s.abs)) :
    exec (.seek a) s = .next (doneOk (moveBy ((a.toNat : Int) - s.abs) s)) := by
  show withCursor s _ = _
  rw [withCursor_passes hf hv]
  simp only [not_lt.mpr h, if_false]
  rw [seek_is_move]

end

end Sys2Proof.Machine
end

