-- ==== Sys2Proof/Laws/Decode.lean ====
section
/-! SUPPORT. The fields of a command word as plain arithmetic, packed and unpacked, and what a record that
decodes looks like. -/

namespace Sys2Proof

theorem Record.opc_eq (r : Record) : r.opc = r.cmd.toNat % 256 := by
  simp [Record.opc, BitVec.extractLsb'_toNat]

theorem Record.n_eq (r : Record) : r.n = r.cmd.toNat / 256 % 64 := by
  simp [Record.n, BitVec.extractLsb'_toNat, Nat.shiftRight_eq_div_pow]

theorem Record.rsv_eq (r : Record) : r.rsv = r.cmd.toNat / 16384 := by
  have := r.cmd.isLt
  simp [Record.rsv, BitVec.extractLsb'_toNat, Nat.shiftRight_eq_div_pow]
  omega

theorem packCmd_toNat (o n : Nat) (hn : n < 64) (ho : o < 256) : (packCmd o n).toNat = n * 256 + o := by
  simp [packCmd, BitVec.toNat_ofNat]; omega

/-- Unpacking a packed command word. -/
theorem packCmd_fields (o n : Nat) (a : DWord) (b : Word) (hn : n < 64) (ho : o < 256) :
    (Record.mk (packCmd o n) a b).opc = o ∧ (Record.mk (packCmd o n) a b).n = n ∧
      (Record.mk (packCmd o n) a b).rsv = 0 := by
  rw [Record.opc_eq, Record.n_eq, Record.rsv_eq]
  simp only [packCmd_toNat o n hn ho]
  omega

theorem Instr.opcode_lt (i : Instr) : i.opcode < 256 := by cases i <;> simp [Instr.opcode]

theorem Instr.count_lt {i : Instr} (hi : i.wellFormed = true) : i.count.getD 0 < 64 := by
  unfold Instr.wellFormed at hi
  split at hi <;> simp_all

/-- A record that decodes: its opcode is in the map, `RSV` is zero, and so is `N` where there is no count. -/
theorem decode_ok {r : Record} {i : Instr} (h : decode r = .ok i) :
    opcodeMap r.opc r.n r.arg0 r.arg1 = some i ∧ r.rsv = 0 ∧ (i.count = none → r.n = 0) := by
  unfold decode at h
  split at h
  · cases h
  · split at h
    · cases h
    · split at h
      · cases h
      · simp only [Except.ok.injEq] at h
        subst h
        rename_i h1 h2 h3
        exact ⟨h1, by simpa using h2, fun hc => by by_contra hn; exact h3 ⟨hc, hn⟩⟩

end Sys2Proof
end

