-- ==== Sys2Proof/Laws/HostPort.lean ====
section
/-! SUPPORT. What the helpers of the host's events do, said once: a record on a live buffer, the cells the host has
freed (70_reset_and_hazards.md R193), the racing stores before and after a command (20_memory.md R60), and the
stores of an abandoned command (70_reset_and_hazards.md R191). -/

namespace Sys2Proof.Machine

/-- A record that keeps the host's duty of R193 runs its command. -/
theorem runRecord_of_live {r : Record} {i : Instr} {s : State} (hd : decode r = .ok i) (h : s.bufferLiveFor i) :
    runRecord r s = exec i s := by
  have : ¬ (needsCursor i && s.valid && s.bufferFreed) = true := by
    simp only [Bool.and_eq_true]
    rintro ⟨⟨hi, hv⟩, hf⟩
    simp [h hi hv] at hf
  unfold runRecord
  rw [hd]
  exact if_neg this

/-! ### Freed cells -/

theorem Region.covers_iff (r : Region) (a : Nat) : r.covers a = true ↔ r.first ≤ a ∧ a < r.first + r.cells := by
  simp [Region.covers]

/-- Two regions overlap exactly when they share a cell. -/
theorem Region.overlaps_iff (r q : Region) :
    r.overlaps q = true ↔ ∃ j, j < q.cells ∧ r.covers (q.first + j) = true := by
  simp only [Region.overlaps, Region.covers_iff, decide_eq_true_eq]
  constructor
  · intro h
    exact ⟨max r.first q.first - q.first, by omega, by omega, by omega⟩
  · rintro ⟨j, h1, h2, h3⟩
    omega

/-- The pieces of `r` without `q` hold the cells of `r` that `q` does not. -/
theorem Region.without_covers (r q : Region) (a : Nat) :
    (r.without q).any (·.covers a) = true ↔ r.covers a = true ∧ ¬ q.covers a = true := by
  simp only [Region.without, List.any_filter, List.any_cons, List.any_nil, Bool.or_false, Bool.or_eq_true,
    Bool.and_eq_true, decide_eq_true_eq, Region.covers_iff]
  omega

/-- What is freed after an allocation. -/
theorem cellFreed_allocate (q : Region) (l : List Region) (a : Nat) :
    cellFreed (allocateRegion q l) a = true ↔ ¬ q.covers a = true ∧ cellFreed l a = true := by
  induction l with
  | nil => simp [cellFreed, allocateRegion]
  | cons r l ih =>
    simp only [cellFreed, allocateRegion, List.flatMap_cons, List.any_append, Bool.or_eq_true, List.any_cons,
      Region.without_covers] at ih ⊢
    rw [ih]
    tauto

/-- What is freed after a free. -/
theorem cellFreed_free (q : Region) (l : List Region) (a : Nat) :
    cellFreed (freeRegion q l) a = true ↔ q.covers a = true ∨ cellFreed l a = true := by
  have h := cellFreed_allocate q l a
  simp only [cellFreed, freeRegion, List.any_cons, Bool.or_eq_true] at h ⊢
  rw [h]
  tauto

/-- A region has a freed cell. -/
theorem regionFreed_iff (l : List Region) (q : Region) :
    regionFreed l q = true ↔ ∃ j, j < q.cells ∧ cellFreed l (q.first + j) = true := by
  simp only [regionFreed, cellFreed, List.any_eq_true, Region.overlaps_iff]
  constructor
  · rintro ⟨r, hr, j, hj, h⟩
    exact ⟨j, hj, r, hr, h⟩
  · rintro ⟨j, hj, r, hr, h⟩
    exact ⟨r, hr, j, hj, h⟩

/-! ### Stores of other agents and of an abandoned command -/

section Stores

variable (l : List CellStore) (d : Nat) (s : State) (a : Nat)

/-- The stores before a command touch memory alone. -/
theorem storesBefore_rest : storesBefore l d s = { s with mem := (storesBefore l d s).mem } := by
  induction l generalizing d s with
  | nil => rfl
  | cons st l ih =>
    simp only [storesBefore]
    split
    · exact ih (d + 1) (storeCellNow st s)
    · exact ih (d + 1) s

/-- The stores after a command touch memory alone. -/
theorem storesAfter_rest (tr : List Access) :
    storesAfter tr l d s = { s with mem := (storesAfter tr l d s).mem } := by
  induction l generalizing d s with
  | nil => rfl
  | cons st l ih =>
    simp only [storesAfter]
    repeat' split
    all_goals first
      | exact ih (d + 1) (storeCellNow st s)
      | exact ih (d + 1) s

variable {s} (hm : s.mem.wf)

include hm

/-- After a store to `st.cell` every cell is as before, or is that cell and holds the stored value. -/
theorem storeCellNow_cell (st : CellStore) :
    (a = st.cell ∧ (storeCellNow st s).mem.readCell s.cfg a = st.value.toNat % 2 ^ s.cfg.w) ∨
    (a ≠ st.cell ∧ (storeCellNow st s).mem.readCell s.cfg a = s.mem.readCell s.cfg a) := by
  by_cases h : a = st.cell
  · subst h
    exact .inl ⟨rfl, Memory.readCell_writeCell_same _ _ hm _ _⟩
  · exact .inr ⟨h, Memory.readCell_writeCell_other _ _ hm _ h⟩

/-- After the stores that fall before a command a cell holds a value one of them stored to it, or its old value; the
latter only if none of its stores falls before. -/
theorem storesBefore_cell :
    (∃ st ∈ l, st.cell = a ∧ (storesBefore l d s).mem.readCell s.cfg a = st.value.toNat % 2 ^ s.cfg.w) ∨
    ((storesBefore l d s).mem.readCell s.cfg a = s.mem.readCell s.cfg a ∧
      ∀ i (hi : i < l.length), l[i].cell = a → Config.raceOrder (d + i) ≠ .before) := by
  induction l generalizing d s with
  | nil => exact .inr ⟨rfl, fun i hi => absurd hi (by simp)⟩
  | cons st l ih =>
    -- the rest of the list, run from a state `z` in which `st` did not touch the cell
    have rest : ∀ z : State, z.mem.wf → z.cfg = s.cfg → z.mem.readCell s.cfg a = s.mem.readCell s.cfg a →
        (st.cell = a → Config.raceOrder d ≠ .before) →
        (∃ x ∈ st :: l, x.cell = a ∧
          (storesBefore l (d + 1) z).mem.readCell s.cfg a = x.value.toNat % 2 ^ s.cfg.w) ∨
        ((storesBefore l (d + 1) z).mem.readCell s.cfg a = s.mem.readCell s.cfg a ∧
          ∀ i (hi : i < (st :: l).length), (st :: l)[i].cell = a → Config.raceOrder (d + i) ≠ .before) := by
      intro z hz hc hr h0
      rcases hc ▸ ih (d + 1) hz with ⟨x, hx, h1, h2⟩ | ⟨e, hn⟩
      · exact .inl ⟨x, List.mem_cons_of_mem _ hx, h1, h2⟩
      · refine .inr ⟨e.trans hr, fun i hi hcell => ?_⟩
        cases i with
        | zero => exact h0 hcell
        | succ i =>
          rw [show d + (i + 1) = d + 1 + i by omega]
          exact hn i (by simpa using hi) (by simpa using hcell)
    simp only [storesBefore]
    cases ho : Config.raceOrder d with
    | before =>
      have hwf : (storeCellNow st s).mem.wf := Memory.wf_writeCell _ _ hm _ _
      rcases storeCellNow_cell a hm st with ⟨rfl, e⟩ | ⟨hne, e⟩
      · rcases ih (d + 1) hwf with ⟨x, hx, h1, h2⟩ | ⟨e', -⟩
        · exact .inl ⟨x, List.mem_cons_of_mem _ hx, h1, h2⟩
        · exact .inl ⟨st, List.mem_cons_self .., rfl, e'.trans e⟩
      · exact rest _ hwf rfl e fun h => absurd h.symm hne
    | between | after => exact rest s hm rfl rfl fun _ => by simp [ho]

/-- After the stores that fall later a cell holds a value one of them stored to it, or what it held; the latter only
if each of its stores fell before the command or the command itself wrote the cell. -/
theorem storesAfter_cell (tr : List Access) :
    (∃ st ∈ l, st.cell = a ∧ (storesAfter tr l d s).mem.readCell s.cfg a = st.value.toNat % 2 ^ s.cfg.w) ∨
    ((storesAfter tr l d s).mem.readCell s.cfg a = s.mem.readCell s.cfg a ∧
      ∀ i (hi : i < l.length), l[i].cell = a →
        Config.raceOrder (d + i) = .before ∨ ∃ v, Access.write a v ∈ tr) := by
  induction l generalizing d s with
  | nil => exact .inr ⟨rfl, fun i hi => absurd hi (by simp)⟩
  | cons st l ih =>
    have rest : ∀ z : State, z.mem.wf → z.cfg = s.cfg → z.mem.readCell s.cfg a = s.mem.readCell s.cfg a →
        (st.cell = a → Config.raceOrder d = .before ∨ ∃ v, Access.write a v ∈ tr) →
        (∃ x ∈ st :: l, x.cell = a ∧
          (storesAfter tr l (d + 1) z).mem.readCell s.cfg a = x.value.toNat % 2 ^ s.cfg.w) ∨
        ((storesAfter tr l (d + 1) z).mem.readCell s.cfg a = s.mem.readCell s.cfg a ∧
          ∀ i (hi : i < (st :: l).length), (st :: l)[i].cell = a →
            Config.raceOrder (d + i) = .before ∨ ∃ v, Access.write a v ∈ tr) := by
      intro z hz hc hr h0
      rcases hc ▸ ih (d + 1) hz with ⟨x, hx, h1, h2⟩ | ⟨e, hn⟩
      · exact .inl ⟨x, List.mem_cons_of_mem _ hx, h1, h2⟩
      · refine .inr ⟨e.trans hr, fun i hi hcell => ?_⟩
        cases i with
        | zero => exact h0 hcell
        | succ i =>
          rw [show d + (i + 1) = d + 1 + i by omega]
          exact hn i (by simpa using hi) (by simpa using hcell)
    have land : (∃ x ∈ st :: l, x.cell = a ∧
          (storesAfter tr l (d + 1) (storeCellNow st s)).mem.readCell s.cfg a = x.value.toNat % 2 ^ s.cfg.w) ∨
        ((storesAfter tr l (d + 1) (storeCellNow st s)).mem.readCell s.cfg a = s.mem.readCell s.cfg a ∧
          ∀ i (hi : i < (st :: l).length), (st :: l)[i].cell = a →
            Config.raceOrder (d + i) = .before ∨ ∃ v, Access.write a v ∈ tr) := by
      have hwf : (storeCellNow st s).mem.wf := Memory.wf_writeCell _ _ hm _ _
      rcases storeCellNow_cell a hm st with ⟨rfl, e⟩ | ⟨hne, e⟩
      · rcases ih (d + 1) hwf with ⟨x, hx, h1, h2⟩ | ⟨e', -⟩
        · exact .inl ⟨x, List.mem_cons_of_mem _ hx, h1, h2⟩
        · exact .inl ⟨st, List.mem_cons_self .., rfl, e'.trans e⟩
      · exact rest _ hwf rfl e fun h => absurd h.symm hne
    simp only [storesAfter]
    cases ho : Config.raceOrder d with
    | before => exact rest s hm rfl rfl fun _ => .inl ho
    | after => exact land
    | between =>
      simp only
      split
      · rename_i hany
        refine rest s hm rfl rfl fun hcell => .inr ?_
        obtain ⟨x, hx, hx'⟩ := List.any_eq_true.mp hany
        cases x with
        | read b => cases hx'
        | write b v =>
          have : b = a := (beq_iff_eq.mp hx').trans hcell
          exact ⟨v, this ▸ hx⟩
      · exact land

end Stores

/-- After the stores of an abandoned command a cell holds its old value or one the command was to write to it (R191). -/
theorem landStores_cell (cfg : Config) (l : List Access) (d : Nat) (m : Memory) (hm : m.wf) (a : Nat) :
    (landStores cfg l d m).readCell cfg a = m.readCell cfg a ∨
    ∃ v, Access.write a v ∈ l ∧ (landStores cfg l d m).readCell cfg a = v % 2 ^ cfg.w := by
  induction l generalizing d m with
  | nil => exact .inl rfl
  | cons x l ih =>
    have later : ∀ m' : Memory, m'.wf → m'.readCell cfg a = m.readCell cfg a →
        (landStores cfg l (d + 1) m').readCell cfg a = m.readCell cfg a ∨
        ∃ v, Access.write a v ∈ x :: l ∧ (landStores cfg l (d + 1) m').readCell cfg a = v % 2 ^ cfg.w := by
      intro m' hm' e
      rcases ih (d + 1) m' hm' with h | ⟨v, h, h'⟩
      · exact .inl (h.trans e)
      · exact .inr ⟨v, List.mem_cons_of_mem _ h, h'⟩
    cases x with
    | read b => exact later m hm rfl
    | write b v =>
      simp only [landStores]
      split
      · have hwf := Memory.wf_writeCell cfg m hm b v
        by_cases hab : a = b
        · subst hab
          rcases ih (d + 1) _ hwf with h | ⟨v', h, h'⟩
          · exact .inr ⟨v, List.mem_cons_self .., h.trans (Memory.readCell_writeCell_same _ _ hm _ _)⟩
          · exact .inr ⟨v', List.mem_cons_of_mem _ h, h'⟩
        · exact later _ hwf (Memory.readCell_writeCell_other _ _ hm _ hab)
      · exact later m hm rfl

end Sys2Proof.Machine
end

