-- ==== Sys2Proof/Laws/PerInstr.lean ====
section
/-! SUPPORT. One lemma per command about its encoding (30_encoding.md R71, R72, R78): the fields an encoded
well-formed command carries. -/

namespace Sys2Proof.Laws.EncodedFields

/-- The command word of `i` holds its opcode, its count (zero where it has none) and `RSV = 0`. -/
def Statement (i : Instr) : Prop :=
  i.wellFormed = true → (encode i).opc = i.opcode ∧ (encode i).n = i.count.getD 0 ∧ (encode i).rsv = 0

/-- The fields of any well-formed command. -/
theorem ofWellFormed (i : Instr) : Statement i := fun h =>
  packCmd_fields i.opcode (i.count.getD 0) i.arg0 i.arg1 (Instr.count_lt h) i.opcode_lt

theorem init (b : DWord) (c : Word) : Statement (.init b c) := ofWellFormed _
theorem skip (d : DWord) : Statement (.skip d) := ofWellFormed _
theorem seek (a : DWord) : Statement (.seek a) := ofWellFormed _
theorem align : Statement .align := ofWellFormed _
theorem getAlign : Statement .getAlign := ofWellFormed _
theorem getPos : Statement .getPos := ofWellFormed _
theorem getRem : Statement .getRem := ofWellFormed _
theorem release : Statement .release := ofWellFormed _
theorem readW (n : Nat) : Statement (.readW n) := ofWellFormed _
theorem readN (n : Nat) : Statement (.readN n) := ofWellFormed _
theorem freadW (n : Nat) : Statement (.freadW n) := ofWellFormed _
theorem freadN (n : Nat) : Statement (.freadN n) := ofWellFormed _
theorem sreadW (n : Nat) : Statement (.sreadW n) := ofWellFormed _
theorem sreadN (n : Nat) : Statement (.sreadN n) := ofWellFormed _
theorem peekW (n : Nat) : Statement (.peekW n) := ofWellFormed _
theorem peekN (n : Nat) : Statement (.peekN n) := ofWellFormed _
theorem fpeekW (n : Nat) : Statement (.fpeekW n) := ofWellFormed _
theorem fpeekN (n : Nat) : Statement (.fpeekN n) := ofWellFormed _
theorem speekW (n : Nat) : Statement (.speekW n) := ofWellFormed _
theorem speekN (n : Nat) : Statement (.speekN n) := ofWellFormed _
theorem write (v : Word) (n : Nat) : Statement (.write v n) := ofWellFormed _

end Sys2Proof.Laws.EncodedFields
end

