-- ==== Sys2Proof/Tests/Slice0.lean ====
section
/-! SUPPORT. The model's own tests. Expected values are those of spec/95_test_vectors.md (the id stands beside each)
or written out from the encodings of 30_encoding.md. After them, for every obligation with hypotheses, a
witness that meets them. -/

namespace Sys2Proof.Tests

open Sys2Proof.Machine

/-! ### Well-formedness (30_encoding.md R71) -/

theorem test_count_64_is_ill_formed :
    ∀ i ∈ [Instr.readW 64, .readN 64, .freadW 64, .freadN 64, .sreadW 64, .sreadN 64, .peekW 64, .peekN 64,
           .fpeekW 64, .fpeekN 64, .speekW 64, .speekN 64, .write 0 64], i.wellFormed = false := by decide

theorem test_count_63_is_well_formed : (Instr.readN 63).wellFormed = true := by decide

/-! ### Decoding: words written from R71 and R72, `N` in [13:8], `OPC` in [7:0] -/

theorem test_decode_countless :
    [0x01, 0x02, 0x03, 0x04, 0x05, 0x06, 0x07, 0x08].map (decodeTableWord 32) =
      [some (.init 0 0), some (.skip 0), some (.seek 0), some .align, some .getAlign, some .getPos, some .getRem,
       some .release] := by decide

theorem test_decode_reads :
    [0x0410, 0x1011, 0x0412, 0x0813, 0x0414, 0x1415].map (decodeTableWord 32) =
      [some (.readW 4), some (.readN 16), some (.freadW 4), some (.freadN 8), some (.sreadW 4),
       some (.sreadN 20)] := by decide

theorem test_decode_peeks :
    [0x0818, 0x1019, 0x101A, 0x041B, 0x041C, 0x031D].map (decodeTableWord 32) =
      [some (.peekW 8), some (.peekN 16), some (.fpeekW 16), some (.fpeekN 4), some (.speekW 4),
       some (.speekN 3)] := by decide

/-- `N = 6`, `OPC = 0x20`: 0000 0000 0000 0000 00 000110 00100000. -/
theorem test_decode_write :
    decode { cmd := 0b00000000000000000000011000100000, arg0 := 0, arg1 := 0x2A } = .ok (.write 0x2A 6) := by decide

/-- S-2: `ARG0` of SKIP −9. -/
theorem test_decode_skip_delta :
    (match decode { cmd := 2, arg0 := 0xFFFFFFFFFFFFFFF7, arg1 := 0 } with
      | .ok (.skip d) => some (sint64 d)
      | _ => none) = some (-9) := by decide

/-- E-1 to E-4, E-9, and the neighbours of the assigned opcodes. -/
theorem test_decode_illegal :
    ∀ w ∈ [0x00000000, 0x00000102, 0x00004010, 0x00000016, 0x0000FF10, 0x09, 0x0F, 0x17, 0x1E, 0x1F, 0x21, 0x80000010],
      decodeTableWord 32 w = none := by decide

/-- E-10: `N = 63` decodes. -/
theorem test_decode_full_count : decodeTableWord 32 0x00003F10 = some (.readW 63) := by decide

/-- R78: lines of Program 1 and Program 2, and lines that do not assemble. -/
theorem test_assemble :
    assemble "INIT" [0x100, 16] = some { cmd := 0x00000001, arg0 := 0x100, arg1 := 0x10 } ∧
    assemble "SKIP" [-8] = some { cmd := 0x00000002, arg0 := 0xFFFFFFFFFFFFFFF8, arg1 := 0 } ∧
    assemble "READ.N" [4] = some { cmd := 0x00000411, arg0 := 0, arg1 := 0 } ∧
    assemble "WRITE" [0x1FF, 9] = some { cmd := 0x00000920, arg0 := 0, arg1 := 0x1FF } ∧
    assemble "READ" [4] = none ∧ assemble "READ.W" [64] = none := by decide

/-! ### One command on a small state -/

/-- An engine with a cursor over a buffer at `base`. -/
def cursorAt (cfg : Config) (base : DWord) (mem : Memory) (cell : Word) (off : BitVec 5) (rem : Word) : State :=
  { State.resetWith cfg with base := base, mem := mem, cellIdx := cell, bitOff := off, rem := rem, valid := true }

/-- Buffer B0 of 95_test_vectors.md, at a position. -/
def b0 (cell : Word) (off : BitVec 5) (rem : Word) : State :=
  cursorAt .spec 0x100 [(0x100, 0xAB), (0x101, 0xCD)] cell off rem

/-- Sixteen-bit cells. -/
def wide16 : Config := { width := .w16, addrW := 32, layout := .bigEndian }

/-- Thirty-two-bit cells. -/
def wide32 : Config := { width := .w32, addrW := 32, layout := .littleEndian }

/-- `(CELL_IDX, BIT_OFF, REM)`, `STATUS` and `RESULT` of a next state. -/
def seen (a : Answer) : Option (Nat × Nat × Int × Word × DWord) :=
  match a with
  | .next t => some (t.cellIdx.toNat, t.bitOff.toNat, t.remaining, t.status, t.result)
  | _ => none

/-- Memory and its trace in a next state. -/
def stored (a : Answer) : Option (Memory × List Access) :=
  match a with
  | .next t => some (t.mem, t.trace)
  | _ => none

/-- A property of a next state. -/
def nextHas (a : Answer) (p : State → Bool) : Bool :=
  match a with
  | .next t => p t
  | _ => false

/-- L-2. -/
theorem test_init_top_cell : seen (exec (.init 0xFFFFFFFF 8) .reset) = some (0, 0, 8, 0x08, 0) := by decide

/-- L-4, L-5, L-6. -/
theorem test_init_violations :
    ∀ i ∈ [Instr.init 0xFFFFFFFF 9, .init 0x100000000 0, .init 0 0x80000000],
      seen (exec i .reset) = some (0, 0, 0, 0x12, 0) := by decide

/-- L-7. -/
theorem test_release : seen (exec .release (b0 1 4 4)) = some (0, 0, 0, 0x00, 0) := by decide

/-- S-9: backward while still overrun. -/
theorem test_skip_back_overrun :
    seen (exec (.skip 0xFFFFFFFFFFFFFFFF) (b0 2 4 (-4))) = some (2, 3, -3, 0x28, 0) := by decide

/-- S-3, S-6, S-7, S-8. -/
theorem test_skip_out_of_bounds :
    seen (exec (.skip 0xFFFFFFFFFFFFFFFF) (b0 0 0 16)) = some (0, 0, 16, 0x09, 0) ∧
    seen (exec (.skip 17) (b0 2 0 0)) = some (2, 0, 0, 0x09, 0) ∧
    seen (exec (.skip 0x8000000000000000) (b0 2 0 0)) = some (2, 0, 0, 0x09, 0) ∧
    seen (exec (.skip 0) (b0 2 4 (-4))) = some (2, 4, -4, 0x29, 0) :=
  ⟨by decide, by decide, by decide, by decide⟩

/-- K-4, K-6. -/
theorem test_seek : seen (exec (.seek 0) (b0 2 3 (-3))) = some (0, 0, 16, 0x08, 0) := by decide

/-- K-2, K-3, K-5. -/
theorem test_seek_out_of_bounds :
    seen (exec (.seek 17) (b0 2 0 0)) = some (2, 0, 0, 0x09, 0) ∧
    seen (exec (.seek 0x8000000000000000) (b0 2 0 0)) = some (2, 0, 0, 0x09, 0) ∧
    seen (exec (.seek 20) (b0 2 3 (-3))) = some (2, 3, -3, 0x29, 0) :=
  ⟨by decide, by decide, by decide⟩

/-- A-3, A-9. -/
theorem test_align :
    seen (exec .align (b0 1 4 4)) = some (2, 0, 0, 0x08, 0) ∧
    seen (exec .align (cursorAt wide16 0 [] 0 3 61)) = some (0, 8, 56, 0x08, 0) := by decide

/-- A-2, A-7. -/
theorem test_align_out_of_bounds :
    seen (exec .align (b0 1 4 3)) = some (1, 4, 3, 0x09, 0) ∧
    seen (exec .align (b0 2 0 (-4))) = some (2, 0, -4, 0x29, 0) := by decide

/-- A-5, A-8. -/
theorem test_getAlign :
    seen (exec .getAlign (b0 0 7 9)) = some (0, 7, 9, 0x08, 1) ∧
    seen (exec .getAlign (cursorAt wide16 0 [] 0 9 55)) = some (0, 9, 55, 0x08, 7) := by decide

/-- Q-1, Q-5. -/
theorem test_getPos :
    seen (exec .getPos (b0 2 4 (-4))) = some (2, 4, -4, 0x28, 0x14) ∧
    seen (exec .getPos (cursorAt wide32 0 [] 1 28 4)) = some (1, 28, 4, 0x08, 0x3C) := by decide

/-- Q-4. -/
theorem test_getRem : seen (exec .getRem (b0 5 0 (-24))) = some (5, 0, -24, 0x28, 0xFFFFFFFFFFFFFFE8) := by decide

/-- Part 1 step 2 and step 3; F-1 and F-3 at the floor of `REM`. -/
theorem test_readW :
    seen (exec (.readW 8) (b0 0 4 12)) = some (1, 4, 4, 0x08, 0xBC) ∧
    seen (exec (.readW 8) (b0 1 4 4)) = some (2, 4, -4, 0x28, 0xD0) ∧
    seen (exec (.readW 10) (b0 268435454 6 (-2147483638))) = some (268435456, 0, -2147483648, 0x28, 0) ∧
    seen (exec (.readW 11) (b0 268435454 6 (-2147483638))) = some (268435454, 6, -2147483638, 0x3A, 0) :=
  ⟨by decide, by decide, by decide, by decide⟩

/-- X-1, X-3: 16-bit and 32-bit cells. -/
theorem test_readW_wide_cells :
    seen (exec (.readW 24) (cursorAt wide16 0 [(0, 0x12), (1, 0x34), (2, 0x56), (3, 0x78)] 0 4 28)) =
      some (1, 12, 4, 0x08, 0x234567) ∧
    seen (exec (.readW 32) (cursorAt wide32 0
      [(0, 0xEF), (1, 0xBE), (2, 0xAD), (3, 0xDE), (4, 0x67), (5, 0x45), (6, 0x23), (7, 0x01)] 0 28 36)) =
      some (1, 28, 4, 0x08, 0xF0123456) := by decide

/-- RD-7, RD-8. -/
theorem test_readN :
    seen (exec (.readN 16) (b0 0 0 16)) = some (2, 0, 0, 0x08, 0xABCD) ∧
    seen (exec (.readN 17) (b0 0 0 16)) = some (0, 0, 16, 0x1A, 0) := by decide

/-- FR-7, FR-5. -/
theorem test_freadW :
    seen (exec (.freadW 12) (b0 0 4 12)) = some (2, 0, 0, 0x08, 0xBCD) ∧
    seen (exec (.freadW 1) (b0 2 0 0)) = some (2, 0, 0, 0x1A, 0) := by decide

/-- FR-1. -/
theorem test_freadN : seen (exec (.freadN 8) (b0 0 0 16)) = some (1, 0, 8, 0x08, 0xAB) := by decide

/-- SR-2, SR-5. -/
theorem test_sreadW :
    seen (exec (.sreadW 4) (b0 1 4 4)) = some (2, 0, 0, 0x08, 0xD) ∧
    seen (exec (.sreadW 0) (b0 2 4 (-4))) = some (2, 4, -4, 0x29, 0) := by decide

/-- SR-6: the width is checked before the bounds. -/
theorem test_sreadN_width_first : seen (exec (.sreadN 20) (b0 0 0 5)) = some (0, 0, 5, 0x1A, 0) := by decide

/-- PK-4, F-2. -/
theorem test_peekW :
    seen (exec (.peekW 8) (b0 1 4 4)) = some (1, 4, 4, 0x08, 0xD0) ∧
    seen (exec (.peekW 1) (b0 268435456 0 (-2147483648))) = some (268435456, 0, -2147483648, 0x3A, 0) := by decide

/-- PK-2. -/
theorem test_peekN : seen (exec (.peekN 16) (b0 0 0 16)) = some (0, 0, 16, 0x08, 0xABCD) := by decide

/-- PK-3, PK-11. -/
theorem test_fpeekW :
    seen (exec (.fpeekW 16) (b0 0 0 16)) = some (0, 0, 16, 0x08, 0xABCD) ∧
    seen (exec (.fpeekW 5) (b0 1 4 4)) = some (1, 4, 4, 0x1A, 0) := by decide

/-- PK-7. -/
theorem test_fpeekN : seen (exec (.fpeekN 4) (b0 1 4 4)) = some (1, 4, 4, 0x08, 0xD) := by decide

/-- PK-6, PK-5. -/
theorem test_speekW :
    seen (exec (.speekW 4) (b0 1 4 4)) = some (1, 4, 4, 0x08, 0xD) ∧
    seen (exec (.speekW 5) (b0 1 4 4)) = some (1, 4, 4, 0x09, 0) := by decide

/-- PK-1. -/
theorem test_speekN : seen (exec (.speekN 3) (b0 0 0 16)) = some (0, 0, 16, 0x08, 0x5) := by decide

/-- WR-9: five cells, the middle three without a read; WR-12: 16-bit cells. -/
theorem test_write_cells :
    stored (exec (.write 0xFFFFFFFF 32) (cursorAt .spec 0 [(0, 0), (1, 0), (2, 0), (3, 0), (4, 0)] 0 4 36)) =
      some ([(0, 0x0F), (1, 0xFF), (2, 0xFF), (3, 0xFF), (4, 0xF0)],
        [.read 0, .write 0 0x0F, .write 1 0xFF, .write 2 0xFF, .write 3 0xFF, .read 4, .write 4 0xF0]) ∧
    stored (exec (.write 0 8) (cursorAt wide16 0 [(0, 0xFF), (1, 0xFF), (2, 0xFF), (3, 0xFF)] 0 12 20)) =
      some ([(0, 0xFF), (1, 0xF0), (2, 0x0F), (3, 0xFF)],
        [.read 0, .write 0 0xFFF0, .read 1, .write 1 0x0FFF]) := ⟨by decide, by decide⟩

/-- WR-3, WR-13, WR-7. -/
theorem test_write_checks :
    seen (exec (.write 5 2) (b0 1 2 6)) = some (1, 2, 6, 0x1A, 0) ∧
    seen (exec (.write 0 40) (b0 2 0 0)) = some (2, 0, 0, 0x1A, 0) ∧
    seen (exec (.write 0 1) (b0 2 0 0)) = some (2, 0, 0, 0x09, 0) :=
  ⟨by decide, by decide, by decide⟩

/-! ### Steps -/

/-- E-7: READ.W 1 as the first command after reset. -/
theorem test_step_no_cursor : seen (step (State.reset.withFetchWord 32 0x00000110)) = some (0, 0, 0, 0x12, 0) := by decide

/-- RD-4 through the port: the trace and the response. -/
theorem test_step_answers :
    nextHas (step ((b0 0 0 16).withFetchWord 32 0x00002010)) (fun t =>
      t.response = some ⟨0x28, 0xABCD0000⟩ && t.trace = [.read 0x100, .read 0x101] && t.k = 1) = true := by decide

/-- E-1, E-5: the illegal word, then a faulted engine. -/
theorem test_step_illegal_then_faulted :
    nextHas (step ((b0 0 0 16).withFetchWord 32 0)) (fun t =>
      t.status = 0x1B &&
        nextHas (step (present { cmd := 1, arg0 := 0x100, arg1 := 16 } t)) (fun u =>
          u.status = 0x1C && u.rem = 16)) = true := by decide

/-! ### Witnesses: states and operands that meet the hypotheses of each obligation, clause by clause -/

/-- A cursor of the greatest capacity (L-1). -/
def greatest : State := cursorAt .spec 0 [] 0 0 2147483647

/-- A state at the floor of `REM` (F-2). -/
def floor : State := b0 268435456 0 (-2147483648)

/-- B0 after a fault. -/
def faulty : State := { b0 0 0 16 with last := .contract, fault := true }

/-- B0 after the host freed its buffer; and the same faulted. -/
def freed : State := { b0 0 4 12 with bufferFreed := true }
def freedFaulty : State := { faulty with bufferFreed := true }

theorem live_without_cursor {r : Record} {j : Instr} {s : State} (hd : decode r = .ok j)
    (hj : needsCursor j = false) : ∀ i, decode r = .ok i → s.bufferLiveFor i := by
  intro i h n
  rw [hd] at h
  cases h
  simp [hj] at n

theorem reset_inv : State.reset.Inv := ⟨by decide, by decide, by decide, by decide, by decide, by decide, by decide, by decide, by decide⟩
theorem start_ready : (b0 0 0 16).Ready := ⟨⟨by decide, by decide, by decide, by decide, by decide, by decide, by decide, by decide, by decide⟩, rfl, rfl⟩
theorem middle_ready : (b0 1 4 4).Ready := ⟨⟨by decide, by decide, by decide, by decide, by decide, by decide, by decide, by decide, by decide⟩, rfl, rfl⟩
theorem end_ready : (b0 2 0 0).Ready := ⟨⟨by decide, by decide, by decide, by decide, by decide, by decide, by decide, by decide, by decide⟩, rfl, rfl⟩
theorem overrun_ready : (b0 2 4 (-4)).Ready := ⟨⟨by decide, by decide, by decide, by decide, by decide, by decide, by decide, by decide, by decide⟩, rfl, rfl⟩
theorem short_ready : (b0 1 4 3).Ready := ⟨⟨by decide, by decide, by decide, by decide, by decide, by decide, by decide, by decide, by decide⟩, rfl, rfl⟩
theorem greatest_ready : greatest.Ready := ⟨⟨by decide, by decide, by decide, by decide, by decide, by decide, by decide, by decide, by decide⟩, rfl, rfl⟩
theorem floor_ready : floor.Ready := ⟨⟨by decide, by decide, by decide, by decide, by decide, by decide, by decide, by decide, by decide⟩, rfl, rfl⟩
theorem faulty_inv : faulty.Inv := ⟨by decide, by decide, by decide, by decide, by decide, by decide, by decide, by decide, by decide⟩

theorem witness_DecodeOfEncodeIsTheCommand :
    ∀ i ∈ [Instr.readW 63, .readN 0, .write 0xFFFFFFFF 63, .init 0xFFFFFFFFFFFFFFFF 0xFFFFFFFF, .align],
      i.wellFormed = true := by decide

theorem witness_EncodeOfDecodeIsTheWord :
    decode ⟨0x00003F20, 0, 0xFFFFFFFF⟩ = .ok (.write 0xFFFFFFFF 63) ∧ decode ⟨0x00000008, 0, 0⟩ = .ok .release := by
  decide

theorem witness_IllegalCommandWordsExactly :
    decode ⟨0x00000021, 0, 0⟩ = .error .unassignedOpcode ∧ decode ⟨0x00004010, 0, 0⟩ = .error .reservedBits ∧
    decode ⟨0x00000108, 0, 0⟩ = .error .countOnCountless ∧ State.reset.fault = false ∧
    ∃ t, exec .release .reset = .next t := ⟨by decide, by decide, by decide, rfl, _, rfl⟩

theorem witness_ReadGroupFieldsAgreeWithOpcodeMap : 0x10 / 16 = 1 ∧ 0x1F / 16 = 1 := by decide

theorem witness_OperandsComeFromTheRecord :
    decode ⟨0x01, 0x100, 16⟩ = .ok (.init 0x100 16) ∧ decode ⟨0x02, 5, 9⟩ = .ok (.skip 5) ∧
    decode ⟨0x04, 5, 9⟩ = .ok .align ∧ decode ⟨0x3F1D, 5, 9⟩ = .ok (.speekN 63) ∧
    decode ⟨0x0620, 5, 9⟩ = .ok (.write 9 6) :=
  ⟨by decide, by decide, by decide, by decide, by decide⟩

theorem witness_OnlyHardwareResetClearsFault :
    (∃ t, faulty.fault = true ∧ step { faulty with pending := [.reset] } = .next t ∧ t.fault = false) ∧
    (∃ t, step { faulty with pending := [.commandThenReset ⟨8, 0, 0⟩] } = .next t ∧ t.fault = false) :=
  ⟨⟨_, rfl, rfl, rfl⟩, _, rfl, rfl⟩

/-- A record on a live buffer; over a freed buffer, the commands that need no cursor and an illegal word. -/
theorem witness_FaultedEngineRefusesEveryCommand :
    faulty.fault = true ∧ (∀ i, decode ⟨0x00000810, 0, 0⟩ = .ok i → faulty.bufferLiveFor i) ∧
    (∀ i, decode ⟨0x00000001, 0x100, 16⟩ = .ok i → freedFaulty.bufferLiveFor i) ∧
    (∀ i, decode ⟨0x00000008, 0, 0⟩ = .ok i → freedFaulty.bufferLiveFor i) ∧
    (∀ i, decode ⟨0, 0, 0⟩ = .ok i → freedFaulty.bufferLiveFor i) ∧
    ∃ t, step (present ⟨0x00000008, 0, 0⟩ faulty) = .next t :=
  ⟨rfl, fun _ _ _ _ => rfl, live_without_cursor (j := .init 0x100 16) (by decide) rfl,
    live_without_cursor (j := .release) (by decide) rfl, (fun _ h => nomatch h), _, rfl⟩

theorem witness_ValidGatesEveryCursorCommand :
    (State.reset.fault = false ∧ State.reset.valid = false) ∧
    (∃ t, exec (.init 0x100 16) .reset = .next t ∧ t.last = .ok) ∧
    (∃ t, exec .release (b0 0 0 16) = .next t ∧ t.last = .ok) ∧ (∃ t, exec (.readW 8) (b0 0 4 12) = .next t) :=
  ⟨⟨rfl, rfl⟩, ⟨_, rfl, rfl⟩, ⟨_, rfl, rfl⟩, ⟨_, rfl⟩⟩

/-- L-5; L-6; L-4; L-2 and L-1; a faulted engine. -/
theorem witness_InitCreatesTheCursor :
    State.reset.Inv ∧ State.reset.fault = false ∧ faulty.Inv ∧ faulty.fault = true ∧
    2 ^ State.reset.cfg.addrW ≤ (0x100000000 : DWord).toNat ∧
    ((0 : DWord).toNat < 2 ^ State.reset.cfg.addrW ∧ 2147483647 < (0x80000000 : Word).toNat) ∧
    2 ^ State.reset.cfg.addrW < (0xFFFFFFFF : DWord).toNat + ((9 : Word).toNat + (State.reset.cfg.w - 1)) / State.reset.cfg.w ∧
    (0xFFFFFFFF : DWord).toNat + ((8 : Word).toNat + (State.reset.cfg.w - 1)) / State.reset.cfg.w ≤ 2 ^ State.reset.cfg.addrW ∧
    (2147483647 : Word).toNat ≤ 2147483647 :=
  ⟨reset_inv, rfl, faulty_inv, rfl, by decide, by decide, by decide, by decide, by decide⟩

theorem witness_ReleaseEndsTheCursor :
    (b0 1 4 4).fault = false ∧ faulty.fault = true ∧ State.reset.fault = false ∧ State.reset.Inv ∧
    State.reset.valid = false := ⟨rfl, rfl, rfl, reset_inv, rfl⟩

/-- S-5 and S-8 at `REM`, S-2 and S-3 at position 0. -/
theorem witness_SkipMovesOrFailsOutOfBounds :
    ((b0 2 4 (-4)).Ready ∧ 0 ≤ (0 : DWord).toInt ∧ (b0 2 4 (-4)).remaining < (0 : DWord).toInt) ∧
    ((b0 0 0 16).Ready ∧ (0xFFFFFFFFFFFFFFFF : DWord).toInt < 0 ∧
      (b0 0 0 16).abs + (0xFFFFFFFFFFFFFFFF : DWord).toInt < 0) ∧
    ((b0 2 0 0).Ready ∧ ¬ (b0 2 0 0).remaining < (0 : DWord).toInt) ∧
    ((b0 1 4 4).Ready ∧ ¬ (b0 1 4 4).abs + (0xFFFFFFFFFFFFFFF4 : DWord).toInt < 0) :=
  ⟨⟨overrun_ready, by decide, by decide⟩, ⟨start_ready, by decide, by decide⟩, ⟨end_ready, by decide⟩,
    middle_ready, by decide⟩

/-- S-10. -/
theorem witness_SkipThenSkipBackRestoresTheCursor :
    (b0 1 4 4).Inv ∧ (0xC : DWord).toInt = -(0xFFFFFFFFFFFFFFF4 : DWord).toInt ∧
    exec (.skip 0xFFFFFFFFFFFFFFF4) (b0 1 4 4) = .next (b0 0 0 16) ∧
    exec (.skip 0xC) (b0 0 0 16) = .next (b0 1 4 4) ∧ (b0 0 0 16).last = .ok ∧ (b0 1 4 4).last = .ok :=
  ⟨middle_ready.toInv, by decide, rfl, rfl, rfl, rfl⟩

/-- K-2, K-1, K-3. -/
theorem witness_SeekMovesOrFailsOutOfBounds :
    (b0 2 0 0).Ready ∧ (b0 2 0 0).remaining - (((17 : DWord).toNat : Int) - (b0 2 0 0).abs) < 0 ∧
    0 ≤ (b0 2 0 0).remaining - (((16 : DWord).toNat : Int) - (b0 2 0 0).abs) ∧
    (b0 2 0 0).remaining - (((0x8000000000000000 : DWord).toNat : Int) - (b0 2 0 0).abs) < 0 :=
  ⟨end_ready, by decide, by decide, by decide⟩

/-- A-2, A-3: one that fails and one that moves, with their next states. -/
theorem witness_AlignMovesToTheNextByteBoundary :
    ((b0 1 4 3).Ready ∧ (b0 1 4 3).remaining < ((8 - (b0 1 4 3).bitOff.toNat % 8) % 8 : Nat) ∧
      exec .align (b0 1 4 3) = .next { b0 1 4 3 with last := .oob }) ∧
    ((b0 1 4 4).Ready ∧ ((8 - (b0 1 4 4).bitOff.toNat % 8) % 8 : Nat) ≤ (b0 1 4 4).remaining ∧
      exec .align (b0 1 4 4) = .next (b0 2 0 0)) :=
  ⟨⟨short_ready, by decide, rfl⟩, middle_ready, by decide, rfl⟩

theorem witness_QueriesReturnTheCursor : (b0 2 4 (-4)).Ready ∧ faulty.Inv ∧ State.reset.Inv :=
  ⟨overrun_ready, faulty_inv, reset_inv⟩

/-- The last bit of the last cell. -/
theorem witness_GatherIsTheStreamBitsMsbFirst :
    (b0 0 0 16).base.toNat + (0 + 16 - 1) / (b0 0 0 16).cfg.w < 2 ^ (b0 0 0 16).cfg.addrW ∧
    (cursorAt .spec 0xFFFFFFFF [] 0 0 8).base.toNat + (0 + 8 - 1) / 8 < 2 ^ 32 := by decide

theorem witness_StepwiseGatherEqualsGather : ∃ v t, gather (b0 0 0 16) 4 8 = .ok (v, t) := ⟨_, _, rfl⟩

/-- RD-9; F-3; F-1, RD-4 and `n = 0`. -/
theorem witness_TolerantReadsZeroFillAndConsume :
    (b0 0 0 16).Ready ∧ 32 < 33 ∧ floor.Ready ∧ (floor.remaining < (1 : Nat) ∧ floor.remaining - (1 : Nat) < -2147483648) ∧
    ¬ (floor.remaining < (0 : Nat) ∧ floor.remaining - (0 : Nat) < -2147483648) ∧
    ¬ ((b0 0 0 16).remaining < (32 : Nat) ∧ (b0 0 0 16).remaining - (32 : Nat) < -2147483648) :=
  ⟨start_ready, by decide, floor_ready, by decide, by decide, by decide⟩

/-- As for the reads; F-2 and F-4. -/
theorem witness_TolerantPeeksZeroFillAndStay :
    floor.Ready ∧ 16 < 17 ∧ (floor.remaining < (1 : Nat) ∧ floor.remaining - (1 : Nat) < -2147483648) ∧
    ¬ (floor.remaining < (0 : Nat) ∧ floor.remaining - (0 : Nat) < -2147483648) :=
  ⟨floor_ready, by decide, by decide, by decide⟩

/-- FR-5, FR-4, FR-6, FR-7. -/
theorem witness_FastReadsCheckTheirPrecondition :
    ((b0 2 0 0).Ready ∧ (b0 2 0 0).remaining < (1 : Nat) ∧ ((0 : Nat) : Int) ≤ (b0 2 0 0).remaining) ∧
    ((b0 2 4 (-4)).Ready ∧ (b0 2 4 (-4)).remaining < (0 : Nat)) ∧
    (greatest.Ready ∧ ((32 : Nat) : Int) ≤ greatest.remaining) :=
  ⟨⟨end_ready, by decide, by decide⟩, ⟨overrun_ready, by decide⟩, greatest_ready, by decide⟩

/-- PK-11, PK-7. -/
theorem witness_FastPeeksCheckTheirPrecondition :
    (b0 1 4 4).Ready ∧ (b0 1 4 4).remaining < (5 : Nat) ∧ ((4 : Nat) : Int) ≤ (b0 1 4 4).remaining :=
  ⟨middle_ready, by decide, by decide⟩

/-- SR-4, SR-3, SR-5. -/
theorem witness_SafeReadsFailOutOfBounds :
    ((b0 2 0 0).Ready ∧ (b0 2 0 0).remaining < (1 : Nat) ∧ ((0 : Nat) : Int) ≤ (b0 2 0 0).remaining) ∧
    ((b0 2 4 (-4)).Ready ∧ (b0 2 4 (-4)).remaining < (0 : Nat)) :=
  ⟨⟨end_ready, by decide, by decide⟩, overrun_ready, by decide⟩

/-- PK-5, PK-6. -/
theorem witness_SafePeeksFailOutOfBounds :
    (b0 1 4 4).Ready ∧ (b0 1 4 4).remaining < (5 : Nat) ∧ ((4 : Nat) : Int) ≤ (b0 1 4 4).remaining :=
  ⟨middle_ready, by decide, by decide⟩

/-- A read with real bits, one without, and one that fails. -/
theorem witness_ReadsLoadOnlyTheCellsOfRealBits :
    (b0 1 4 4).Inv ∧ (∃ t, exec (.readW 8) (b0 1 4 4) = .next t ∧ t.last = .ok) ∧
    (b0 2 0 0).Inv ∧ (∃ t, exec (.readW 8) (b0 2 0 0) = .next t ∧ t.last = .ok) ∧
    (∃ t, exec (.sreadW 8) (b0 1 4 4) = .next t ∧ t.last ≠ .ok) :=
  ⟨middle_ready.toInv, ⟨_, rfl, rfl⟩, end_ready.toInv, ⟨_, rfl, rfl⟩, _, rfl, by decide⟩

theorem witness_NarrowAndWideFormsAgree :
    (b0 0 0 16).fault = false ∧ (b0 0 0 16).valid = true ∧ 32 < 33 ∧ 16 < 17 ∧ 16 ≤ 16 := by decide

theorem witness_ReadKindsAgreeInsideTheBuffer : ((16 : Nat) : Int) ≤ (b0 0 0 16).remaining := by decide

/-- PK-4 beside its read; and a tolerant peek at the floor, where both fault (F-2). -/
theorem witness_PeeksCommitNoCursorState :
    (∃ t, exec (.peekW 8) (b0 1 4 4) = .next t) ∧ (∃ u, exec (.readW 8) (b0 1 4 4) = .next u) ∧
    (∃ t, exec (.peekW 1) floor = .next t) ∧ ∃ u, exec (.readW 1) floor = .next u :=
  ⟨⟨_, rfl⟩, ⟨_, rfl⟩, ⟨_, rfl⟩, _, rfl⟩

/-- PK-4 then PK-8. -/
theorem witness_PeekThenReadReturnsTheSameValue :
    (b0 1 4 4).Inv ∧ (∃ t, exec (.peekW 8) (b0 1 4 4) = .next t ∧ t.last = .ok) ∧
    (∃ t, exec (.speekN 4) (b0 1 4 4) = .next t ∧ t.last = .ok) :=
  ⟨middle_ready.toInv, ⟨_, rfl, rfl⟩, _, rfl, rfl⟩

/-- WR-11; WR-3; WR-7; WR-6 and WR-5; WR-8. -/
theorem witness_WriteStoresTheRunAndNothingElse :
    (b0 0 0 16).Ready ∧ 32 < 33 ∧ 2 ^ 2 ≤ (4 : Word).toNat ∧ (3 : Word).toNat < 2 ^ 2 ∧
    (b0 0 0 16).remaining < (17 : Nat) ∧ ((16 : Nat) : Int) ≤ (b0 0 0 16).remaining ∧
    (greatest.Ready ∧ (0xFFFFFFFF : Word).toNat < 2 ^ 32 ∧ ((32 : Nat) : Int) ≤ greatest.remaining) ∧
    ((b0 2 0 0).Ready ∧ (0 : Word).toNat < 2 ^ 0 ∧ ((0 : Nat) : Int) ≤ (b0 2 0 0).remaining) ∧
    ((b0 2 4 (-4)).Ready ∧ (b0 2 4 (-4)).remaining < (0 : Nat)) :=
  ⟨start_ready, by decide, by decide, by decide, by decide, by decide, ⟨greatest_ready, by decide, by decide⟩,
    ⟨end_ready, by decide, by decide⟩, overrun_ready, by decide⟩

/-- WR-1's and WR-6's kind, and one that fails. -/
theorem witness_WriteAccessesInOrder :
    (b0 0 4 12).Inv ∧ (∃ t, exec (.write 0x2A 6) (b0 0 4 12) = .next t ∧ t.last = .ok) ∧
    (b0 2 0 0).Inv ∧ (∃ t, exec (.write 0 0) (b0 2 0 0) = .next t) ∧
    (∃ t, exec (.write 0 1) (b0 2 0 0) = .next t ∧ t.last ≠ .ok) :=
  ⟨⟨by decide, by decide, by decide, by decide, by decide, by decide, by decide, by decide, by decide⟩, ⟨_, rfl, rfl⟩, end_ready.toInv, ⟨_, rfl⟩, _, rfl, by decide⟩

theorem witness_WriteSeekReadRoundTrip :
    (greatest.Ready ∧ 32 ≤ 32 ∧ (0xFFFFFFFF : Word).toNat < 2 ^ 32 ∧ ((32 : Nat) : Int) ≤ greatest.remaining) ∧
    ((b0 1 4 4).Ready ∧ (5 : Word).toNat < 2 ^ 4 ∧ ((4 : Nat) : Int) ≤ (b0 1 4 4).remaining) :=
  ⟨⟨greatest_ready, by decide, by decide, by decide⟩, middle_ready, by decide, by decide⟩

theorem witness_EveryStepKeepsTheInvariant :
    (b0 1 4 4).Inv ∧ ∃ t, step (present ⟨0x00000810, 0, 0⟩ (b0 1 4 4)) = .next t := ⟨middle_ready.toInv, _, rfl⟩

theorem witness_EveryCommandEndsInOneOfFourOutcomes :
    faulty.Inv ∧ floor.Inv ∧ State.reset.Inv ∧ decode ⟨0x00000102, 0, 0⟩ = .error .countOnCountless :=
  ⟨faulty_inv, floor_ready.toInv, reset_inv, by decide⟩

/-- A violation and none, of a command with a check and of INIT. -/
theorem witness_ContractViolationsExactly :
    (b0 2 0 0).fault = false ∧ (∃ t, exec (.freadW 1) (b0 2 0 0) = .next t ∧ t.last = .contract) ∧
    (∃ t, exec (.freadW 0) (b0 2 0 0) = .next t ∧ t.last = .ok) ∧
    (∃ t, exec (.init 0x100000000 0) .reset = .next t ∧ t.last = .contract) :=
  ⟨rfl, ⟨_, rfl, rfl⟩, ⟨_, rfl, rfl⟩, _, rfl, rfl⟩

theorem witness_OutOfBoundsExactly :
    (∃ t, exec (.seek 17) (b0 2 0 0) = .next t ∧ t.last = .oob) ∧
    (∃ t, exec (.seek 16) (b0 2 0 0) = .next t ∧ t.last = .ok) := ⟨⟨_, rfl, rfl⟩, _, rfl, rfl⟩

theorem witness_OutOfBoundsChangesOnlyLast : ∃ t, exec (.skip 17) (b0 2 0 0) = .next t ∧ t.last = .oob := ⟨_, rfl, rfl⟩

theorem witness_FaultsArePrecise :
    (b0 0 0 16).fault = false ∧ (∃ t, runRecord ⟨0x00002110, 0, 0⟩ (b0 0 0 16) = .next t ∧ t.fault = true) ∧
    (∃ t, runRecord ⟨0, 0, 0⟩ (b0 0 0 16) = .next t ∧ t.fault = true) := ⟨rfl, ⟨_, rfl, rfl⟩, _, rfl, rfl⟩

theorem witness_AccessesStayInTheBuffer :
    (b0 0 4 12).Inv ∧ (∃ t, exec (.readW 32) (b0 0 4 12) = .next t) ∧ ∃ t, exec (.write 0 12) (b0 0 4 12) = .next t :=
  ⟨⟨by decide, by decide, by decide, by decide, by decide, by decide, by decide, by decide, by decide⟩, ⟨_, rfl⟩, _, rfl⟩

theorem witness_ResultWrittenOnlyByValueCommands :
    (∃ t, exec (.skip 5) (b0 0 4 12) = .next t) ∧ returnsValue (.skip 5) = false ∧
    ∃ t, exec (.sreadW 8) (b0 1 4 4) = .next t ∧ t.last ≠ .ok := ⟨⟨_, rfl⟩, rfl, _, rfl, by decide⟩

theorem witness_CapacityIsKept :
    (∃ t, exec (.init 0 2147483647) .reset = .next t ∧ t.last = .ok) ∧
    (b0 1 4 4).Inv ∧ (b0 1 4 4).valid = true ∧ (∃ t, exec (.readW 8) (b0 1 4 4) = .next t) :=
  ⟨⟨_, rfl, rfl⟩, middle_ready.toInv, rfl, _, rfl⟩

/-- Part 1 step 3. -/
theorem witness_OnlyTolerantReadsOverrun :
    (b0 1 4 4).Inv ∧ (b0 1 4 4).ovr = false ∧ ∃ t, exec (.readW 8) (b0 1 4 4) = .next t ∧ t.ovr = true :=
  ⟨middle_ready.toInv, rfl, _, rfl, rfl⟩

theorem witness_CommandFrame :
    (∃ t, exec (.readW 8) (b0 0 4 12) = .next t) ∧ ∃ t, exec (.write 0 8) (b0 0 4 12) = .next t := ⟨⟨_, rfl⟩, _, rfl⟩

/-- Two memories that agree on the two cells of B0 and differ beside them. -/
theorem witness_CommandsSeeOnlyTheirBuffer :
    (b0 0 4 12).Inv ∧ { b0 0 4 12 with mem := [(0xFF, 1), (0x100, 0xAB), (0x101, 0xCD), (0x102, 2)] }.Inv ∧
    (∀ c, c < cellsFor (b0 0 4 12).cfg (b0 0 4 12).cap.toNat →
      Memory.readCell .spec [(0xFF, 1), (0x100, 0xAB), (0x101, 0xCD), (0x102, 2)] ((b0 0 4 12).base.toNat + c) =
        (b0 0 4 12).mem.readCell .spec ((b0 0 4 12).base.toNat + c)) ∧
    ∃ t, exec (.write 0 8) (b0 0 4 12) = .next t := ⟨⟨by decide, by decide, by decide, by decide, by decide, by decide, by decide, by decide, by decide⟩, ⟨by decide, by decide, by decide, by decide, by decide, by decide, by decide, by decide, by decide⟩, by decide, _, rfl⟩

/-- A read of a live buffer; RELEASE and INIT over a freed one. -/
theorem witness_StepRunsTheDecodedCommand :
    (decode ⟨0x00000810, 0, 0⟩ = .ok (.readW 8) ∧ (b0 0 4 12).bufferLiveFor (.readW 8) ∧
      (present ⟨0x00000810, 0, 0⟩ (b0 0 4 12)).pending = [.command ⟨0x00000810, 0, 0⟩] ∧
      ∃ t, exec (.readW 8) { present ⟨0x00000810, 0, 0⟩ (b0 0 4 12) with pending := [], trace := [] } = .next t) ∧
    (decode ⟨0x00000008, 0, 0⟩ = .ok .release ∧ freed.bufferLiveFor .release ∧
      ∃ t, exec .release freed = .next t) ∧
    (decode ⟨0x00000001, 0x100, 16⟩ = .ok (.init 0x100 16) ∧
      freed.bufferLiveFor (.init 0x100 16) ∧
      ∃ t, exec (.init 0x100 16) freed = .next t) :=
  ⟨⟨by decide, fun _ _ => rfl, rfl, _, rfl⟩, ⟨by decide, (fun h => nomatch h), _, rfl⟩, by decide,
    (fun h => nomatch h), _, rfl⟩

/-- A read of a live buffer; over a freed one RELEASE and an illegal word. -/
theorem witness_EveryCommandIsAnswered :
    (present ⟨0x00000810, 0, 0⟩ (b0 0 4 12)).Inv ∧
    (∀ i, decode ⟨0x00000810, 0, 0⟩ = .ok i → (present ⟨0x00000810, 0, 0⟩ (b0 0 4 12)).bufferLiveFor i) ∧
    (present ⟨0x00000008, 0, 0⟩ freed).Inv ∧ (present ⟨0x00000008, 0, 0⟩ freed).bufferFreed = true ∧
    (∀ i, decode ⟨0x00000008, 0, 0⟩ = .ok i → (present ⟨0x00000008, 0, 0⟩ freed).bufferLiveFor i) ∧
    (present ⟨0, 0, 0⟩ freed).Inv ∧
    (∀ i, decode ⟨0, 0, 0⟩ = .ok i → (present ⟨0, 0, 0⟩ freed).bufferLiveFor i) :=
  ⟨⟨by decide, by decide, by decide, by decide, by decide, by decide, by decide, by decide, by decide⟩, fun _ _ _ _ => rfl, ⟨by decide, by decide, by decide, by decide, by decide, by decide, by decide, by decide, by decide⟩, rfl, live_without_cursor (j := .release) (by decide) rfl, ⟨by decide, by decide, by decide, by decide, by decide, by decide, by decide, by decide, by decide⟩, fun _ h => nomatch h⟩

theorem witness_EngineWaitsForACommand : State.reset.pending = [] := rfl

/-- A WRITE over two cells. -/
theorem witness_ResetDuringACommandAbandonsIt :
    { b0 0 4 12 with pending := [.commandThenReset ⟨0x00000820, 0, 0⟩] }.Inv ∧
    ∃ u, runRecord ⟨0x00000820, 0, 0⟩ { b0 0 4 12 with pending := [], trace := [] } = .next u ∧ u.trace.length = 4 :=
  ⟨⟨by decide, by decide, by decide, by decide, by decide, by decide, by decide, by decide, by decide⟩, _, rfl, rfl⟩

/-- The highest and the lowest cell of the address space; and a store to the cell at the cursor, then its read: in B0,
in the highest cell, and with exactly `W` bits remaining. -/
theorem witness_HostStoreIsSeenByTheNextCommand :
    ({ b0 0 4 12 with pending := [.storeCell ⟨0xFFFFFFFF, 0x1FF⟩] }.Inv ∧ 0xFFFFFFFF < 2 ^ (b0 0 4 12).cfg.addrW ∧
      0 < 2 ^ (b0 0 4 12).cfg.addrW) ∧
    ({ b0 1 0 8 with pending := [.storeCell ⟨0x101, 0x1FF⟩, .command (encode (.readW 8))] }.Inv ∧
      (b0 1 0 8).fault = false ∧ (b0 1 0 8).valid = true ∧ (b0 1 0 8).bufferFreed = false ∧
      (b0 1 0 8).base.toNat + (b0 1 0 8).cellIdx.toNat = 0x101 ∧ (b0 1 0 8).bitOff = 0 ∧
      ((b0 1 0 8).cfg.w : Int) ≤ (b0 1 0 8).remaining ∧ (b0 1 0 8).cfg.w = 8) ∧
    ({ cursorAt .spec 0xFFFFFFFF [] 0 0 8 with
        pending := [.storeCell ⟨0xFFFFFFFF, 0x1FF⟩, .command (encode (.readW 8))] }.Inv ∧
      (cursorAt .spec 0xFFFFFFFF [] 0 0 8).base.toNat + (cursorAt .spec 0xFFFFFFFF [] 0 0 8).cellIdx.toNat =
        0xFFFFFFFF ∧
      ((cursorAt .spec 0xFFFFFFFF [] 0 0 8).cfg.w : Int) ≤ (cursorAt .spec 0xFFFFFFFF [] 0 0 8).remaining) :=
  ⟨⟨⟨by decide, by decide, by decide, by decide, by decide, by decide, by decide, by decide, by decide⟩, by decide, by decide⟩, ⟨⟨by decide, by decide, by decide, by decide, by decide, by decide, by decide, by decide, by decide⟩, rfl, rfl, rfl, by decide, rfl, by decide, rfl⟩, ⟨by decide, by decide, by decide, by decide, by decide, by decide, by decide, by decide, by decide⟩, by decide, by decide⟩

/-- The highest byte of the address space and byte 0; the highest cell; freeing the live buffer's last cell, the cell
after it, and cells while there is no cursor; and allocating. -/
theorem witness_HostByteStoreLoadAndFree :
    ({ b0 0 4 12 with pending := [.storeByte 0xFFFFFFFF 0xA5] }.Inv ∧
      0xFFFFFFFF < 2 ^ (b0 0 4 12).cfg.addrW * (b0 0 4 12).cfg.width.bytes ∧
      0 < 2 ^ (b0 0 4 12).cfg.addrW * (b0 0 4 12).cfg.width.bytes) ∧
    ({ b0 0 4 12 with pending := [.loadCell 0xFFFFFFFF] }.pending = [.loadCell 0xFFFFFFFF] ∧
      0xFFFFFFFF < 2 ^ (b0 0 4 12).cfg.addrW) ∧
    ((∃ t, step { b0 0 4 12 with pending := [.free ⟨0x101, 1⟩] } = .next t ∧ t.bufferFreed = true) ∧
      (∃ t, step { b0 0 4 12 with pending := [.free ⟨0x102, 9⟩] } = .next t ∧ t.bufferFreed = false) ∧
      (∃ t, step { State.reset with pending := [.free ⟨0, 9⟩] } = .next t ∧ t.bufferFreed = false)) ∧
    (∃ t, step { b0 0 4 12 with freed := [⟨0x100, 4⟩], pending := [.allocate ⟨0x101, 2⟩] } = .next t ∧
      t.freed = [⟨0x100, 1⟩, ⟨0x103, 1⟩]) :=
  ⟨⟨⟨by decide, by decide, by decide, by decide, by decide, by decide, by decide, by decide, by decide⟩, by decide, by decide⟩, ⟨rfl, by decide⟩,
    ⟨⟨_, rfl, by decide⟩, ⟨_, rfl, by decide⟩, _, rfl, by decide⟩, _, rfl, by decide⟩

/-- A WRITE whose partly covered cell another agent stores to, wherever the store falls. -/
theorem witness_RacedCellsHoldOneOfTheValues :
    { b0 0 4 12 with pending := [.commandRaced ⟨0x00000620, 0, 0x2A⟩ [⟨0x100, 7⟩]] }.Inv ∧
    ∃ t, step { b0 0 4 12 with pending := [.commandRaced ⟨0x00000620, 0, 0x2A⟩ [⟨0x100, 7⟩]] } = .next t := by
  refine ⟨⟨by decide, by decide, by decide, by decide, by decide, by decide, by decide, by decide, by decide⟩, ?_⟩
  simp only [step, nextEvent, hostEvent, raceCommand, strayStore, storesBefore, storesAfter]
  generalize Config.raceOrder _ = o
  cases o <;> exact ⟨_, rfl⟩

/-- A READ.W of a raced cell, wherever the store falls. -/
theorem witness_RacedCellsHoldOneOfTheValues_read :
    { b0 0 4 12 with pending := [.commandRaced ⟨0x00000810, 0, 0⟩ [⟨0x100, 7⟩, ⟨0x200, 9⟩]] }.Inv ∧
    ∃ t, step { b0 0 4 12 with pending := [.commandRaced ⟨0x00000810, 0, 0⟩ [⟨0x100, 7⟩, ⟨0x200, 9⟩]] } = .next t := by
  refine ⟨⟨by decide, by decide, by decide, by decide, by decide, by decide, by decide, by decide, by decide⟩, ?_⟩
  simp only [step, nextEvent, hostEvent, raceCommand, strayStore, storesBefore, storesAfter]
  generalize Config.raceOrder _ = o
  generalize Config.raceOrder _ = o'
  cases o <;> cases o' <;> exact ⟨_, rfl⟩

theorem witness_BrokenDutiesAreRefused :
    decode ⟨0x00000006, 0, 0⟩ = .ok .getPos ∧
    { b0 0 4 12 with bufferFreed := true, pending := [.command ⟨0x00000006, 0, 0⟩] }.valid = true ∧
    { b0 0 4 12 with pending := [.breach .memoryError] }.pending = [.breach .memoryError] :=
  ⟨by decide, rfl, rfl⟩

/-- A faulted engine that is reset, and then runs a RELEASE; a command that faults; and a reset that abandons one. -/
theorem witness_FaultedRunStaysFaulted :
    (∃ t, step { faulty with pending := [.reset] } = .next t ∧ faulty.fault = true ∧ t.fault = false) ∧
    (∃ t, step (present ⟨0x00000008, 0, 0⟩ (hardReset faulty)) = .next t ∧ (hardReset faulty).hasFaulted = true ∧
      t.last = .ok) ∧
    (∃ t, step (present ⟨0x00000810, 0, 0⟩ (b0 0 4 12)) = .next t ∧ t.safe) ∧
    ((b0 0 4 12).safe ∧ ∃ t, step (present ⟨0, 0, 0⟩ (b0 0 4 12)) = .next t ∧ t.hasFaulted = true) ∧
    (∃ t, step { b0 0 4 12 with pending := [.commandThenReset ⟨0, 0, 0⟩] } = .next t ∧ t.fault = false) :=
  ⟨⟨_, rfl, rfl, rfl⟩, ⟨_, rfl, rfl, rfl⟩, ⟨_, rfl, rfl⟩, ⟨rfl, _, rfl, rfl⟩, _, rfl, rfl⟩

/-- B0 after the host freed its two cells. -/
def lost : State := { b0 0 4 12 with freed := [⟨0x100, 2⟩], bufferFreed := true }

/-- The freed buffer of B0 named again, then a read; the cell before the freed ones as a buffer, up to their border; and
a buffer of no cells. -/
theorem witness_InitEndsTheDutyOnlyElsewhere :
    (∃ t, step { lost with pending := [.command (encode (.init 0x101 1)), .command ⟨0x00000110, 0, 0⟩] } = .next t ∧
      t.last = .ok ∧ cellFreed [⟨0x100, 2⟩] (0x101 + 0) = true ∧ decode ⟨0x00000110, 0, 0⟩ = .ok (.readW 1) ∧
      step t = .refused .useAfterFree) ∧
    (∃ t, step { lost with pending := [.command (encode (.init 0xFF 8))] } = .next t ∧ t.last = .ok ∧
      t.bufferFreed = false) ∧
    (∀ j, j < 1 → cellFreed [⟨0x100, 2⟩] (0xFF + j) = false) ∧
    (∃ t, step { lost with pending := [.command (encode (.init 0x100 0))] } = .next t ∧ t.last = .ok ∧
      t.bufferFreed = false) :=
  ⟨⟨_, rfl, rfl, by decide, by decide, rfl⟩, ⟨_, rfl, rfl, by decide⟩, by decide, _, rfl, rfl, by decide⟩

end Sys2Proof.Tests
end

/-! ## The frame of every command (00_scope.md R8; 10_state.md R20; 42_write.md R150) -/

namespace Sys2Proof.Machine

/-- What no command changes: the parameters (R8) and the fields of the model's own that belong to the host's side and to
the run's record (log entries 7, 8, 11, 16 and 22). -/
structure State.SameRun (s t : State) : Prop where
  cfg           : t.cfg = s.cfg
  response      : t.response = s.response
  pending       : t.pending = s.pending
  k             : t.k = s.k
  draws         : t.draws = s.draws
  faultedBefore : t.faultedBefore = s.faultedBefore
  freed         : t.freed = s.freed

/-- What only INIT and RELEASE change: which buffer the cursor is over (R20), and whether it was freed (log entry 11). -/
structure State.SameBuffer (s t : State) : Prop where
  base        : t.base = s.base
  valid       : t.valid = s.valid
  bufferFreed : t.bufferFreed = s.bufferFreed

/-- Every other way to end writes `LAST` and `FAULT` at most, so a command keeps a part of the state if it keeps it
where it ends in `done(OK)`. -/
theorem Ended.keeps {P : State → Prop} {s t : State} {i : Instr} (h : Ended s i t)
    (hstatus : ∀ l f, P { s with last := l, fault := f }) (hok : Completed s i t → P t) : P t := by
  cases h with
  | faulted => exact hstatus .faulted s.fault
  | contract _ r => exact hstatus .contract true
  | outOfBounds => exact hstatus .oob s.fault
  | completed _ ht => exact hok ht

/-- The commit of a read moves the cursor at most and sets `RESULT` and `LAST` (R121, R122). -/
theorem commitRead_rest (mode : ReadMode) (n v : Nat) (s : State) :
    commitRead mode n v s =
      { s with
        cellIdx := (commitRead mode n v s).cellIdx, bitOff := (commitRead mode n v s).bitOff
        rem := (commitRead mode n v s).rem, result := BitVec.ofNat 64 v, last := .ok } := by
  cases mode <;> rfl

theorem Completed.sameRun {s t : State} {i : Instr} (h : Completed s i t) : s.SameRun t := by
  cases h with
  | read => rw [commitRead_rest]; exact ⟨rfl, rfl, rfl, rfl, rfl, rfl, rfl⟩
  | write _ _ _ _ hs => rw [scatter_rest hs]; exact ⟨rfl, rfl, rfl, rfl, rfl, rfl, rfl⟩
  | _ => exact ⟨rfl, rfl, rfl, rfl, rfl, rfl, rfl⟩

theorem Completed.mem_of_not_write {s t : State} {i : Instr} (h : Completed s i t) (hi : ∀ v n, i ≠ .write v n) :
    t.mem = s.mem := by
  cases h with
  | read => rw [commitRead_rest]; rfl
  | write => exact absurd rfl (hi _ _)
  | _ => rfl

theorem Completed.sameBuffer {s t : State} {i : Instr} (h : Completed s i t) (hinit : ∀ b c, i ≠ .init b c)
    (hrelease : i ≠ .release) : s.SameBuffer t := by
  cases h with
  | init => exact absurd rfl (hinit _ _)
  | release => exact absurd rfl hrelease
  | read => rw [commitRead_rest]; exact ⟨rfl, rfl, rfl⟩
  | write _ _ _ _ hs => rw [scatter_rest hs]; exact ⟨rfl, rfl, rfl⟩
  | _ => exact ⟨rfl, rfl, rfl⟩

theorem exec_sameRun {i : Instr} {s t : State} (h : exec i s = .next t) : s.SameRun t :=
  (exec_next h).keeps (fun _ _ => ⟨rfl, rfl, rfl, rfl, rfl, rfl, rfl⟩) Completed.sameRun

/-- Memory is WRITE's alone (R150). -/
theorem exec_mem_of_not_write {i : Instr} {s t : State} (h : exec i s = .next t) (hi : ∀ v n, i ≠ .write v n) :
    t.mem = s.mem :=
  (exec_next h).keeps (P := fun t => t.mem = s.mem) (fun _ _ => rfl) fun ht => ht.mem_of_not_write hi

theorem exec_sameBuffer {i : Instr} {s t : State} (h : exec i s = .next t) (hinit : ∀ b c, i ≠ .init b c)
    (hrelease : i ≠ .release) : s.SameBuffer t :=
  (exec_next h).keeps (fun _ _ => ⟨rfl, rfl, rfl⟩) fun ht => ht.sameBuffer hinit hrelease

/-- Settles O46, from what a command that ends in `done(OK)` leaves alone. -/
theorem commandFrame : Obligations.CommandFrame := by
  intro i s t h
  obtain ⟨hcfg, hresponse, hpending, hk, hdraws, hbefore, hfreed⟩ := exec_sameRun h
  refine ⟨hcfg, hresponse, hpending, hk, hdraws, hbefore, hfreed, exec_mem_of_not_write h, fun hinit hrelease => ?_⟩
  obtain ⟨hbase, hvalid, hbuffer⟩ := exec_sameBuffer h hinit hrelease
  exact ⟨hbase, hvalid, hbuffer⟩

end Sys2Proof.Machine

/-! ## The registers and the invariant (10_state.md R20 to R35) -/

namespace Sys2Proof.Machine

/-! ### The STATUS word (R30) -/

/-- Four numbers packed at bits 0, 3, 4 and 5 stand in their fields (R30), and nothing stands above. -/
theorem packedStatus_fields : ∀ c < 8, ∀ valid fault ovr : Bool,
    let w := BitVec.ofNat 32 (c + 8 * valid.toNat + 16 * fault.toNat + 32 * ovr.toNat)
    (w.extractLsb' 0 3).toNat = c ∧ w.getLsbD 3 = valid ∧ w.getLsbD 4 = fault ∧ w.getLsbD 5 = ovr ∧
      w.extractLsb' 6 26 = 0 := by
  decide

theorem Last.code_lt (l : Last) : l.code < 8 := by cases l <;> decide

/-- Settles O7: `STATUS` packs the code of `LAST`, `VALID`, `FAULT` and `OVR`. -/
theorem statusWordFields : Obligations.StatusWordFields := by
  intro s
  obtain ⟨hlast, hvalid, hfault, hovr, hzero⟩ :=
    packedStatus_fields s.last.code s.last.code_lt s.valid s.fault s.ovr
  exact ⟨hlast.trans (by cases s.last <;> rfl), hvalid, hfault, hovr, hzero⟩

/-- Settles O8: the registers of `State.reset` are the values of R35. -/
theorem resetRegisterValues : Obligations.ResetRegisterValues :=
  ⟨rfl, rfl, rfl, rfl, rfl, rfl, rfl, rfl, rfl⟩

/-! ### States of the invariant, made and changed -/

/-- The invariant reads neither the outcome of the last command, nor the port, nor the host's side. -/
theorem State.Inv.unread {s : State} (h : s.Inv) {result : DWord} {last : Last} {fault faultedBefore : Bool}
    {response : Option Response} {trace : List Access} {pending : List HostEvent} {k draws : Nat}
    {freed : List Region} :
    State.Inv { s with
      result := result, last := last, fault := fault, faultedBefore := faultedBefore, response := response
      trace := trace, pending := pending, k := k, draws := draws, freed := freed } :=
  h.congr rfl rfl rfl rfl rfl rfl rfl rfl

/-- Without a cursor the invariant asks for legal parameters, canonical memory and cleared cursor registers (R35). -/
theorem State.Inv.of_idle {s : State} (hcfg : s.cfg.wf) (hwf : s.mem.wf) (hin : s.memInSpace)
    (hvalid : s.valid = false)
    (hidle : s.base = 0 ∧ s.cellIdx = 0 ∧ s.bitOff = 0 ∧ s.rem = 0 ∧ s.bufferFreed = false) : s.Inv where
  params := hcfg
  baseFits := by
    obtain ⟨hbase, -⟩ := hidle
    rw [hbase]
    exact Nat.two_pow_pos _
  offFits := by
    obtain ⟨-, -, hoff, -⟩ := hidle
    rw [hoff]
    exact s.w_pos
  memWf := hwf
  memIn := hin
  capLow hv := by simp [hvalid] at hv
  capHigh hv := by simp [hvalid] at hv
  fits hv := by simp [hvalid] at hv
  idle _ := hidle

/-- The reset state meets the invariant, whatever the parameters (R35). -/
theorem resetWith_inv {cfg : Config} (h : cfg.wf) : (State.resetWith cfg).Inv :=
  .of_idle h List.Pairwise.nil (by simp [State.resetWith]) rfl ⟨rfl, rfl, rfl, rfl, rfl⟩

/-- Settles O35: `State.reset` is the reset state of the parameters R8 gives. -/
theorem invariantHoldsAtReset : Obligations.InvariantHoldsAtReset :=
  resetWith_inv (cfg := .spec) (by decide)

theorem State.Inv.hardReset {s : State} (h : s.Inv) : (hardReset s).Inv :=
  .of_idle h.params h.memWf h.memIn rfl ⟨rfl, rfl, rfl, rfl, rfl⟩

theorem State.Inv.destroyCursor {s : State} (h : s.Inv) : (destroyCursor s).Inv :=
  .of_idle h.params h.memWf h.memIn rfl ⟨rfl, rfl, rfl, rfl, rfl⟩

/-- Without a cursor the buffer is empty, so it lies in the address space whether or not there is one (R50, R51). -/
theorem State.Inv.bufferInSpace {s : State} (h : s.Inv) : s.bufferFits := by
  cases hv : s.valid with
  | true => exact h.fits hv
  | false =>
    obtain ⟨hbase, hcell, hoff, hrem, -⟩ := h.idle hv
    have hw := s.w_pos
    have hcells : cellsFor s.cfg s.cap.toNat = 0 := by
      simp [State.cap, State.abs, State.remaining, hcell, hoff, hrem, cellsFor, Nat.div_eq_of_lt, hw]
    simp [State.bufferFits, hbase, hcells]

/-- A store to a cell of the address space keeps the invariant (R50). -/
theorem State.Inv.writeCell {s : State} (h : s.Inv) {a : Nat} (ha : a < s.cfg.space) (v : Nat) :
    State.Inv { s with mem := s.mem.writeCell s.cfg a v } :=
  h.withMem rfl (Memory.wf_writeCell _ _ h.memWf _ _) (Memory.inSpace_writeCell _ _ _ _ _ ha)

/-- So does a store to a host byte of it (R54). -/
theorem State.Inv.writeByte {s : State} (h : s.Inv) {a : Nat} (ha : a < s.cfg.space * s.cfg.width.bytes) (b : Byte) :
    State.Inv { s with mem := s.mem.writeByte a b } := by
  refine h.withMem rfl (Memory.wf_writeByte _ h.memWf _ _) fun hin c hc => ?_
  rcases Memory.mem_writeByte _ _ _ _ (List.mem_map_of_mem hc) with hnew | hold
  · exact hnew ▸ ha
  · obtain ⟨x, hx, hxc⟩ := List.mem_map.mp hold
    exact hxc ▸ hin x hx

theorem State.Inv.hostFree {s : State} (h : s.Inv) (r : Region) : (hostFree r s).Inv :=
  { h with
    idle := fun hv => by
      obtain ⟨hbase, hcell, hoff, hrem, hfreed⟩ := h.idle hv
      exact ⟨hbase, hcell, hoff, hrem, by simp [hfreed, show s.valid = false from hv]⟩ }

/-! ### The cursor INIT creates (R27, R100) -/

/-- The capacity of a new cursor is INIT's operand (R27). -/
theorem createCursor_cap (b : DWord) {c : Word} (s : State) (hc : c.toNat ≤ Config.capMax) :
    (createCursor b c s).cap = c.toNat := by
  have hrem : c.toInt = c.toNat := BitVec.toInt_eq_toNat_of_lt (by unfold Config.capMax at hc; omega)
  simp [State.cap, State.remaining, State.abs, hrem]

/-- A base inside the address space stands in `BASE` whole (R21). -/
theorem createCursor_base_toNat {b : DWord} (c : Word) {s : State} (hb : b.toNat < s.cfg.space) :
    (createCursor b c s).base.toNat = b.toNat := by
  simp [Nat.mod_eq_of_lt hb]

theorem State.Inv.createCursor {s : State} (h : s.Inv) {b : DWord} {c : Word} (hb : b.toNat < s.cfg.space)
    (hc : c.toNat ≤ Config.capMax) (hf : b.toNat + cellsFor s.cfg c.toNat ≤ s.cfg.space) :
    (createCursor b c s).Inv where
  params := h.params
  baseFits := by rw [createCursor_base_toNat c hb]; exact hb
  offFits := s.w_pos
  memWf := h.memWf
  memIn := h.memIn
  capLow _ := by rw [createCursor_cap b s hc]; omega
  capHigh _ := by rw [createCursor_cap b s hc]; exact_mod_cast hc
  fits _ := by
    rw [State.bufferFits, createCursor_cap b s hc, createCursor_base_toNat c hb]
    exact hf
  idle hv := by cases hv

/-! ### Commands over one buffer keep its capacity (R27, R28) -/

/-- `t` meets the invariant, over a buffer of the capacity that `s` has (R27, R28). -/
structure State.SameCapacity (s t : State) : Prop where
  inv : t.Inv
  cap : t.cap = s.cap

theorem State.SameCapacity.trans {s t u : State} (h : s.SameCapacity t) (h' : t.SameCapacity u) : s.SameCapacity u :=
  ⟨h'.inv, h'.cap.trans h.cap⟩

theorem State.Inv.sameCapacity_moveBy {s : State} (h : s.Inv) (hv : s.valid = true) {d : Int} (h0 : 0 ≤ s.abs + d)
    (hr : Config.remMin ≤ s.remaining - d) : s.SameCapacity (moveBy d s) := by
  obtain ⟨-, -, hcap⟩ := h.move hv h0 hr
  exact ⟨h.moved hv h0 hr, hcap⟩

theorem State.Inv.sameCapacity_loaded {s : State} (h : s.Inv) (n : Nat) : s.SameCapacity (s.loaded n) :=
  ⟨h.unread, rfl⟩

theorem State.SameCapacity.doneOk {s t : State} (h : s.SameCapacity t) : s.SameCapacity (doneOk t) :=
  ⟨h.inv.unread, h.cap⟩

theorem State.SameCapacity.setResult {s t : State} (h : s.SameCapacity t) (v : DWord) :
    s.SameCapacity (setResult v t) :=
  ⟨h.inv.unread, h.cap⟩

/-- The checks of a read or peek keep `REM` above its floor (R126, R129, R131). -/
theorem read_above_floor {s : State} {kind : ReadKind} {n : Nat}
    (ht : kind = .tolerant → ¬ (s.remaining < n ∧ s.remaining - n < Config.remMin))
    (hs : kind ≠ .tolerant → (n : Int) ≤ s.remaining) : Config.remMin ≤ s.remaining - n := by
  unfold Config.remMin at *
  by_cases hk : kind = .tolerant
  · have := ht hk; omega
  · have := hs hk; omega

theorem State.Inv.sameCapacity_commitRead {s : State} (h : s.Inv) (hv : s.valid = true) (mode : ReadMode) {n : Nat}
    (v : Nat) (hr : Config.remMin ≤ s.remaining - n) : s.SameCapacity (commitRead mode n v (s.loaded n)) := by
  have hl := h.sameCapacity_loaded n
  cases mode with
  | consume =>
    have h0 : (0 : Int) ≤ (s.loaded n).abs + n := by omega
    have hm := hl.trans (hl.inv.sameCapacity_moveBy hv h0 hr)
    exact (hm.setResult _).doneOk
  | peek => exact (hl.setResult _).doneOk

/-- A WRITE's run stays in the address space, and the move past it stays in the buffer (R150, R151). -/
theorem State.Inv.sameCapacity_write {s s1 : State} (h : s.Inv) (hv : s.valid = true) {n v : Nat}
    (hr : (n : Int) ≤ s.remaining) (hs : scatter s s.abs n v = .ok s1) : s.SameCapacity (moveBy n s1) := by
  have hsc := scatter_ok h.memWf hs
  have h1 : s1.Inv := h.withMem hsc.rest hsc.wf hsc.inSpace
  have hfloor : Config.remMin ≤ s.remaining - n := by unfold Config.remMin; omega
  obtain ⟨m, tr, rfl⟩ : ∃ m tr, s1 = { s with mem := m, trace := tr } := ⟨_, _, hsc.rest⟩
  have hm := h1.sameCapacity_moveBy hv (d := n) (by omega) hfloor
  exact ⟨hm.inv, hm.cap⟩

theorem Completed.sameCapacity {s t : State} {i : Instr} (h : Completed s i t) (hI : s.Inv)
    (hinit : ∀ b c, i ≠ .init b c) (hrelease : i ≠ .release) : s.SameCapacity t := by
  cases h with
  | init => exact absurd rfl (hinit _ _)
  | release => exact absurd rfl hrelease
  | move _ hv h0 hr =>
    have hge := s.remaining_ge
    exact (hI.sameCapacity_moveBy hv h0 (by unfold Config.remMin; omega)).doneOk
  | query => exact (State.SameCapacity.setResult ⟨hI, rfl⟩ _).doneOk
  | read _ hv _ ht hs => exact hI.sameCapacity_commitRead hv _ _ (read_above_floor ht hs)
  | write hv _ _ hr hs => exact (hI.sameCapacity_write hv hr hs).doneOk

/-- INIT ends in `done(OK)` with its operands checked and the cursor they name (R100). -/
theorem Completed.of_init {s t : State} {b : DWord} {c : Word} (h : Completed s (.init b c) t) :
    b.toNat < s.cfg.space ∧ c.toNat ≤ Config.capMax ∧ b.toNat + cellsFor s.cfg c.toNat ≤ s.cfg.space ∧
      t = doneOk (createCursor b c s) := by
  cases h with
  | init _ _ hb hc hf => exact ⟨hb, hc, hf, rfl⟩
  | move hm => cases hm
  | query hq => cases hq
  | read hi => cases hi

/-- RELEASE ends in `done(OK)` without a cursor (R101). -/
theorem Completed.of_release {s t : State} (h : Completed s .release t) : t = doneOk (destroyCursor s) := by
  cases h with
  | release => rfl
  | move hm => cases hm
  | query hq => cases hq
  | read hi => cases hi

/-- A command whose `LAST` is OK passed all its checks (R160, R165). -/
theorem Ended.completed_of_ok {s t : State} {i : Instr} (h : Ended s i t) (hok : t.last = .ok) : Completed s i t := by
  cases h with
  | faulted => cases hok
  | contract => cases hok
  | outOfBounds => cases hok
  | completed _ ht => exact ht

theorem Completed.inv {s t : State} {i : Instr} (h : Completed s i t) (hI : s.Inv) : t.Inv := by
  cases i with
  | init b c =>
    obtain ⟨hb, hc, hf, rfl⟩ := h.of_init
    exact (hI.createCursor hb hc hf).unread
  | release =>
    rw [h.of_release]
    exact hI.destroyCursor.unread
  | _ => exact (h.sameCapacity hI (by simp) (by simp)).inv

theorem exec_inv {i : Instr} {s t : State} (hI : s.Inv) (h : exec i s = .next t) : t.Inv :=
  (exec_next h).keeps (fun _ _ => hI.unread) fun ht => ht.inv hI

/-! ### The rules of VALID, RESULT and the capacity (R25, R27, R29) -/

/-- The commands but INIT and RELEASE are the cursor commands (R25). -/
theorem needsCursor_of_ne {i : Instr} (hinit : ∀ b c, i ≠ .init b c) (hrelease : i ≠ .release) :
    needsCursor i = true := by
  cases i with
  | init b c => exact absurd rfl (hinit b c)
  | release => exact absurd rfl hrelease
  | _ => rfl

/-- Settles O11, from check 3 of the prologue and from what INIT, RELEASE and the other commands leave in `VALID`. -/
theorem validGatesEveryCursorCommand : Obligations.ValidGatesEveryCursorCommand := by
  refine ⟨fun i s hinit hrelease hf hv => exec_of_noCursor hf (needsCursor_of_ne hinit hrelease) hv,
    fun b c s t h hok => ?_, fun s t h hok => ?_, fun i s t hinit hrelease h => (exec_sameBuffer h hinit hrelease).valid⟩
  · obtain ⟨-, -, -, rfl⟩ := ((exec_next h).completed_of_ok hok).of_init
    rfl
  · rw [((exec_next h).completed_of_ok hok).of_release]
    rfl

/-- A query or a read is what writes `RESULT`, and each returns a value (R29). -/
theorem Completed.result_of_no_value {s t : State} {i : Instr} (h : Completed s i t) (hi : returnsValue i = false) :
    t.result = s.result := by
  cases h with
  | query hq =>
    cases i with
    | getAlign | getPos | getRem => cases hi
    | _ => cases hq
  | read hr =>
    cases i with
    | init | skip | seek | align | getAlign | getPos | getRem | release | write => cases hr
    | _ => cases hi
  | write _ _ _ _ hs => rw [scatter_rest hs]; rfl
  | _ => rfl

/-- Settles O43: only a command that completes can write `RESULT`, and it must return a value. -/
theorem resultWrittenOnlyByValueCommands : Obligations.ResultWrittenOnlyByValueCommands := by
  intro i s t h hcase
  refine (exec_next h).keeps (P := fun t => t.result = s.result) (fun _ _ => rfl) fun ht => ?_
  exact ht.result_of_no_value (hcase.resolve_right fun hne => hne ht.last)

/-- Settles O44: INIT makes a cursor of its capacity, and a command over one buffer keeps it. -/
theorem capacityIsKept : Obligations.CapacityIsKept := by
  refine ⟨fun b c s t h hok => ?_, fun i s t hI _ hinit hrelease h => ?_⟩
  · obtain ⟨-, hc, -, rfl⟩ := ((exec_next h).completed_of_ok hok).of_init
    exact createCursor_cap b s hc
  · exact (exec_next h).keeps (P := fun t => t.cap = s.cap) (fun _ _ => rfl)
      fun ht => (ht.sameCapacity hI hinit hrelease).cap

end Sys2Proof.Machine

/-! ## Every step keeps the invariant (10_state.md R23, R28; 20_memory.md R50, R51) -/

namespace Sys2Proof.Machine

/-! ### A command's accesses are to the cells of its buffer (20_memory.md R56) -/

/-- What a write does to buffer cell `c` stays in the buffer. -/
theorem cellAccesses_in_buffer {s : State} {p k c : Nat} (m : Memory) (hc : c < cellsFor s.cfg s.cap.toNat) :
    accessesIn s (cellAccesses s.cfg s.base.toNat p k m c) := by
  intro x hx
  unfold cellAccesses at hx
  split at hx
  · obtain rfl := List.mem_singleton.mp hx
    exact ⟨c, hc, rfl⟩
  · rcases List.mem_pair.mp hx with rfl | rfl <;> exact ⟨c, hc, rfl⟩

/-- The cells of a run below the capacity are cells of the buffer (R51). -/
theorem cell_of_span_lt_cells {s : State} {p k i : Nat} (hcap : ((p + k : Nat) : Int) ≤ s.cap)
    (hi : i < cellSpan s.cfg.w p k) : p / s.cfg.w + i < cellsFor s.cfg s.cap.toNat := by
  have hw := s.w_pos
  have hcov := (cellSpan_covers s.cfg.w p k hw i hi).2
  have hq : (((p / s.cfg.w + i) * s.cfg.w : Nat) : Int) < s.cap := by omega
  simpa [Nat.mul_div_cancel _ hw] using State.Inv.div_lt_cells hq

/-- A scatter below the capacity stays in the buffer. -/
theorem Scattered.accesses_in_buffer {s t : State} {p k v : Nat}
    (h : Scattered s t p k v (p / s.cfg.w) (cellSpan s.cfg.w p k)) (hcap : ((p + k : Nat) : Int) ≤ s.cap) :
    ∃ l, t.trace = s.trace ++ l ∧ accessesIn s l := by
  refine ⟨_, h.accesses, fun x hx => ?_⟩
  obtain ⟨i, hi, hx⟩ := List.mem_flatMap.mp hx
  exact cellAccesses_in_buffer t.mem (cell_of_span_lt_cells hcap (List.mem_range.mp hi)) x hx

theorem accessesIn_nil (s : State) : accessesIn s [] := fun _ hx => nomatch hx

theorem Completed.accesses_in_buffer {s t : State} {i : Instr} (h : Completed s i t) (hwf : s.mem.wf) :
    ∃ l, t.trace = s.trace ++ l ∧ accessesIn s l := by
  cases h with
  | read =>
    rw [commitRead_rest]
    exact ⟨_, rfl, readsOf_in_buffer (s.realBits_le_cap _)⟩
  | write _ _ _ hr hs => exact (scatter_ok hwf hs).accesses_in_buffer (by unfold State.cap; omega)
  | _ => exact ⟨[], (List.append_nil _).symm, accessesIn_nil s⟩

theorem exec_accesses_in_buffer {i : Instr} {s t : State} (hwf : s.mem.wf) (h : exec i s = .next t) :
    ∃ l, t.trace = s.trace ++ l ∧ accessesIn s l :=
  (exec_next h).keeps (P := fun t => ∃ l, t.trace = s.trace ++ l ∧ accessesIn s l)
    (fun _ _ => ⟨[], (List.append_nil _).symm, accessesIn_nil s⟩) fun ht => ht.accesses_in_buffer hwf

/-! ### Command records (60_exceptions.md R165) -/

/-- Every way a command record can end in a next state. -/
inductive RecordEnded (r : Record) (s : State) : State → Prop
  | faulted {e : IllegalReason} (hd : decode r = .error e) (h : s.fault = true) : RecordEnded r s (refuseFaulted s)
  | illegal {e : IllegalReason} (hd : decode r = .error e) (h : s.fault = false) :
      RecordEnded r s (raiseFault (.illegal e) s)
  | command {i : Instr} {t : State} (hd : decode r = .ok i) (hlive : s.bufferLiveFor i) (h : exec i s = .next t) :
      RecordEnded r s t

theorem runRecord_next {r : Record} {s t : State} (h : runRecord r s = .next t) : RecordEnded r s t := by
  cases hd : decode r with
  | error e =>
    simp only [runRecord, hd, withPrologue] at h
    split at h
    · rename_i hf
      cases h
      exact .faulted hd hf
    · rename_i hf
      cases h
      exact .illegal hd (by simpa using hf)
  | ok i =>
    simp only [runRecord, hd] at h
    split at h
    · cases h
    · rename_i hduty
      exact .command hd (fun hn hv => by simpa [hn, hv] using hduty) h

/-- A record keeps what a write of `LAST` and `FAULT` keeps and its command, where it holds one, keeps. -/
theorem RecordEnded.keeps {P : State → Prop} {r : Record} {s t : State} (h : RecordEnded r s t)
    (hstatus : ∀ l f, P { s with last := l, fault := f }) (hexec : ∀ i, exec i s = .next t → P t) : P t := by
  cases h with
  | faulted => exact hstatus .faulted s.fault
  | illegal => exact hstatus .illegal true
  | command _ _ h => exact hexec _ h

theorem runRecord_inv {r : Record} {s t : State} (hI : s.Inv) (h : runRecord r s = .next t) : t.Inv :=
  (runRecord_next h).keeps (fun _ _ => hI.unread) fun _ => exec_inv hI

theorem runRecord_cfg {r : Record} {s t : State} (h : runRecord r s = .next t) : t.cfg = s.cfg :=
  (runRecord_next h).keeps (P := fun t => t.cfg = s.cfg) (fun _ _ => rfl) fun _ h => (exec_sameRun h).cfg

theorem runRecord_accesses_in_buffer {r : Record} {s t : State} (hwf : s.mem.wf) (h : runRecord r s = .next t) :
    ∃ l, t.trace = s.trace ++ l ∧ accessesIn s l :=
  (runRecord_next h).keeps (P := fun t => ∃ l, t.trace = s.trace ++ l ∧ accessesIn s l)
    (fun _ _ => ⟨[], (List.append_nil _).symm, accessesIn_nil s⟩) fun _ => exec_accesses_in_buffer hwf

/-! ### Commands as the host issues them (30_encoding.md R76; 20_memory.md R60; 70_reset_and_hazards.md R191) -/

theorem issueCommand_next {r : Record} {s t : State} (h : issueCommand r s = .next t) :
    ∃ u, runRecord r (beginCommand s) = .next u ∧ t = respond u := by
  unfold issueCommand at h
  split at h
  · rename_i u hu
    cases h
    exact ⟨u, hu, rfl⟩
  · cases h
  · cases h

theorem State.Inv.beginCommand {s : State} (h : s.Inv) : (beginCommand s).Inv :=
  h.unread

theorem State.Inv.respond {s : State} (h : s.Inv) : (respond s).Inv :=
  h.unread

theorem issueCommand_inv {r : Record} {s t : State} (hI : s.Inv) (h : issueCommand r s = .next t) : t.Inv := by
  obtain ⟨u, hu, rfl⟩ := issueCommand_next h
  exact (runRecord_inv hI.beginCommand hu).respond

/-- An abandoned command leaves the reset registers, the stores that landed, and the host's index moved on (R191). -/
theorem abandonCommand_next {r : Record} {s t : State} (h : abandonCommand r s = .next t) :
    ∃ u, runRecord r (beginCommand s) = .next u ∧
      t = { hardReset s with
        mem := landStores s.cfg u.trace s.draws s.mem, faultedBefore := t.faultedBefore, draws := t.draws, k := t.k } := by
  unfold abandonCommand at h
  split at h
  · rename_i u hu
    cases h
    exact ⟨u, hu, rfl⟩
  · cases h
  · cases h

/-- The stores of an abandoned command keep the invariant when their cells lie in the address space, whichever land. -/
theorem landStores_inv {s : State} {m : Memory} (l : List Access) (d : Nat)
    (hl : ∀ a v, Access.write a v ∈ l → a < s.cfg.space) (h : State.Inv { s with mem := m }) :
    State.Inv { s with mem := landStores s.cfg l d m } := by
  induction l generalizing d m with
  | nil => exact h
  | cons x l ih =>
    have htail : ∀ a v, Access.write a v ∈ l → a < s.cfg.space := fun a v hx => hl a v (List.mem_cons_of_mem _ hx)
    cases x with
    | read a => exact ih (d + 1) htail h
    | write a v =>
      refine ih (d + 1) htail ?_
      split
      · exact h.writeCell (hl a v List.mem_cons_self) v
      · exact h

theorem State.Inv.write_lt_space {s : State} (h : s.Inv) {l : List Access} (hl : accessesIn s l) {a v : Nat}
    (hx : Access.write a v ∈ l) : a < s.cfg.space := by
  obtain ⟨c, hc, ha⟩ := hl _ hx
  have hfits := h.bufferInSpace
  unfold State.bufferFits at hfits
  simp only at ha
  omega

theorem abandonCommand_inv {r : Record} {s t : State} (hI : s.Inv) (h : abandonCommand r s = .next t) : t.Inv := by
  obtain ⟨u, hu, ht⟩ := abandonCommand_next h
  obtain ⟨l, htrace, hl⟩ := runRecord_accesses_in_buffer hI.beginCommand.memWf hu
  have hin : ∀ a v, Access.write a v ∈ u.trace → a < s.cfg.space := fun a v hx =>
    hI.beginCommand.write_lt_space hl (by simpa [htrace] using hx)
  have hland : State.Inv { hardReset s with mem := landStores s.cfg u.trace s.draws s.mem } :=
    landStores_inv (s := hardReset s) _ _ hin hI.hardReset
  rw [ht]
  exact hland.unread

/-- A raced command runs between two rounds of stores, all of them to cells of the address space (R60). -/
theorem raceCommand_next {r : Record} {l : List CellStore} {s t : State} (h : raceCommand r l s = .next t) :
    (∀ st ∈ l, st.cell < s.cfg.space) ∧
    ∃ u, runRecord r { storesBefore l s.draws (beginCommand s) with draws := s.draws + l.length } = .next u ∧
      t = respond (storesAfter u.trace l s.draws u) := by
  unfold raceCommand at h
  split at h
  · cases h
  · rename_i hstray
    refine ⟨fun st hst => by simpa using List.find?_eq_none.mp hstray st hst, ?_⟩
    simp only at h
    split at h
    · rename_i u hu
      cases h
      exact ⟨u, hu, rfl⟩
    · cases h
    · cases h

theorem State.Inv.storeCellNow {s : State} (h : s.Inv) {st : CellStore} (hst : st.cell < s.cfg.space) :
    (storeCellNow st s).Inv :=
  h.writeCell hst _

theorem storesBefore_inv {s : State} (l : List CellStore) (d : Nat) (hl : ∀ st ∈ l, st.cell < s.cfg.space)
    (h : s.Inv) : (storesBefore l d s).Inv := by
  induction l generalizing d s with
  | nil => exact h
  | cons st l ih =>
    obtain ⟨hst, hl⟩ := List.forall_mem_cons.mp hl
    simp only [storesBefore]
    split
    · exact ih (d + 1) hl (h.storeCellNow hst)
    · exact ih (d + 1) hl h

theorem storesAfter_inv {s : State} (tr : List Access) (l : List CellStore) (d : Nat)
    (hl : ∀ st ∈ l, st.cell < s.cfg.space) (h : s.Inv) : (storesAfter tr l d s).Inv := by
  induction l generalizing d s with
  | nil => exact h
  | cons st l ih =>
    obtain ⟨hst, hl⟩ := List.forall_mem_cons.mp hl
    have hlands := ih (s := storeCellNow st s) (d + 1) hl (h.storeCellNow hst)
    have hlost := ih (d + 1) hl h
    simp only [storesAfter]
    split
    · exact hlost
    · split
      · exact hlost
      · exact hlands
    · exact hlands

theorem raceCommand_inv {r : Record} {l : List CellStore} {s t : State} (hI : s.Inv)
    (h : raceCommand r l s = .next t) : t.Inv := by
  obtain ⟨hl, u, hu, rfl⟩ := raceCommand_next h
  have hbefore : (storesBefore l s.draws (beginCommand s)).Inv := storesBefore_inv l _ hl hI.beginCommand
  have hcfg : u.cfg = s.cfg := by
    rw [runRecord_cfg hu]
    simp only
    rw [storesBefore_rest]
    rfl
  have hafter : u.Inv := by
    refine runRecord_inv ?_ hu
    exact hbefore.unread
  exact (storesAfter_inv _ l _ (by rwa [hcfg]) hafter).respond

/-! ### The host's events, and the step (R197, R199) -/

theorem hostStoreCell_inv {st : CellStore} {s t : State} (hI : s.Inv) (h : hostStoreCell st s = .next t) : t.Inv := by
  unfold hostStoreCell at h
  split at h
  · rename_i hst
    cases h
    exact hI.storeCellNow hst
  · cases h

theorem hostStoreByte_inv {a : Nat} {b : Byte} {s t : State} (hI : s.Inv) (h : hostStoreByte a b s = .next t) :
    t.Inv := by
  unfold hostStoreByte at h
  split at h
  · rename_i ha
    cases h
    exact hI.writeByte ha b
  · cases h

/-- A host load changes nothing (20_memory.md R63). -/
theorem hostLoadCell_next {a : Nat} {s t : State} (h : hostLoadCell a s = .next t) : t = s := by
  unfold hostLoadCell at h
  split at h <;> cases h
  rfl

theorem hostEvent_inv {e : HostEvent} {s t : State} (hI : s.Inv) (h : hostEvent e s = .next t) : t.Inv := by
  cases e with
  | command r => exact issueCommand_inv hI h
  | commandRaced r stores => exact raceCommand_inv hI h
  | commandThenReset r => exact abandonCommand_inv hI h
  | reset => cases h; exact hI.hardReset
  | storeCell st => exact hostStoreCell_inv hI h
  | storeByte a b => exact hostStoreByte_inv hI h
  | loadCell a => exact hostLoadCell_next h ▸ hI
  | free r => cases h; exact hI.hostFree r
  | allocate r => cases h; exact hI.unread
  | breach b => cases h

/-- A step waits, or takes the first event of the host's list (R192, R197). -/
theorem step_next {s t : State} (h : step s = .next t) :
    (s.pending = [] ∧ t = s) ∨
      ∃ e rest, s.pending = e :: rest ∧ hostEvent e { s with pending := rest } = .next t := by
  unfold step nextEvent at h
  split at h
  · rename_i hp
    cases h
    exact .inl ⟨hp, rfl⟩
  · rename_i e rest hp
    exact .inr ⟨e, rest, hp, h⟩

/-- Settles O36, from what each host event keeps. -/
theorem everyStepKeepsTheInvariant : Obligations.EveryStepKeepsTheInvariant := by
  intro s t hI h
  rcases step_next h with ⟨-, rfl⟩ | ⟨e, rest, -, he⟩
  · exact hI
  · exact hostEvent_inv (s := { s with pending := rest }) hI.unread he

end Sys2Proof.Machine

/-! ## Memory between commands and under a race (20_memory.md R54 to R60; 70_reset_and_hazards.md R193 to R199) -/

namespace Sys2Proof.Machine

/-- Settles O42, from what each way to end leaves on the memory port. -/
theorem accessesStayInTheBuffer : Obligations.AccessesStayInTheBuffer :=
  fun _ _ _ hI h => exec_accesses_in_buffer hI.memWf h

/-! ### The read of one whole cell (20_memory.md R53, 41_read.md R127) -/

/-- The `W` stream bits from the start of a cell make that cell's number (R53). -/
theorem State.streamValue_cell (s : State) (c : Nat) :
    s.streamValue (c * s.cfg.w) s.cfg.w = s.mem.readCell s.cfg (s.base.toNat + c) := by
  refine s.streamValue_unique _ _ _ (Memory.readCell_lt _ _ _) fun i hi => ?_
  have hcell : (c * s.cfg.w + i) / s.cfg.w = c := by
    rw [Nat.mul_comm, Nat.mul_add_div s.w_pos, Nat.div_eq_of_lt hi, Nat.add_zero]
  have hbit : (c * s.cfg.w + i) % s.cfg.w = i := by
    rw [Nat.mul_comm, Nat.mul_add_mod, Nat.mod_eq_of_lt hi]
  rw [State.streamBit, hcell, hbit]

/-- Where every bit is real a tolerant read has no tail of zeros (R124). -/
theorem State.tolerantValue_of_le {s : State} {n : Nat} (h : (n : Int) ≤ s.remaining) :
    s.tolerantValue n = s.streamValue s.abs n := by
  simp [State.tolerantValue, State.realBits_of_le h]

/-- With the cursor at the start of a cell a tolerant read of `W` real bits has that cell's number. -/
theorem State.tolerantValue_cell {s : State} (hoff : s.bitOff = 0) (hrem : (s.cfg.w : Int) ≤ s.remaining) :
    s.tolerantValue s.cfg.w = s.mem.readCell s.cfg (s.base.toNat + s.cellIdx.toNat) := by
  have habs : s.abs = s.cellIdx.toNat * s.cfg.w := by simp [State.abs, hoff]
  rw [State.tolerantValue_of_le hrem, habs, State.streamValue_cell]

/-- A `READ.W` of one whole cell ends OK with that cell in `RESULT` (R127). -/
theorem exec_readW_cell {s : State} (hR : s.Ready) (hoff : s.bitOff = 0) (hrem : (s.cfg.w : Int) ≤ s.remaining) :
    ∃ t, exec (.readW s.cfg.w) s = .next t ∧ t.last = .ok ∧
      t.result.toNat = s.mem.readCell s.cfg (s.base.toNat + s.cellIdx.toNat) := by
  have hw : s.cfg.w ≤ 32 := CellWidth_bits_le _
  have hfloor : Config.remMin ≤ s.remaining - s.cfg.w := by unfold Config.remMin; omega
  have hexec := read_answers hR.toInv (i := .readW s.cfg.w) rfl hR.noFault hR.cursor hw (by omega) fun _ => hrem
  obtain ⟨hresult, -⟩ := commitRead_consume hR.toInv hR.cursor _ _ hw (s.tolerantValue_lt _) hfloor
  exact ⟨_, hexec, rfl, hresult.trans (State.tolerantValue_cell hoff hrem)⟩

/-- The record of a whole-cell `READ.W` decodes to it, for each of the three widths (R71, R72). -/
theorem decode_encode_readW_cell (c : CellWidth) : decode (encode (.readW c.bits)) = .ok (.readW c.bits) := by
  cases c <;> rfl

/-! ### The host between commands (20_memory.md R54, 70_reset_and_hazards.md R195, R199) -/

/-- A step takes the event at the front of the host's list (log entry 7). -/
theorem step_of_pending {s : State} {e : HostEvent} {rest : List HostEvent} (h : s.pending = e :: rest) :
    step s = hostEvent e { s with pending := rest } := by
  simp [step, nextEvent, h]

/-- A command whose record keeps the host's duty of R193 is answered after its `exec` (R76). -/
theorem issueCommand_of_exec {r : Record} {i : Instr} {s t : State} (hd : decode r = .ok i)
    (hlive : s.bufferLiveFor i) (h : exec i (beginCommand s) = .next t) : issueCommand r s = .next (respond t) := by
  have hrun : runRecord r (beginCommand s) = .next t := (runRecord_of_live (s := beginCommand s) hd hlive).trans h
  simp [issueCommand, hrun]

/-- The whole-cell read as the next command (R58, R127). -/
theorem issueCommand_readW_cell {s : State} (hR : s.Ready) (hlive : s.bufferFreed = false) (hoff : s.bitOff = 0)
    (hrem : (s.cfg.w : Int) ≤ s.remaining) :
    ∃ t, issueCommand (encode (.readW s.cfg.w)) s = .next t ∧ t.last = .ok ∧
      t.result.toNat = s.mem.readCell s.cfg (s.base.toNat + s.cellIdx.toNat) := by
  have hbegin : (beginCommand s).Ready := ⟨hR.toInv.beginCommand, hR.noFault, hR.cursor⟩
  obtain ⟨t, hexec, hlast, hresult⟩ := exec_readW_cell hbegin hoff hrem
  exact ⟨respond t, issueCommand_of_exec (decode_encode_readW_cell _) (fun _ _ => hlive) hexec, hlast, hresult⟩

/-- Settles O52: the store is one write of memory, and the read that follows has the cell it wrote. -/
theorem hostStoreIsSeenByTheNextCommand : Obligations.HostStoreIsSeenByTheNextCommand := by
  intro st rest s hI hp hst
  have hsame := Memory.readCell_writeCell_same s.cfg s.mem hI.memWf st.cell st.value.toNat
  refine ⟨storeCellNow st { s with pending := rest }, ?_, hsame,
    fun a ha => Memory.readCell_writeCell_other _ _ hI.memWf _ ha, rfl,
    fun later hrest hf hv hlive hcell hoff hrem => ?_⟩
  · rw [step_of_pending hp]
    exact if_pos hst
  · have hR : State.Ready { storeCellNow st s with pending := later } := ⟨(hI.storeCellNow hst).unread, hf, hv⟩
    obtain ⟨u, hu, hok, hresult⟩ := issueCommand_readW_cell hR hlive hoff hrem
    refine ⟨u, (step_of_pending (s := storeCellNow st { s with pending := rest }) hrest).trans hu, hok, ?_⟩
    exact hresult.trans (hcell ▸ hsame)

/-- Whether two regions share a cell does not depend on their order. -/
theorem Region.overlaps_comm (r q : Region) : r.overlaps q = q.overlaps r := by
  simp only [Region.overlaps, max_comm, min_comm]

/-- Settles O53, a part for each of the host's four events. -/
theorem hostByteStoreLoadAndFree : Obligations.HostByteStoreLoadAndFree := by
  refine ⟨fun a b rest s hI hp ha => ?_, fun a rest s hp ha => ?_, fun r rest s hp => ?_, fun r rest s hp => ?_⟩
  · have hread := Memory.readByte_writeByte s.mem hI.memWf a
    refine ⟨{ s with pending := rest, mem := s.mem.writeByte a b }, ?_, (hread a b).trans (if_pos rfl),
      fun x hx => (hread x b).trans (if_neg hx), rfl⟩
    rw [step_of_pending hp]
    exact if_pos ha
  · rw [step_of_pending hp]
    exact if_pos ha
  · refine ⟨hostFree r { s with pending := rest }, step_of_pending hp, rfl, fun a => ?_, ?_⟩
    · rw [hostFree_freed, cellFreed_free, Region.covers_iff]
    · rw [hostFree_bufferFreed, Bool.or_eq_true, Bool.and_eq_true, Region.overlaps_comm, Region.overlaps_iff]
      simp only [Region.covers_iff]
      rfl
  · refine ⟨hostAllocate r { s with pending := rest }, step_of_pending hp, rfl, fun a => ?_⟩
    rw [hostAllocate_freed, cellFreed_allocate, Region.covers_iff]

/-! ### What a command leaves in the cells (20_memory.md R52, R58) -/

/-- What a command stores is what its port's trace says: each write it adds holds what its cell ends at, and a cell it
does not write is as it was. -/
structure StoresTraced (s t : State) (l : List Access) : Prop where
  trace   : t.trace = s.trace ++ l
  written : ∀ a v, Access.write a v ∈ l → t.mem.readCell s.cfg a = v
  kept    : ∀ a, (∀ v, Access.write a v ∉ l) → t.mem.readCell s.cfg a = s.mem.readCell s.cfg a

/-- The one write that `cellAccesses` has, with or without the load before it (R152). -/
theorem write_mem_cellAccesses {cfg : Config} {base p k c a v : Nat} {m : Memory} :
    Access.write a v ∈ cellAccesses cfg base p k m c ↔ a = base + c ∧ v = m.readCell cfg (base + c) := by
  unfold cellAccesses
  split <;> simp

/-- A scatter writes each cell of its run once, and no other (R151, R152). -/
theorem Scattered.storesTraced {s t : State} {p k v c cnt : Nat} (h : Scattered s t p k v c cnt) :
    StoresTraced s t ((List.range cnt).flatMap fun i => cellAccesses s.cfg s.base.toNat p k t.mem (c + i)) where
  trace := h.accesses
  written a v hw := by
    obtain ⟨i, -, hw⟩ := List.mem_flatMap.mp hw
    obtain ⟨rfl, rfl⟩ := write_mem_cellAccesses.mp hw
    rfl
  kept a hnot := by
    refine h.cells a ?_
    by_contra hin
    have hcell : a = s.base.toNat + (c + (a - s.base.toNat - c)) := by omega
    have hw := write_mem_cellAccesses (cfg := s.cfg) (p := p) (k := k) (m := t.mem).mpr ⟨hcell, rfl⟩
    exact hnot _ (List.mem_flatMap.mpr ⟨_, List.mem_range.mpr (by omega), hw⟩)

/-- Nothing is stored where memory stays and the trace gains no write. -/
theorem StoresTraced.of_reads {s t : State} {l : List Access} (htrace : t.trace = s.trace ++ l) (hmem : t.mem = s.mem)
    (hl : ∀ a v, Access.write a v ∉ l) : StoresTraced s t l :=
  ⟨htrace, fun a v hw => absurd hw (hl a v), fun _ _ => by rw [hmem]⟩

theorem Completed.storesTraced {s t : State} {i : Instr} (h : Completed s i t) (hwf : s.mem.wf) :
    ∃ l, StoresTraced s t l := by
  cases h with
  | read =>
    rw [commitRead_rest]
    exact ⟨_, .of_reads rfl rfl (by simp [readsOf])⟩
  | write _ _ _ _ hs =>
    obtain ⟨htrace, hwritten, hkept⟩ := (scatter_ok hwf hs).storesTraced
    exact ⟨_, htrace, hwritten, hkept⟩
  | _ => exact ⟨[], .of_reads (List.append_nil _).symm rfl (by simp)⟩

theorem StoresTraced.of_status (s : State) (l : Last) (f : Bool) :
    StoresTraced s { s with last := l, fault := f } [] :=
  .of_reads (List.append_nil _).symm rfl (by simp)

theorem runRecord_storesTraced {r : Record} {s t : State} (hwf : s.mem.wf) (h : runRecord r s = .next t) :
    ∃ l, StoresTraced s t l :=
  (runRecord_next h).keeps (P := fun t => ∃ l, StoresTraced s t l) (fun l f => ⟨[], .of_status s l f⟩) fun _ hexec =>
    (exec_next hexec).keeps (P := fun t => ∃ l, StoresTraced s t l) (fun l f => ⟨[], .of_status s l f⟩)
      fun ht => ht.storesTraced hwf

theorem runRecord_sameRun {r : Record} {s t : State} (h : runRecord r s = .next t) : s.SameRun t :=
  (runRecord_next h).keeps (fun _ _ => ⟨rfl, rfl, rfl, rfl, rfl, rfl, rfl⟩) fun _ => exec_sameRun

/-! ### Raced commands (20_memory.md R60, 70_reset_and_hazards.md R196) -/

/-- The state a raced command runs in: the agents' early stores are done, and their draws taken (log entry 10). -/
def raceEntry (l : List CellStore) (s : State) : State :=
  { storesBefore l s.draws (beginCommand s) with draws := s.draws + l.length }

theorem raceEntry_rest (l : List CellStore) (s : State) :
    raceEntry l s = { s with trace := [], mem := (raceEntry l s).mem, draws := s.draws + l.length } := by
  unfold raceEntry
  rw [storesBefore_rest]
  rfl

@[simp] theorem raceEntry_cfg (l : List CellStore) (s : State) : (raceEntry l s).cfg = s.cfg := by
  rw [raceEntry_rest]

@[simp] theorem raceEntry_trace (l : List CellStore) (s : State) : (raceEntry l s).trace = [] := by
  rw [raceEntry_rest]

@[simp] theorem raceEntry_k (l : List CellStore) (s : State) : (raceEntry l s).k = s.k := by
  rw [raceEntry_rest]

theorem raceEntry_inv {l : List CellStore} {s : State} (hl : ∀ st ∈ l, st.cell < s.cfg.space) (hI : s.Inv) :
    (raceEntry l s).Inv :=
  (storesBefore_inv (s := beginCommand s) l s.draws hl hI.beginCommand).unread

/-- A raced command finds in a cell an agent's value, or the old value where each agent's store comes later. -/
theorem raceEntry_cell (l : List CellStore) {s : State} (hwf : s.mem.wf) (a : Nat) :
    (∃ st ∈ l, st.cell = a ∧ (raceEntry l s).mem.readCell s.cfg a = st.value.toNat % 2 ^ s.cfg.w) ∨
    ((raceEntry l s).mem.readCell s.cfg a = s.mem.readCell s.cfg a ∧
      ∀ i (hi : i < l.length), l[i].cell = a → Config.raceOrder (s.draws + i) ≠ .before) :=
  storesBefore_cell l s.draws a (s := beginCommand s) hwf

/-- A raced command `r` that ends in `u` leaves in a cell an agent's value, one of its own values, or the old value,
the latter only where neither stored to the cell. -/
theorem raced_cell {r : Record} {l : List CellStore} {s u : State} (hl : ∀ st ∈ l, st.cell < s.cfg.space) (hI : s.Inv)
    (hu : runRecord r (raceEntry l s) = .next u) (a : Nat) :
    let final := (storesAfter u.trace l s.draws u).mem.readCell s.cfg a
    (∃ st ∈ l, st.cell = a ∧ final = st.value.toNat % 2 ^ s.cfg.w) ∨
    (∃ v, Access.write a v ∈ u.trace ∧ final = v) ∨
    ((∀ st ∈ l, st.cell ≠ a) ∧ (∀ v, Access.write a v ∉ u.trace) ∧ final = s.mem.readCell s.cfg a) := by
  have hentry := raceEntry_inv hl hI
  have hcfg : u.cfg = s.cfg := (runRecord_sameRun hu).cfg.trans (raceEntry_cfg l s)
  obtain ⟨tr, htrace, hwritten, hkept⟩ := runRecord_storesTraced hentry.memWf hu
  obtain rfl : u.trace = tr := by simpa using htrace
  rw [raceEntry_cfg] at hwritten hkept
  rcases hcfg ▸ storesAfter_cell l s.draws a (runRecord_inv hentry hu).memWf u.trace with hagent | ⟨hfinal, hearly⟩
  · exact .inl hagent
  by_cases hw : ∃ v, Access.write a v ∈ u.trace
  · obtain ⟨v, hv⟩ := hw
    exact .inr (.inl ⟨v, hv, hfinal.trans (hwritten a v hv)⟩)
  have hnot : ∀ v, Access.write a v ∉ u.trace := not_exists.mp hw
  have hseen := hfinal.trans (hkept a hnot)
  rcases raceEntry_cell l hI.memWf a with ⟨st, hst, hcell, hvalue⟩ | ⟨hold, hlate⟩
  · exact .inl ⟨st, hst, hcell, hseen.trans hvalue⟩
  · refine .inr (.inr ⟨fun st hst hcell => ?_, hnot, hseen.trans hold⟩)
    obtain ⟨i, hi, rfl⟩ := List.getElem_of_mem hst
    exact (hearly i hi hcell).elim (hlate i hi hcell) hw

/-- A raced command's response is that of its own run, for the late stores touch memory alone (R60, R76). -/
theorem respond_storesAfter {u : State} (l : List CellStore) (d : Nat) :
    respond (storesAfter u.trace l d u) =
      { u with mem := (storesAfter u.trace l d u).mem, response := some ⟨u.status, u.result⟩, k := u.k + 1 } := by
  rw [storesAfter_rest]
  rfl

/-- Settles O54: the command runs on the memory its early stores leave, and its late stores end the race. -/
theorem racedCellsHoldOneOfTheValues : Obligations.RacedCellsHoldOneOfTheValues := by
  intro r l rest s t hI hp h
  rw [step_of_pending hp] at h
  obtain ⟨hl, u, hu, rfl⟩ := raceCommand_next (s := { s with pending := rest }) h
  have hI' : State.Inv { s with pending := rest } := hI.unread
  have hk : u.k = s.k := (runRecord_sameRun hu).k.trans (raceEntry_k l _)
  have hentry := raceEntry_rest l { s with pending := rest }
  refine ⟨(raceEntry l { s with pending := rest }).mem, u, fun a => ?_, hentry ▸ hu, ?_, fun a htouched => ?_,
    fun a hstores hwrites => ?_⟩
  · rcases raceEntry_cell l hI'.memWf a with hagent | ⟨hold, -⟩
    · exact .inr hagent
    · exact .inl hold
  · rw [respond_storesAfter, hk]
  · rcases raced_cell hl hI' hu a with hagent | hcommand | ⟨hstores, hwrites, -⟩
    · exact .inl hagent
    · exact .inr hcommand
    · rcases htouched with ⟨st, hst, hcell⟩ | ⟨v, hv⟩
      · exact absurd hcell (hstores st hst)
      · exact absurd hv (hwrites v)
  · rcases raced_cell hl hI' hu a with ⟨st, hst, hcell, -⟩ | ⟨v, hv, -⟩ | ⟨-, -, hold⟩
    · exact absurd hcell (hstores st hst)
    · exact absurd hv (hwrites v)
    · exact hold

end Sys2Proof.Machine

/-! ## The encoding of the commands and their answer (30_encoding.md R70 to R77) -/

namespace Sys2Proof

/-! ### The opcode map, from a command's side (R72, R74) -/

/-- The operands of `i` are the record fields that R74 names for it, unscaled. -/
def Instr.OperandsFrom (i : Instr) (n : Nat) (arg0 : DWord) (arg1 : Word) : Prop :=
  match i with
  | .init b c => b = arg0 ∧ c = arg1
  | .skip d => d = arg0
  | .seek a => a = arg0
  | .align | .getAlign | .getPos | .getRem | .release => True
  | .readW m | .readN m | .freadW m | .freadN m | .sreadW m | .sreadN m
  | .peekW m | .peekN m | .fpeekW m | .fpeekN m | .speekW m | .speekN m => m = n
  | .write v m => v = arg1 ∧ m = n

/-- The opcode map finds a command exactly under its one opcode, its operands in the fields of R74. -/
theorem opcodeMap_eq_some_iff {opc n : Nat} {arg0 : DWord} {arg1 : Word} {i : Instr} :
    opcodeMap opc n arg0 arg1 = some i ↔ opc = i.opcode ∧ i.OperandsFrom n arg0 arg1 := by
  constructor
  · intro h
    unfold opcodeMap at h
    split at h <;> cases h <;> simp [Instr.opcode, Instr.OperandsFrom]
  · rintro ⟨rfl, h⟩
    cases i <;> simp_all [Instr.opcode, Instr.OperandsFrom, opcodeMap]

/-- The operands an encoder writes stand in the fields of R74 (R78). -/
theorem Instr.operandsFrom_encoded (i : Instr) : i.OperandsFrom (i.count.getD 0) i.arg0 i.arg1 := by
  cases i <;> simp [Instr.OperandsFrom, Instr.count, Instr.arg0, Instr.arg1]

theorem Instr.OperandsFrom.count {i : Instr} {n : Nat} {arg0 : DWord} {arg1 : Word}
    (h : i.OperandsFrom n arg0 arg1) : i.count = none ∨ i.count = some n := by
  cases i <;> simp_all [Instr.OperandsFrom, Instr.count]

/-- The opcodes without a command (R72, R75 item 1). -/
theorem opcodeMap_eq_none_iff {opc n : Nat} {arg0 : DWord} {arg1 : Word} :
    opcodeMap opc n arg0 arg1 = none ↔
      opc ∉ [0x01, 0x02, 0x03, 0x04, 0x05, 0x06, 0x07, 0x08, 0x10, 0x11, 0x12, 0x13, 0x14, 0x15,
        0x18, 0x19, 0x1A, 0x1B, 0x1C, 0x1D, 0x20] := by
  unfold opcodeMap
  split <;> simp_all

/-- The opcodes of the commands without a count (R72, R75 item 3). -/
theorem opcodeMap_countless_iff {opc n : Nat} {arg0 : DWord} {arg1 : Word} :
    (∃ i, opcodeMap opc n arg0 arg1 = some i ∧ i.count = none) ↔
      opc ∈ [0x01, 0x02, 0x03, 0x04, 0x05, 0x06, 0x07, 0x08] := by
  constructor
  · rintro ⟨i, h, hcount⟩
    obtain ⟨rfl, -⟩ := opcodeMap_eq_some_iff.mp h
    cases i <;> simp_all [Instr.opcode, Instr.count]
  · simp only [List.mem_cons, List.not_mem_nil, or_false]
    rintro (rfl | rfl | rfl | rfl | rfl | rfl | rfl | rfl) <;> exact ⟨_, rfl, rfl⟩

/-! ### What decodes and what does not (R71, R75) -/

/-- A record decodes to `i` exactly when it carries the opcode and the operands of `i`, and zero in `RSV` and, where
`i` has no count, in `N`. -/
theorem decode_eq_ok_iff {r : Record} {i : Instr} :
    decode r = .ok i ↔
      (r.opc = i.opcode ∧ i.OperandsFrom r.n r.arg0 r.arg1) ∧ r.rsv = 0 ∧ (i.count = none → r.n = 0) := by
  rw [← opcodeMap_eq_some_iff]
  refine ⟨decode_ok, fun ⟨hmap, hrsv, hcount⟩ => ?_⟩
  simpa [decode, hmap, hrsv] using hcount

/-- The three ways a record can be illegal (R75). -/
theorem decode_eq_error_iff {r : Record} :
    (∃ e, decode r = .error e) ↔
      opcodeMap r.opc r.n r.arg0 r.arg1 = none ∨ r.rsv ≠ 0 ∨
        ((∃ i, opcodeMap r.opc r.n r.arg0 r.arg1 = some i ∧ i.count = none) ∧ r.n ≠ 0) := by
  fun_cases decode r with
  | case1 hmap => simp [hmap]
  | case2 i hmap hrsv => simp [hrsv]
  | case3 i hmap hrsv hcount => simp [hmap, hcount]
  | case4 i hmap hrsv hcount => simpa [hmap, hrsv] using hcount

/-- A word with `RSV = 0` is its `N` above its opcode (R71). -/
theorem Record.packCmd_opc_n {r : Record} (hrsv : r.rsv = 0) : packCmd r.opc r.n = r.cmd := by
  rw [Record.rsv_eq] at hrsv
  apply BitVec.eq_of_toNat_eq
  rw [packCmd_toNat _ _ (by rw [Record.n_eq]; omega) (by rw [Record.opc_eq]; omega), Record.opc_eq, Record.n_eq]
  omega

/-! ### Decode and encode, and the fields of the record -/

/-- Settles O1: the encoder writes the fields the opcode map reads. -/
theorem decodeOfEncodeIsTheCommand : Obligations.DecodeOfEncodeIsTheCommand := by
  intro i hi
  obtain ⟨hopc, hn, hrsv⟩ := Laws.EncodedFields.ofWellFormed i hi
  refine decode_eq_ok_iff.mpr ⟨⟨hopc, ?_⟩, hrsv, fun hcount => ?_⟩
  · rw [hn]
    exact i.operandsFrom_encoded
  · rw [hn, hcount]
    rfl

/-- Settles O2: with `RSV = 0` the word is its opcode and its `N`, and those are the command's. -/
theorem encodeOfDecodeIsTheWord : Obligations.EncodeOfDecodeIsTheWord := by
  intro r i h
  obtain ⟨⟨hopc, hoperands⟩, hrsv, hzero⟩ := decode_eq_ok_iff.mp h
  have hn : r.n < 64 := by rw [Record.n_eq]; omega
  rw [← r.packCmd_opc_n hrsv, hopc]
  rcases hoperands.count with hcount | hcount
  · simp [encode, Instr.wellFormed, hcount, hzero hcount]
  · simp [encode, Instr.wellFormed, hcount, hn]

/-- Settles O4, by the sixteen opcodes of the group. -/
theorem readGroupFieldsAgreeWithOpcodeMap : Obligations.ReadGroupFieldsAgreeWithOpcodeMap := by
  intro opc n a0 a1 hgroup
  have hlow : 16 ≤ opc := by omega
  have hhigh : opc ≤ 31 := by omega
  interval_cases opc <;> rfl

/-- Settles O5: `OperandsFrom` names the fields, and the fields it does not name can hold anything. -/
theorem operandsComeFromTheRecord : Obligations.OperandsComeFromTheRecord := by
  intro r i h
  obtain ⟨⟨hopc, hoperands⟩, hrsv, hcount⟩ := decode_eq_ok_iff.mp h
  refine ⟨?_, fun a0 a1 hsame => decode_eq_ok_iff.mpr ⟨⟨hopc, ?_⟩, hrsv, hcount⟩⟩
  · rw [← r.n_eq]
    cases i <;> exact hoperands
  · show i.OperandsFrom r.n a0 a1
    cases i <;> simp_all [Instr.OperandsFrom]

/-- Settles O6: the decoder reads the eight words. -/
theorem specWordsDecode : Obligations.SpecWordsDecode :=
  ⟨rfl, rfl, rfl, rfl, rfl, rfl, rfl, rfl⟩

end Sys2Proof

namespace Sys2Proof.Machine

/-! ### Illegal words and the answer to a record (R75, R76; 60_exceptions.md R165, R167) -/

/-- An illegal word is check 2 of the prologue, after the sticky fault (R165). -/
theorem runRecord_of_illegal {r : Record} {e : IllegalReason} (hd : decode r = .error e) (s : State) :
    runRecord r s = withPrologue s (.next (raiseFault (.illegal e) s)) := by
  simp [runRecord, hd]

/-- No command that decodes raises ILLEGAL (R167). -/
theorem Ended.last_ne_illegal {s t : State} {i : Instr} (h : Ended s i t) : t.last ≠ .illegal := by
  cases h with
  | faulted => simp
  | contract => simp [faultCode]
  | outOfBounds => simp
  | completed _ ht => simp [ht.last]

/-- Settles O3: R75's list by the opcode map, its effect by check 2 of the prologue, and no other source of ILLEGAL by
the ways a command can end. -/
theorem illegalCommandWordsExactly : Obligations.IllegalCommandWordsExactly := by
  refine ⟨fun r => ?_, fun r s e hd hf => ?_, fun i s t h => (exec_next h).last_ne_illegal⟩
  · rw [decode_eq_error_iff, opcodeMap_eq_none_iff, opcodeMap_countless_iff, r.opc_eq, r.n_eq, r.rsv_eq]
  · simp [runRecord_of_illegal hd, withPrologue, hf, raiseFault, faultCode]

/-- Settles O48: what a step adds to `exec` is the response. -/
theorem stepRunsTheDecodedCommand : Obligations.StepRunsTheDecodedCommand := by
  intro r i rest s t hp hd hlive h
  rw [step_of_pending hp]
  exact issueCommand_of_exec (s := { s with pending := rest }) hd hlive h

/-- A record that keeps the host's duty of R193 answers in every state that meets the invariant. -/
theorem runRecord_total {r : Record} {s : State} (hI : s.Inv) (hlive : ∀ i, decode r = .ok i → s.bufferLiveFor i) :
    ∃ t, runRecord r s = .next t := by
  cases hd : decode r with
  | error e =>
    rw [runRecord_of_illegal hd, withPrologue]
    split <;> exact ⟨_, rfl⟩
  | ok i =>
    rw [runRecord_of_live hd (hlive i hd)]
    exact exec_total i hI

/-- Settles O49: every record that keeps the duty runs, its run leaves the host's side alone, and the response follows. -/
theorem everyCommandIsAnswered : Obligations.EveryCommandIsAnswered := by
  intro r rest s hI hp hlive
  have hbegin : (beginCommand { s with pending := rest }).Inv := hI.unread
  obtain ⟨u, hu⟩ := runRecord_total hbegin hlive
  have hrun := runRecord_sameRun hu
  refine ⟨respond u, ?_, rfl, congrArg (· + 1) hrun.k, hrun.pending⟩
  rw [step_of_pending hp]
  simp [hostEvent, issueCommand, hu]

end Sys2Proof.Machine

/-! ## The cursor's life, its moves and its queries (40_positioning.md R100 to R109) -/

namespace Sys2Proof.Machine

/-- The record of a command without a count: `CMD` is its opcode alone (R71, R78). -/
theorem encode_countless {i : Instr} (h : i.count = none) : encode i = ⟨BitVec.ofNat 32 i.opcode, i.arg0, i.arg1⟩ := by
  simp [encode, packCmd, h, Nat.mod_eq_of_lt i.opcode_lt]

theorem withPrologue_passes {s : State} {body : Answer} (hf : s.fault = false) : withPrologue s body = body := by
  simp [withPrologue, hf]

/-! ### INIT and RELEASE (R100, R101) -/

/-- Past the prologue INIT is its three operand checks in order, then the cursor (R100). -/
theorem exec_init {s : State} (b : DWord) (c : Word) (hf : s.fault = false) :
    exec (.init b c) s =
      if s.cfg.space ≤ b.toNat then violate .badBase s
      else if Config.capMax < c.toNat then violate .capTooLarge s
      else if s.cfg.space < b.toNat + cellsFor s.cfg c.toNat then violate .bufferWraps s
      else .next (doneOk (createCursor b c s)) :=
  withPrologue_passes hf

/-- A new cursor has all its bits left (R24, R100). -/
theorem createCursor_remaining (b : DWord) {c : Word} (s : State) (hc : c.toNat ≤ Config.capMax) :
    (createCursor b c s).remaining = c.toNat :=
  BitVec.toInt_eq_toNat_of_lt (x := c) (by unfold Config.capMax at hc; omega)

theorem State.ovr_of_nonneg {s : State} (h : 0 ≤ s.remaining) : s.ovr = false := by
  simp [State.ovr, h]

/-- The cursor of a checked INIT: all of the new state but the note `bufferFreed` (R21, R100). -/
theorem createCursor_eq {s : State} {b : DWord} (c : Word) (hb : b.toNat < s.cfg.space) :
    createCursor b c s = { s with
      base := b, cellIdx := 0, bitOff := 0, rem := c, valid := true
      bufferFreed := (createCursor b c s).bufferFreed } := by
  have hbase : (createCursor b c s).base = b := BitVec.eq_of_toNat_eq (createCursor_base_toNat c hb)
  calc createCursor b c s
      = { s with
          base := (createCursor b c s).base, cellIdx := 0, bitOff := 0, rem := c, valid := true
          bufferFreed := (createCursor b c s).bufferFreed } := rfl
    _ = _ := by rw [hbase]

/-- INIT notes exactly whether the host has freed a cell of the buffer it names (log entry 11). -/
theorem createCursor_bufferFreed_iff {s : State} {b : DWord} (c : Word) (hb : b.toNat < s.cfg.space) :
    (createCursor b c s).bufferFreed = true ↔
      ∃ j, j < cellsFor s.cfg c.toNat ∧ cellFreed s.freed (b.toNat + j) = true := by
  rw [createCursor_bufferFreed, regionFreed_iff, Nat.mod_eq_of_lt hb]

/-- Settles O12: each operand check decides in its turn, and the commit is `createCursor`. -/
theorem initCreatesTheCursor : Obligations.InitCreatesTheCursor := by
  intro b c s
  refine ⟨encode_countless rfl, prologued fun hf _ => ?_⟩
  rw [exec_init b c hf]
  refine ⟨fun hb => if_pos hb, fun hb hc => ?_, fun hb (hc : c.toNat ≤ Config.capMax) hw => ?_,
    fun hb (hc : c.toNat ≤ Config.capMax) hw => ?_⟩
  · rw [if_neg (not_le.mpr hb)]
    exact if_pos hc
  · rw [if_neg (not_le.mpr hb), if_neg (not_lt.mpr hc)]
    exact if_pos hw
  · rw [if_neg (not_le.mpr hb), if_neg (not_lt.mpr hc)]
    have hrem := createCursor_remaining b s hc
    exact ⟨doneOk (createCursor b c s), if_neg (not_lt.mpr hw), hrem,
      State.ovr_of_nonneg (s := createCursor b c s) (by omega), congrArg doneOk (createCursor_eq c hb),
      createCursor_bufferFreed_iff c hb⟩

/-- Past the prologue RELEASE has no check of its own (R101). -/
theorem exec_release {s : State} (hf : s.fault = false) : exec .release s = .next (doneOk (destroyCursor s)) :=
  withPrologue_passes hf

/-- Where there is no cursor, there is none to destroy: its registers are 0 already (R35, R101). -/
theorem destroyCursor_of_idle {s : State} (h : s.Inv) (hv : s.valid = false) : destroyCursor s = s := by
  obtain ⟨hbase, hcell, hoff, hrem, hfreed⟩ := h.idle hv
  cases s
  simp_all [destroyCursor]

/-- Settles O13: RELEASE always commits `destroyCursor`, which without a cursor changes nothing. -/
theorem releaseEndsTheCursor : Obligations.ReleaseEndsTheCursor := by
  intro s
  refine ⟨encode_countless rfl, prologued fun hf _ => ⟨exec_release hf, fun hI hv => ?_⟩⟩
  rw [exec_release hf, destroyCursor_of_idle hI hv]
  rfl

/-! ### A move of the cursor is exact (R102, R104, R105, R110) -/

/-- A move that takes no more bits than remain keeps `REM` above its floor (R24). -/
theorem move_above_floor {s : State} {d : Int} (hr : 0 ≤ d → d ≤ s.remaining) : Config.remMin ≤ s.remaining - d := by
  have hge := s.remaining_ge
  unfold Config.remMin
  omega

/-- A positioning command that ends OK moved `ABS` by `d` and `REM` by `−d`, and changed nothing else but `LAST`. -/
theorem State.Inv.positioned {s : State} (h : s.Inv) (hv : s.valid = true) {d : Int} (h0 : 0 ≤ s.abs + d)
    (hr : 0 ≤ d → d ≤ s.remaining) :
    let t := doneOk (moveBy d s)
    (t.abs : Int) = s.abs + d ∧ t.bitOff.toNat < s.cfg.w ∧ t.remaining = s.remaining - d ∧
      t = { s with cellIdx := t.cellIdx, bitOff := t.bitOff, rem := t.rem, last := .ok } := by
  obtain ⟨habs, hrem, -⟩ := h.move hv h0 (move_above_floor hr)
  exact ⟨habs, bitOff_setPos_lt s _, hrem, rfl⟩

/-- The skip of SKIP and ALIGN as one condition: past the end of the bits, or below position 0 (R102). -/
theorem skipBy_eq (s : State) (d : Int) :
    skipBy d s = .next (if (0 ≤ d ∧ s.remaining < d) ∨ (d < 0 ∧ s.abs + d < 0) then failOutOfBounds s
      else doneOk (moveBy d s)) := by
  unfold skipBy
  by_cases hfwd : 0 ≤ d ∧ s.remaining < d
  · rw [if_pos hfwd, if_pos (.inl hfwd)]
  · rw [if_neg hfwd]
    by_cases hback : d < 0 ∧ s.abs + d < 0
    · rw [if_pos hback, if_pos (.inr hback)]
    · rw [if_neg hback, if_neg (not_or.mpr ⟨hfwd, hback⟩)]

section
variable {s : State} (hf : s.fault = false) (hv : s.valid = true)
include hf hv

theorem exec_skip (d : DWord) : exec (.skip d) s = skipBy d.toInt s := withCursor_passes hf hv

theorem exec_align : exec .align s = skipBy s.alignBits s := withCursor_passes hf hv

/-- OutOfBounds of SEEK (R104). -/
theorem seek_outOfBounds {a : DWord} (h : s.remaining - ((a.toNat : Int) - s.abs) < 0) :
    exec (.seek a) s = .next (failOutOfBounds s) :=
  (withCursor_passes hf hv).trans (if_pos h)

end

/-- Settles O14: SKIP is the skip of R102, and a move within its bounds is exact. -/
theorem skipMovesOrFailsOutOfBounds : Obligations.SkipMovesOrFailsOutOfBounds := by
  intro d s hI
  refine ⟨encode_countless rfl, prologued fun hf hcursor => ?_⟩
  have hv := hcursor rfl
  rw [exec_skip hf hv, skipBy_eq]
  refine ⟨fun hfail => by rw [if_pos hfail]; rfl, fun hok => ?_⟩
  rw [if_neg hok]
  exact ⟨_, rfl, hI.positioned hv (by omega) (by omega)⟩

/-- Settles O16: SEEK is a move by the difference of the positions, and `CAP` is `REM + ABS`. -/
theorem seekMovesOrFailsOutOfBounds : Obligations.SeekMovesOrFailsOutOfBounds := by
  intro a s hI
  refine ⟨encode_countless rfl, prologued fun hf hcursor => ?_⟩
  have hv := hcursor rfl
  refine ⟨fun hfail => seek_outOfBounds hf hv hfail, fun hok => ?_, by unfold State.cap; omega⟩
  obtain ⟨habs, hoff, hrem, hrest⟩ := hI.positioned hv (d := (a.toNat : Int) - s.abs) (by omega) (by omega)
  exact ⟨_, seek_answers hf hv hok, by omega, hoff, hrem, hrest⟩

/-! ### SKIP and back (R103) -/

/-- SKIP ends in `done(OK)` with a move within its bounds (R102). -/
theorem Completed.of_skip {s t : State} {d : DWord} (h : Completed s (.skip d) t) :
    s.valid = true ∧ 0 ≤ s.abs + d.toInt ∧ (0 ≤ d.toInt → d.toInt ≤ s.remaining) ∧
      t = doneOk (moveBy d.toInt s) := by
  cases h with
  | move hm hv h0 hr =>
    cases hm
    exact ⟨hv, h0, hr, rfl⟩
  | query hq => cases hq
  | read hi => cases hi

/-- After an exact move a further one adds up with it (R110). -/
theorem State.Inv.moveBy_moveBy {s : State} (h : s.Inv) (hv : s.valid = true) {d : Int} (h0 : 0 ≤ s.abs + d)
    (hr : Config.remMin ≤ s.remaining - d) (e : Int) : moveBy e (moveBy d s) = moveBy (d + e) s := by
  obtain ⟨habs, hrem, -⟩ := h.move hv h0 hr
  calc moveBy e (moveBy d s)
      = setRemaining ((moveBy d s).remaining - e) (setPos ((moveBy d s).abs + e).toNat s) := rfl
    _ = setRemaining (s.remaining - (d + e)) (setPos (s.abs + (d + e)).toNat s) := by
      rw [habs, hrem, add_assoc, sub_sub]

/-- Settles O15: both moves are exact, so the second undoes the first. -/
theorem skipThenSkipBackRestoresTheCursor : Obligations.SkipThenSkipBackRestoresTheCursor := by
  intro d e s t u hI hneg hst ht htu hu
  obtain ⟨hv, h0, hr, rfl⟩ := ((exec_next hst).completed_of_ok ht).of_skip
  obtain ⟨-, -, -, rfl⟩ := ((exec_next htu).completed_of_ok hu).of_skip
  have hback : moveBy e.toInt (moveBy d.toInt s) = s := by
    rw [hI.moveBy_moveBy hv h0 (move_above_floor hr), hneg, add_neg_cancel, moveBy_zero hI.offFits]
  exact ⟨(congrArg State.cellIdx hback :), (congrArg State.bitOff hback :), (congrArg State.rem hback :)⟩

/-! ### ALIGN (R105, R106) -/

/-- ALIGN only ever skips forward, so it fails exactly when fewer bits remain (R105). -/
theorem align_answers {s : State} (hf : s.fault = false) (hv : s.valid = true) :
    exec .align s = .next (if s.remaining < s.alignBits then failOutOfBounds s else doneOk (moveBy s.alignBits s)) := by
  have hcond : ((0 : Int) ≤ s.alignBits ∧ s.remaining < s.alignBits) ∨ ((s.alignBits : Int) < 0 ∧
      (s.abs : Int) + s.alignBits < 0) ↔ s.remaining < s.alignBits := by omega
  rw [exec_align hf hv, skipBy_eq]
  simp only [hcond]

/-- ALIGN ends at a multiple of 8 (R106). -/
theorem State.aligned_mod (s : State) : (s.abs + s.alignBits) % 8 = 0 := by
  rw [State.alignBits_eq]
  omega

/-- A cursor at a byte boundary with bits left does not move on ALIGN (R106). -/
theorem align_of_aligned {s : State} (hoff : s.bitOff.toNat < s.cfg.w) (hf : s.fault = false) (hv : s.valid = true)
    (habs : s.abs % 8 = 0) (hrem : 0 ≤ s.remaining) : exec .align s = .next (doneOk s) := by
  have hzero : s.alignBits = 0 := by rw [State.alignBits_eq, habs]
  rw [align_answers hf hv, hzero, if_neg (by simpa using hrem)]
  exact congrArg (Host.Outcome.next ∘ doneOk) (moveBy_zero hoff)

/-- Settles O17: ALIGN is the skip by `alignBits`; after one that moved the cursor is at a boundary, and one that failed
changed nothing that the next one reads. -/
theorem alignMovesToTheNextByteBoundary : Obligations.AlignMovesToTheNextByteBoundary := by
  intro s hI
  refine ⟨encode_countless rfl, s.alignBits_eq, prologued fun hf hcursor => ?_⟩
  have hv := hcursor rfl
  have hmoved (hfit : (s.alignBits : Int) ≤ s.remaining) := hI.positioned hv (d := s.alignBits) (by omega) fun _ => hfit
  have hbound := s.aligned_mod
  rw [align_answers hf hv]
  refine ⟨fun hfail => congrArg _ (if_pos hfail), fun hfit => ?_, fun t ht => ?_⟩
  · obtain ⟨habs, -, hrem, hrest⟩ := hmoved hfit
    have habs : (doneOk (moveBy s.alignBits s)).abs = s.abs + s.alignBits := by omega
    exact ⟨_, congrArg _ (if_neg (not_lt.mpr hfit)), habs, by rw [habs, hbound], hrem, hrest⟩
  · cases ht
    split
    · rename_i hfail
      exact (align_answers (s := failOutOfBounds s) hf hv).trans (congrArg _ (if_pos hfail))
    · rename_i hfit
      obtain ⟨habs, hoff, hrem, -⟩ := hmoved (not_lt.mp hfit)
      exact align_of_aligned hoff hf hv (by omega) (by omega)

/-! ### The queries (R107 to R109) -/

theorem query_answers {i : Instr} {s : State} {v : DWord} (hq : queryOf s i = some v) (hf : s.fault = false)
    (hv : s.valid = true) : exec i s = .next (doneOk (setResult v s)) := by
  cases i with
  | getAlign | getPos | getRem =>
    cases hq
    exact withCursor_passes hf hv
  | _ => cases hq

theorem queryOf_needsCursor {i : Instr} {s : State} {v : DWord} (hq : queryOf s i = some v) :
    needsCursor i = true := by
  cases i with
  | init | release => cases hq
  | _ => rfl

/-- A query past the prologue returns its value and changes nothing but `RESULT` and `LAST`. -/
theorem prologued_query {i : Instr} {s : State} {v : DWord} {R : DWord → Prop} (hq : queryOf s i = some v) (hR : R v) :
    Prologued i s (∃ t, exec i s = .next t ∧ R t.result ∧ t = { s with result := t.result, last := .ok }) :=
  prologued fun hf hcursor => ⟨_, query_answers hq hf (hcursor (queryOf_needsCursor hq)), hR, rfl⟩

theorem State.alignBits_lt (s : State) : s.alignBits < 8 := Nat.mod_lt _ (by decide)

/-- A position of whatever registers fits the 64 bits of `RESULT` (R22, R23). -/
theorem State.abs_lt_two_pow_64 (s : State) : s.abs < 2 ^ 64 := by
  have hcell := s.cellIdx.isLt
  have hoff := s.bitOff.isLt
  have hw : s.cfg.w ≤ 32 := CellWidth_bits_le _
  have hmul : s.cellIdx.toNat * s.cfg.w ≤ s.cellIdx.toNat * 32 := Nat.mul_le_mul_left _ hw
  unfold State.abs
  omega

/-- Settles O18: each query's value fits `RESULT`, and the sign extension keeps the number. -/
theorem queriesReturnTheCursor : Obligations.QueriesReturnTheCursor := by
  intro s _
  have halign : (BitVec.ofNat 64 s.alignBits).toNat = s.alignBits :=
    by simpa using lt_trans s.alignBits_lt (by decide)
  have hpos : (BitVec.ofNat 64 s.abs).toNat = s.abs := by simpa using s.abs_lt_two_pow_64
  have hrem : (s.rem.signExtend 64).toInt = s.remaining := BitVec.toInt_signExtend_of_le (by decide)
  exact ⟨⟨encode_countless rfl, prologued_query (R := (·.toNat = s.alignBits)) rfl halign⟩,
    ⟨encode_countless rfl, prologued_query (R := (·.toNat = s.abs)) rfl hpos⟩,
    ⟨encode_countless rfl, prologued_query (R := (·.toInt = s.remaining)) rfl hrem⟩⟩

/-! ### Overrun (10_state.md R30, 41_read.md R127) -/

theorem State.remaining_nonneg {s : State} (hv : s.valid = true) (h : s.ovr = false) : 0 ≤ s.remaining := by
  simpa [State.ovr, hv] using h

/-- A move that takes no more bits than remain overruns nothing. -/
theorem State.Inv.ovr_moveBy {s : State} (h : s.Inv) (hv : s.valid = true) {d : Int} (h0 : 0 ≤ s.abs + d)
    (hd : d ≤ s.remaining) : (moveBy d s).ovr = false := by
  obtain ⟨-, hrem, -⟩ := h.move hv h0 (move_above_floor fun _ => hd)
  exact State.ovr_of_nonneg (by omega)

theorem readOf_tolerant_consume {i : Instr} {bound n : Nat} (h : readOf i = some (.tolerant, .consume, bound, n)) :
    i = .readW n ∨ i = .readN n := by
  cases i with
  | readW | readN => simp_all [readOf]
  | _ => cases h

/-- A command that ends in `done(OK)` and is no tolerant consuming read checked that it takes no more bits than remain
(R102, R104, R105, R129, R131, R150), or took none. -/
theorem Completed.ovr_eq_false {s t : State} {i : Instr} (h : Completed s i t) (hI : s.Inv) (hs : s.ovr = false)
    (hi : ∀ n, i ≠ .readW n ∧ i ≠ .readN n) : t.ovr = false := by
  cases h with
  | init b c _ hc =>
    have hrem := createCursor_remaining b s hc
    exact State.ovr_of_nonneg (s := createCursor b c s) (by omega)
  | release => rfl
  | @move _ d _ hv h0 hr =>
    have hnonneg := State.remaining_nonneg hv hs
    exact hI.ovr_moveBy (d := d) hv h0 (by omega)
  | query => exact hs
  | @read _ kind mode _ n hread hv _ _ hfit =>
    cases mode with
    | peek => exact hs
    | consume =>
      have hkind : kind ≠ .tolerant := by
        rintro rfl
        exact (readOf_tolerant_consume hread).elim (hi n).1 (hi n).2
      exact hI.ovr_moveBy (d := n) hv (by omega) (hfit hkind)
  | @write _ n _ hv _ _ hr hscatter =>
    rw [scatter_rest hscatter]
    exact hI.ovr_moveBy (d := n) hv (by omega) hr

/-- Settles O45: a command that fails keeps `OVR`, and one that completes can set it only as a tolerant consuming
read. -/
theorem onlyTolerantReadsOverrun : Obligations.OnlyTolerantReadsOverrun := by
  intro i s t hI h hs ht
  by_contra hno
  push Not at hno
  have hfalse : t.ovr = false :=
    (exec_next h).keeps (P := fun t => t.ovr = false) (fun _ _ => hs) fun hc => hc.ovr_eq_false hI hs hno
  simp [hfalse] at ht

end Sys2Proof.Machine

/-! ## Reads and peeks (41_read.md R120 to R139) -/

namespace Sys2Proof.Machine

/-! ### Gather (R120) -/

/-- The loads of a run, in the claims' terms (R120, R125). -/
theorem readsOf_cellSpan (s : State) (p k : Nat) :
    readsOf s (p / s.cfg.w) (cellSpan s.cfg.w p k) =
      if k = 0 then [] else readsOf s (p / s.cfg.w) ((p + k - 1) / s.cfg.w - p / s.cfg.w + 1) := by
  unfold cellSpan
  split <;> rfl

/-- Settles O19: inside the address space `gather` answers the stream bits and one load of each of their cells. -/
theorem gatherIsTheStreamBitsMsbFirst : Obligations.GatherIsTheStreamBitsMsbFirst := by
  intro s p k hspace
  refine ⟨s.streamValue p k, s.streamValue_lt p k, fun j hj => s.streamValue_testBit p k j hj, ?_⟩
  rw [gather_total s p k hspace, readsOf_cellSpan]

/-! ### The stepwise gather (R139) -/

/-- A run cut in two: the bits of the first part stand above those of the second. -/
theorem State.streamValue_append (s : State) (p a b : Nat) :
    s.streamValue p (a + b) = s.streamValue p a <<< b ||| s.streamValue (p + a) b := by
  rw [← Nat.shiftLeft_add_eq_or_of_lt (s.streamValue_lt _ _), Nat.shiftLeft_eq]
  induction b with
  | zero => simp [State.streamValue]
  | succ b ih =>
    rw [← Nat.add_assoc, State.streamValue, ih, State.streamValue, Nat.add_assoc p a b]
    ring

/-- The bits of a run inside one cell: mask off the bits before it, shift out those after it (R139 step 1). -/
theorem State.streamValue_inside (s : State) {c off n : Nat} (h : off + n ≤ s.cfg.w) :
    s.streamValue (c * s.cfg.w + off) n =
      (s.mem.readCell s.cfg (s.base.toNat + c) % 2 ^ (s.cfg.w - off)) >>> (s.cfg.w - off - n) := by
  refine s.streamValue_unique _ _ _ ?_ fun i hi => ?_
  · have hsplit : n + (s.cfg.w - off - n) = s.cfg.w - off := by omega
    rw [Nat.shiftRight_eq_div_pow, Nat.div_lt_iff_lt_mul (Nat.two_pow_pos _), ← pow_add, hsplit]
    exact Nat.mod_lt _ (Nat.two_pow_pos _)
  · have hlt : off + i < s.cfg.w := by omega
    have hcell : (c * s.cfg.w + off + i) / s.cfg.w = c := by
      rw [Nat.add_assoc, Nat.mul_comm, Nat.mul_add_div s.w_pos, Nat.div_eq_of_lt hlt, Nat.add_zero]
    have hbit : (c * s.cfg.w + off + i) % s.cfg.w = off + i := by
      rw [Nat.add_assoc, Nat.mul_comm, Nat.mul_add_mod, Nat.mod_eq_of_lt hlt]
    have hshift : s.cfg.w - 1 - (off + i) = s.cfg.w - off - n + (n - 1 - i) := by omega
    rw [State.streamBit, hcell, hbit, Nat.testBit_shiftRight, Nat.testBit_mod_two_pow, hshift,
      decide_eq_true (by omega), Bool.true_and]

/-- Steps 2 to 4 of R139 append the run that starts at a cell boundary. -/
theorem State.stepwiseTail_eq (s : State) (c cnt acc n : Nat) (h : n ≤ cnt * s.cfg.w) :
    stepwiseTail s.cfg.w (s.cellsFrom c cnt) acc n = acc <<< n ||| s.streamValue (c * s.cfg.w) n := by
  induction cnt generalizing c acc n with
  | zero =>
    obtain rfl : n = 0 := by omega
    simp [State.cellsFrom, stepwiseTail, State.streamValue]
  | succ cnt ih =>
    rw [State.cellsFrom_succ, stepwiseTail]
    have hw := s.w_pos
    split
    · rename_i hfull
      have hrest : n - s.cfg.w ≤ cnt * s.cfg.w := by rw [Nat.add_mul] at h; omega
      have hcut := s.streamValue_append (c * s.cfg.w) s.cfg.w (n - s.cfg.w)
      rw [Nat.add_sub_cancel' hfull, s.streamValue_cell] at hcut
      have hnext : (c + 1) * s.cfg.w = c * s.cfg.w + s.cfg.w := by ring
      rw [ih _ _ _ hrest, hcut, hnext, Nat.shiftLeft_or_distrib, ← Nat.shiftLeft_add, Nat.add_sub_cancel' hfull,
        Nat.or_assoc]
    · rename_i hpart
      split
      · rename_i hzero
        simp [hzero, State.streamValue]
      · have hin := s.streamValue_inside (c := c) (off := 0) (n := n) (by omega)
        rw [Nat.add_zero, Nat.sub_zero, Nat.mod_eq_of_lt (Memory.readCell_lt _ _ _)] at hin
        rw [hin]

/-- The four steps of R139 on the cells of a run make the number of its bits. -/
theorem State.stepwiseValue_eq (s : State) {c off cnt n : Nat} (hoff : off < s.cfg.w)
    (h : off + n ≤ (cnt + 1) * s.cfg.w) :
    stepwiseValue s.cfg.w (s.cellsFrom c (cnt + 1)) off n = s.streamValue (c * s.cfg.w + off) n := by
  rw [Nat.add_mul] at h
  rw [State.cellsFrom_succ]
  simp only [stepwiseValue, List.getD_cons_zero, List.drop_one, List.tail_cons]
  split
  · rw [s.streamValue_inside (by omega)]
  · have hhead := s.streamValue_inside (c := c) (off := off) (n := s.cfg.w - off) (by omega)
    have hcut := s.streamValue_append (c * s.cfg.w + off) (s.cfg.w - off) (n - (s.cfg.w - off))
    have hnext : c * s.cfg.w + off + (s.cfg.w - off) = (c + 1) * s.cfg.w := by rw [Nat.add_mul]; omega
    rw [Nat.sub_self, Nat.shiftRight_zero] at hhead
    rw [Nat.add_sub_cancel' (by omega), hhead, hnext] at hcut
    rw [s.stepwiseTail_eq _ _ _ _ (by omega), hcut]

/-- The cells up to the one of a run's last bit hold the run (R120). -/
theorem run_le_cells (w p n : Nat) (hw : 0 < w) (hn : 1 ≤ n) :
    p % w + n ≤ ((p + n - 1) / w - p / w + 1) * w := by
  have hle : p / w ≤ (p + n - 1) / w := Nat.div_le_div_right (by omega)
  have hp := Nat.div_add_mod' p w
  have hlast := Nat.lt_div_mul_add (a := p + n - 1) hw
  have hsum : ((p + n - 1) / w - p / w + 1) * w + p / w * w = (p + n - 1) / w * w + w := by
    rw [← Nat.add_mul, ← Nat.succ_mul]
    congr 1
    omega
  omega

/-- Settles O20: `gather` answers the stream bits' number, and so do the four steps. -/
theorem stepwiseGatherEqualsGather : Obligations.StepwiseGatherEqualsGather := by
  intro s t p n v hn hg
  obtain ⟨rfl, -⟩ := gather_ok hg
  have hstep := s.stepwiseValue_eq (c := p / s.cfg.w) (Nat.mod_lt p s.w_pos) (run_le_cells s.cfg.w p n s.w_pos hn)
  rw [Nat.div_add_mod'] at hstep
  exact hstep.symm


/-! ### A read or peek past the prologue (R121 to R126) -/

/-- The record of a read or peek: its opcode, its count, no operand (R71, R74). -/
theorem encode_read {i : Instr} {kind : ReadKind} {mode : ReadMode} {bound n : Nat}
    (hi : readOf i = some (kind, mode, bound, n)) (hn : n < 64) :
    encode i = ⟨BitVec.ofNat 32 (i.opcode + n * 256), 0, 0⟩ := by
  have hfields : i.count = some n ∧ i.arg0 = 0 ∧ i.arg1 = 0 := by
    cases i with
    | init | skip | seek | align | getAlign | getPos | getRem | release | write => cases hi
    | _ => cases hi; exact ⟨rfl, rfl, rfl⟩
  obtain ⟨hcount, h0, h1⟩ := hfields
  simp [encode, packCmd, hcount, h0, h1, Nat.mod_eq_of_lt i.opcode_lt, Nat.mod_eq_of_lt hn, Nat.add_comm]

/-- On bits that all remain, the tolerant value holds stream bits alone (R124). -/
theorem State.tolerantValue_testBit_real {s : State} {n : Nat} (h : (n : Int) ≤ s.remaining) {j : Nat} (hj : j < n) :
    (s.tolerantValue n).testBit (n - 1 - j) = s.streamBit (s.abs + j) := by
  have hreal : (j : Int) < s.remaining := by omega
  rw [s.tolerantValue_testBit n j hj, decide_eq_true hreal, Bool.true_and]

/-- The tolerant value reads the cursor and the stream bits alone (R124). -/
theorem State.tolerantValue_congr {s t : State} (hrem : t.remaining = s.remaining) (habs : t.abs = s.abs)
    (hbit : ∀ p, t.streamBit p = s.streamBit p) (n : Nat) : t.tolerantValue n = s.tolerantValue n := by
  have hreal : t.realBits n = s.realBits n := by rw [State.realBits, State.realBits, hrem]
  rw [State.tolerantValue, State.tolerantValue, hreal, habs, State.streamValue_congr fun i _ => hbit _]

/-- `t` is `s` after a read that loaded `k` bits and moved by `n`: exact move and loads, and nothing else changed but
`RESULT` and `LAST` (R122, R125). -/
def State.Consumed (s : State) (n k : Nat) (t : State) : Prop :=
  t.abs = s.abs + n ∧ t.bitOff.toNat < s.cfg.w ∧ t.remaining = s.remaining - n ∧
    t = { s with
      cellIdx := t.cellIdx, bitOff := t.bitOff, rem := t.rem, result := t.result, last := .ok,
      trace := s.trace ++ s.loads k }

/-- `t` is `s` after a peek that loaded `k` bits: nothing changed but the port, `RESULT` and `LAST` (R121, R125). -/
def State.Peeked (s : State) (k : Nat) (t : State) : Prop :=
  t = { s with result := t.result, last := .ok, trace := s.trace ++ s.loads k }

section
variable {s : State} {i : Instr} {kind : ReadKind} {mode : ReadMode} {bound n : Nat}

/-- For a read or peek the prologue asks for `FAULT` clear and a cursor (R165). -/
theorem prologued_read {P : Prop} (hi : readOf i = some (kind, mode, bound, n))
    (h : s.fault = false → s.valid = true → P) : Prologued i s P :=
  prologued fun hf hcursor => h hf (hcursor (readOf_needsCursor hi))

/-- A consuming read whose checks pass returns the tolerant value, loads the real bits and moves by the full `n` (R122,
R124, R125). -/
theorem read_consumes (hI : s.Inv) (hi : readOf i = some (kind, .consume, bound, n)) (hf : s.fault = false)
    (hv : s.valid = true) (hn : n ≤ bound)
    (ht : kind = .tolerant → ¬ (s.remaining < n ∧ s.remaining - n < Config.remMin))
    (hs : kind ≠ .tolerant → (n : Int) ≤ s.remaining) :
    ∃ t, exec i s = .next t ∧ t.result.toNat = s.tolerantValue n ∧ s.Consumed n (s.realBits n) t := by
  have hcommit := commitRead_consume hI hv n (s.tolerantValue n) (hn.trans (readOf_bound hi)) (s.tolerantValue_lt n)
    (read_above_floor ht hs)
  unfold State.Consumed
  rw [← State.loaded_trace]
  exact ⟨_, read_answers hI hi hf hv hn ht hs, hcommit⟩

/-- A peek whose checks pass returns the value and makes the loads of its read (R121). -/
theorem peek_stays (hI : s.Inv) (hi : readOf i = some (kind, .peek, bound, n)) (hf : s.fault = false)
    (hv : s.valid = true) (hn : n ≤ bound)
    (ht : kind = .tolerant → ¬ (s.remaining < n ∧ s.remaining - n < Config.remMin))
    (hs : kind ≠ .tolerant → (n : Int) ≤ s.remaining) :
    ∃ t, exec i s = .next t ∧ t.result.toNat = s.tolerantValue n ∧ s.Peeked (s.realBits n) t := by
  have hcommit := commitRead_peek (s := s) n (s.tolerantValue n) (hn.trans (readOf_bound hi)) (s.tolerantValue_lt n)
  unfold State.Peeked
  rw [← State.loaded_trace]
  exact ⟨_, read_answers hI hi hf hv hn ht hs, hcommit⟩

end

/-- Settles O21: the checks of R123 and R126, then the tolerant value, consumed. -/
theorem tolerantReadsZeroFillAndConsume : Obligations.TolerantReadsZeroFillAndConsume := by
  intro n s hI x hx
  obtain ⟨hread, hopc⟩ : readOf x.1 = some (.tolerant, .consume, x.2.1, n) ∧ x.1.opcode = x.2.2 := by
    rcases List.mem_pair.mp hx with rfl | rfl <;> exact ⟨rfl, rfl⟩
  refine ⟨fun hn => hopc ▸ encode_read hread hn, prologued_read hread fun hf hv => ?_⟩
  refine ⟨read_tooLarge hread hf hv, fun hn hpast hfloor => read_underflow hread hf hv hn ⟨hpast, hfloor⟩,
    fun hn hok => ?_⟩
  obtain ⟨t, ht, hval, hrest⟩ := read_consumes hI hread hf hv hn (fun _ => hok) fun hkind => absurd rfl hkind
  rw [State.realBits_eq] at hrest
  exact ⟨t, ht, hval ▸ s.tolerantValue_lt n, fun j hj => hval ▸ s.tolerantValue_testBit n j hj, hrest⟩

/-- Settles O22: the checks and the value of the tolerant read, committed without a move. -/
theorem tolerantPeeksZeroFillAndStay : Obligations.TolerantPeeksZeroFillAndStay := by
  intro n s hI x hx
  obtain ⟨hread, hopc⟩ : readOf x.1 = some (.tolerant, .peek, x.2.1, n) ∧ x.1.opcode = x.2.2 := by
    rcases List.mem_pair.mp hx with rfl | rfl <;> exact ⟨rfl, rfl⟩
  refine ⟨fun hn => hopc ▸ encode_read hread hn, prologued_read hread fun hf hv => ?_⟩
  refine ⟨read_tooLarge hread hf hv, fun hn hpast hfloor => read_underflow hread hf hv hn ⟨hpast, hfloor⟩,
    fun hn hok => ?_⟩
  obtain ⟨t, ht, hval, hrest⟩ := peek_stays hI hread hf hv hn (fun _ => hok) fun hkind => absurd rfl hkind
  rw [State.realBits_eq] at hrest
  exact ⟨t, ht, hval ▸ s.tolerantValue_lt n, fun j hj => hval ▸ s.tolerantValue_testBit n j hj, hrest⟩

/-! ### Fast and safe reads: only bits that remain (R129 to R132, R135 to R138) -/

section
variable {s : State} {i : Instr} {kind : ReadKind} {bound n : Nat}

/-- A fast read or peek violates the contract past its bound and past the end (R123, R129). -/
theorem fastRead_violates {mode : ReadMode} (hi : readOf i = some (.fast, mode, bound, n)) (hf : s.fault = false)
    (hv : s.valid = true) (h : bound < n ∨ s.remaining < n) :
    exec i s = .next { s with last := .contract, fault := true } := by
  by_cases hn : bound < n
  · exact read_tooLarge hi hf hv hn
  · exact read_fastPrecondition hi hf hv (not_lt.mp hn) (h.resolve_left hn)

/-- A fast or safe read of bits that all remain returns and consumes these stream bits. -/
theorem read_consumes_real (hI : s.Inv) (hi : readOf i = some (kind, .consume, bound, n)) (hkind : kind ≠ .tolerant)
    (hf : s.fault = false) (hv : s.valid = true) (hn : n ≤ bound) (hr : (n : Int) ≤ s.remaining) :
    ∃ t, exec i s = .next t ∧
      t.result.toNat < 2 ^ n ∧
      (∀ j, j < n → t.result.toNat.testBit (n - 1 - j) = s.streamBit (s.abs + j)) ∧ s.Consumed n n t := by
  obtain ⟨t, ht, hval, hrest⟩ := read_consumes hI hi hf hv hn (fun h => absurd h hkind) fun _ => hr
  rw [State.realBits_of_le hr] at hrest
  exact ⟨t, ht, hval ▸ s.tolerantValue_lt n, fun j hj => hval ▸ s.tolerantValue_testBit_real hr hj, hrest⟩

/-- A fast or safe peek of bits that all remain returns these stream bits. -/
theorem peek_stays_real (hI : s.Inv) (hi : readOf i = some (kind, .peek, bound, n)) (hkind : kind ≠ .tolerant)
    (hf : s.fault = false) (hv : s.valid = true) (hn : n ≤ bound) (hr : (n : Int) ≤ s.remaining) :
    ∃ t, exec i s = .next t ∧
      t.result.toNat < 2 ^ n ∧
      (∀ j, j < n → t.result.toNat.testBit (n - 1 - j) = s.streamBit (s.abs + j)) ∧ s.Peeked n t := by
  obtain ⟨t, ht, hval, hrest⟩ := peek_stays hI hi hf hv hn (fun h => absurd h hkind) fun _ => hr
  rw [State.realBits_of_le hr] at hrest
  exact ⟨t, ht, hval ▸ s.tolerantValue_lt n, fun j hj => hval ▸ s.tolerantValue_testBit_real hr hj, hrest⟩

end

/-- Settles O23: the fast checks, then the stream bits, consumed. -/
theorem fastReadsCheckTheirPrecondition : Obligations.FastReadsCheckTheirPrecondition := by
  intro n s hI x hx
  obtain ⟨hread, hopc⟩ : readOf x.1 = some (.fast, .consume, x.2.1, n) ∧ x.1.opcode = x.2.2 := by
    rcases List.mem_pair.mp hx with rfl | rfl <;> exact ⟨rfl, rfl⟩
  refine ⟨fun hn => hopc ▸ encode_read hread hn, prologued_read hread fun hf hv => ?_⟩
  exact ⟨fastRead_violates hread hf hv, read_consumes_real hI hread (by decide) hf hv⟩

/-- Settles O24: the fast checks, then the stream bits, the cursor left alone. -/
theorem fastPeeksCheckTheirPrecondition : Obligations.FastPeeksCheckTheirPrecondition := by
  intro n s hI x hx
  obtain ⟨hread, hopc⟩ : readOf x.1 = some (.fast, .peek, x.2.1, n) ∧ x.1.opcode = x.2.2 := by
    rcases List.mem_pair.mp hx with rfl | rfl <;> exact ⟨rfl, rfl⟩
  refine ⟨fun hn => hopc ▸ encode_read hread hn, prologued_read hread fun hf hv => ?_⟩
  exact ⟨fastRead_violates hread hf hv, peek_stays_real hI hread (by decide) hf hv⟩

/-- Settles O25: the width check, OutOfBounds past the end, then the stream bits, consumed. -/
theorem safeReadsFailOutOfBounds : Obligations.SafeReadsFailOutOfBounds := by
  intro n s hI x hx
  obtain ⟨hread, hopc⟩ : readOf x.1 = some (.safe, .consume, x.2.1, n) ∧ x.1.opcode = x.2.2 := by
    rcases List.mem_pair.mp hx with rfl | rfl <;> exact ⟨rfl, rfl⟩
  refine ⟨fun hn => hopc ▸ encode_read hread hn, prologued_read hread fun hf hv => ?_⟩
  exact ⟨read_tooLarge hread hf hv, read_safeFails hread hf hv, read_consumes_real hI hread (by decide) hf hv⟩

/-- Settles O26: the width check, OutOfBounds past the end, then the stream bits, the cursor left alone. -/
theorem safePeeksFailOutOfBounds : Obligations.SafePeeksFailOutOfBounds := by
  intro n s hI x hx
  obtain ⟨hread, hopc⟩ : readOf x.1 = some (.safe, .peek, x.2.1, n) ∧ x.1.opcode = x.2.2 := by
    rcases List.mem_pair.mp hx with rfl | rfl <;> exact ⟨rfl, rfl⟩
  refine ⟨fun hn => hopc ▸ encode_read hread hn, prologued_read hread fun hf hv => ?_⟩
  exact ⟨read_tooLarge hread hf hv, read_safeFails hread hf hv, peek_stays_real hI hread (by decide) hf hv⟩

/-! ### What a read or peek that ended OK did (R125) -/

/-- A read or peek that ends in `done(OK)` passed the checks of its kind and committed the tolerant value. -/
theorem Completed.of_read {s t : State} {i : Instr} {kind : ReadKind} {mode : ReadMode} {bound n : Nat}
    (h : Completed s i t) (hi : readOf i = some (kind, mode, bound, n)) :
    s.valid = true ∧ n ≤ bound ∧
      (kind = .tolerant → ¬ (s.remaining < n ∧ s.remaining - n < Config.remMin)) ∧
      (kind ≠ .tolerant → (n : Int) ≤ s.remaining) ∧
      t = commitRead mode n (s.tolerantValue n) (s.loaded n) := by
  obtain ⟨hmove, hquery⟩ := moveOf_of_read s hi
  cases h with
  | init | release | write => cases hi
  | move hm => cases hmove.symm.trans hm
  | query hq => cases hquery.symm.trans hq
  | read hi' hv hn ht hs =>
    cases hi.symm.trans hi'
    exact ⟨hv, hn, ht, hs, rfl⟩

/-- The port after the commit of a read or peek: the loads of its real bits (R125). -/
theorem commitRead_loaded_trace (mode : ReadMode) (n v : Nat) (s : State) :
    (commitRead mode n v (s.loaded n)).trace = s.trace ++ s.loads (s.realBits n) := by
  rw [commitRead_rest]
  exact s.loaded_trace n

/-- Settles O27: a failing read writes `LAST` and `FAULT` alone, and one that completes loads its real bits. -/
theorem readsLoadOnlyTheCellsOfRealBits : Obligations.ReadsLoadOnlyTheCellsOfRealBits := by
  intro n s t _ i hi h
  obtain ⟨kind, mode, bound, hread⟩ : ∃ kind mode bound, readOf i = some (kind, mode, bound, n) := by
    revert i
    simp [readOf]
  refine ⟨fun hfail => ?_, fun hok => ?_⟩
  · exact (exec_next h).keeps (P := fun t => t.last ≠ .ok → t.trace = s.trace) (fun _ _ _ => rfl)
      (fun hc hne => absurd hc.last hne) hfail
  · obtain ⟨-, -, -, -, rfl⟩ := ((exec_next h).completed_of_ok hok).of_read hread
    rw [commitRead_loaded_trace, State.realBits_eq]

/-! ### A peek and its read (R121) -/

/-- What a peek takes over from the read it stands for: the outcome and the port, no cursor register (R121). -/
def State.withOutcomeOf (s u : State) : State :=
  { s with result := u.result, last := u.last, fault := u.fault, trace := u.trace }

/-- A gather and a tolerant value leave nothing but their loads. -/
theorem gather_rest {s t : State} {p k v : Nat} (h : gather s p k = .ok (v, t)) : t = { s with trace := t.trace } := by
  obtain ⟨-, rfl⟩ := gather_ok h
  rfl

theorem tolval_rest {s t : State} {n v : Nat} (h : tolval s n = .ok (v, t)) : t = { s with trace := t.trace } := by
  obtain ⟨-, rfl⟩ := tolval_ok h
  rfl

/-- The mode of a read decides nothing but the commit: either the checks answer, for both modes alike and without a
change but in `LAST` and `FAULT`, or both modes commit the one value that the port answers (R121). -/
theorem readCommand_modes (kind : ReadKind) (bound n : Nat) (s : State) :
    (∃ l f, ∀ mode, readCommand kind mode bound n s = .next { s with last := l, fault := f }) ∨
    (∃ x : Except Fault (Nat × State),
      (∀ mode, readCommand kind mode bound n s = onPort x fun (v, s1) => .next (commitRead mode n v s1)) ∧
      ∀ v s1, x = .ok (v, s1) → s1 = { s with trace := s1.trace }) := by
  rcases Bool.eq_false_or_eq_true s.fault with hf | hf
  · exact .inl ⟨.faulted, s.fault, fun _ => withCursor_faulted hf⟩
  rcases (Bool.eq_false_or_eq_true s.valid).symm with hv | hv
  · exact .inl ⟨.contract, true, fun _ => withCursor_noCursor hf hv⟩
  unfold readCommand
  simp only [withCursor_passes hf hv]
  split
  · exact .inl ⟨.contract, true, fun _ => rfl⟩
  cases kind with
  | tolerant =>
    simp only
    split
    · exact .inl ⟨.contract, true, fun _ => rfl⟩
    · exact .inr ⟨_, fun _ => rfl, fun _ _ => tolval_rest⟩
  | fast =>
    simp only
    split
    · exact .inl ⟨.contract, true, fun _ => rfl⟩
    · exact .inr ⟨_, fun _ => rfl, fun _ _ => gather_rest⟩
  | safe =>
    simp only
    split
    · exact .inl ⟨.oob, s.fault, fun _ => rfl⟩
    · exact .inr ⟨_, fun _ => rfl, fun _ _ => gather_rest⟩

/-- The commits of a peek and of its read differ in the cursor alone (R121, R122). -/
theorem commitRead_peek_of_consume {s s1 : State} (h : s1 = { s with trace := s1.trace }) (n v : Nat) :
    commitRead .peek n v s1 = s.withOutcomeOf (commitRead .consume n v s1) := by
  rw [h]
  rfl

theorem readCommand_peek_of_consume {kind : ReadKind} {bound n : Nat} {s t u : State}
    (ht : readCommand kind .peek bound n s = .next t) (hu : readCommand kind .consume bound n s = .next u) :
    t = s.withOutcomeOf u := by
  rcases readCommand_modes kind bound n s with ⟨l, f, h⟩ | ⟨x, h, hrest⟩
  · cases (h _).symm.trans ht
    cases (h _).symm.trans hu
    rfl
  · obtain ⟨⟨v, s1⟩, hx, hpeek⟩ := onPort_next ((h _).symm.trans ht)
    obtain ⟨_, hx', hread⟩ := onPort_next ((h _).symm.trans hu)
    cases hx.symm.trans hx'
    cases hpeek
    cases hread
    exact commitRead_peek_of_consume (hrest v s1 hx) n v

/-- Each peek and its read have one policy, bound and count (R73, R121). -/
theorem readOf_peek_pairs (n : Nat) :
    ∀ x ∈ [(Instr.peekW n, Instr.readW n), (.peekN n, .readN n), (.fpeekW n, .freadW n),
           (.fpeekN n, .freadN n), (.speekW n, .sreadW n), (.speekN n, .sreadN n)],
      ∃ kind bound, readOf x.1 = some (kind, .peek, bound, n) ∧ readOf x.2 = some (kind, .consume, bound, n) := by
  simp [readOf]

/-- Settles O30, since a peek is its read but for the mode. -/
theorem peeksCommitNoCursorState : Obligations.PeeksCommitNoCursorState := by
  intro n s t u x hx ht hu
  obtain ⟨kind, bound, hpeek, hread⟩ := readOf_peek_pairs n x hx
  rw [exec_read hpeek] at ht
  rw [exec_read hread] at hu
  exact readCommand_peek_of_consume ht hu

/-- A peek keeps all that the tolerant value reads. -/
theorem tolerantValue_commitRead_peek (s : State) (n v k : Nat) :
    (commitRead .peek n v (s.loaded n)).tolerantValue k = s.tolerantValue k :=
  State.tolerantValue_congr (s := s) (t := commitRead .peek n v (s.loaded n)) rfl rfl (fun _ => rfl) k

/-- A command that completes ran with `FAULT` clear (R163). -/
theorem Ended.fault_of_ok {s t : State} {i : Instr} (h : Ended s i t) (hok : t.last = .ok) : s.fault = false := by
  cases h with
  | faulted => cases hok
  | contract => cases hok
  | outOfBounds => cases hok
  | completed hf => exact hf

/-- Settles O31: after the peek the same checks pass on the same cursor, and the same bits stand there. -/
theorem peekThenReadReturnsTheSameValue : Obligations.PeekThenReadReturnsTheSameValue := by
  intro n s t hI x hx h hok
  obtain ⟨kind, bound, hpeek, hread⟩ := readOf_peek_pairs n x hx
  have hI' := exec_inv hI h
  have hf := (exec_next h).fault_of_ok hok
  obtain ⟨hv, hn, ht, hs, rfl⟩ := ((exec_next h).completed_of_ok hok).of_read hpeek
  refine ⟨_, read_answers hI' hread hf hv hn ht hs, rfl, ?_⟩
  rw [tolerantValue_commitRead_peek]
  rfl

/-! ### Narrow and wide forms, and the three kinds (R123, R129, R131) -/

/-- Within both bounds the bound decides nothing (R123). -/
theorem readCommand_bound (kind : ReadKind) (mode : ReadMode) {bound bound' n : Nat} (s : State) (h : n ≤ bound)
    (h' : n ≤ bound') : readCommand kind mode bound n s = readCommand kind mode bound' n s := by
  unfold readCommand
  rw [if_neg (not_lt.mpr h), if_neg (not_lt.mpr h')]

/-- So a narrow and a wide form of one kind and mode are one command where both take the count. -/
theorem exec_eq_of_bounds {i i' : Instr} {kind : ReadKind} {mode : ReadMode} {bound bound' n : Nat} {s : State}
    (hi : readOf i = some (kind, mode, bound, n)) (hi' : readOf i' = some (kind, mode, bound', n)) (h : n ≤ bound)
    (h' : n ≤ bound') : exec i s = exec i' s := by
  rw [exec_read hi, exec_read hi', readCommand_bound kind mode s h h']

/-- Settles O28: past its bound every form violates the contract, and within 16 bits the bounds decide nothing. -/
theorem narrowAndWideFormsAgree : Obligations.NarrowAndWideFormsAgree := by
  refine ⟨fun n s hf hv x hx hn => ?_, fun n s hn => ?_⟩
  · obtain ⟨kind, mode, hread⟩ : ∃ kind mode, readOf x.1 = some (kind, mode, x.2, n) := by
      revert x
      simp [readOf]
    exact read_tooLarge hread hf hv hn
  · have hwide : n ≤ 32 := by omega
    exact ⟨exec_eq_of_bounds rfl rfl hn hwide, exec_eq_of_bounds rfl rfl hn hwide, exec_eq_of_bounds rfl rfl hn hwide,
      exec_eq_of_bounds rfl rfl hn hwide, exec_eq_of_bounds rfl rfl hn hwide, exec_eq_of_bounds rfl rfl hn hwide⟩

/-- On bits that all remain no check of a kind fails, and the tolerant value is a gather (R124, R129, R131). -/
theorem readCommand_real (kind : ReadKind) (mode : ReadMode) (bound : Nat) {n : Nat} {s : State}
    (h : (n : Int) ≤ s.remaining) : readCommand kind mode bound n s = readCommand .tolerant mode bound n s := by
  have hgather : tolval s n = gather s s.abs n := if_pos h
  have hin : ¬ s.remaining < n := not_lt.mpr h
  cases kind with
  | tolerant => rfl
  | fast | safe => simp [readCommand, hin, hgather]

/-- So on these bits a read or peek is the tolerant one of its mode and bound. -/
theorem exec_eq_of_real {i i' : Instr} {kind : ReadKind} {mode : ReadMode} {bound n : Nat} {s : State}
    (hi : readOf i = some (kind, mode, bound, n)) (hi' : readOf i' = some (.tolerant, mode, bound, n))
    (h : (n : Int) ≤ s.remaining) : exec i s = exec i' s := by
  rw [exec_read hi, exec_read hi', readCommand_real kind mode bound h]

/-- Settles O29: inside the buffer the kind of a read or peek decides nothing. -/
theorem readKindsAgreeInsideTheBuffer : Obligations.ReadKindsAgreeInsideTheBuffer := by
  intro n s h
  exact ⟨exec_eq_of_real rfl rfl h, exec_eq_of_real rfl rfl h, exec_eq_of_real rfl rfl h, exec_eq_of_real rfl rfl h⟩

end Sys2Proof.Machine

/-! ## Writes (42_write.md R150 to R153) -/

namespace Sys2Proof.Machine

/-! ### What a scatter leaves, read at the run (R151) -/

/-- A cell of a run's span is one of those from the run's first to its last (R151). -/
theorem cell_le_last_of_span {w p k i : Nat} (hi : i < cellSpan w p k) : k ≠ 0 ∧ p / w + i ≤ (p + k - 1) / w := by
  unfold cellSpan at hi
  split at hi
  · omega
  · rename_i hk
    have hmono : p / w ≤ (p + k - 1) / w := Nat.div_le_div_right (by omega)
    exact ⟨hk, by omega⟩

section
variable {s t : State} {p k v : Nat} (hwf : s.mem.wf) (h : scatter s p k v = .ok t)
include hwf h

theorem scatter_streamBit_inside {j : Nat} (hj : j < k) : t.streamBit (p + j) = v.testBit (k - 1 - j) := by
  rw [scatter_streamBit hwf h, if_pos (by omega), Nat.add_sub_cancel_left]

theorem scatter_streamBit_outside {q : Nat} (hq : ¬ (p ≤ q ∧ q < p + k)) : t.streamBit q = s.streamBit q := by
  rw [scatter_streamBit hwf h, if_neg hq]

theorem scatter_readByte_outside {a : Nat}
    (ha : ∀ c, k ≠ 0 → p / s.cfg.w ≤ c → c ≤ (p + k - 1) / s.cfg.w →
      ∀ j, j < s.cfg.width.bytes → a ≠ byteAddr s.cfg (s.base.toNat + c) j) :
    t.mem.readByte a = s.mem.readByte a := by
  refine (scatter_ok hwf h).bytes a fun i hi => ?_
  obtain ⟨hk, hlast⟩ := cell_le_last_of_span hi
  exact ha _ hk (Nat.le_add_right _ _) hlast

end

/-- A scatter of no bits touches nothing (R151). -/
theorem scatter_zero (s : State) (p v : Nat) : scatter s p 0 v = .ok s := rfl

/-! ### A WRITE past the prologue (R150) -/

/-- The record of a WRITE: its opcode, its count, the value in `ARG1` (R71, R74). -/
theorem encode_write (v : Word) {n : Nat} (hn : n < 64) :
    encode (.write v n) = ⟨BitVec.ofNat 32 (0x20 + n * 256), 0, v⟩ := by
  simp [encode, packCmd, Instr.opcode, Instr.count, Instr.arg0, Instr.arg1, Nat.mod_eq_of_lt hn, Nat.add_comm]

/-- Past the prologue WRITE is its three checks in order, then the scatter and the move (R150). -/
theorem exec_write {s : State} (v : Word) (n : Nat) (hf : s.fault = false) (hv : s.valid = true) :
    exec (.write v n) s =
      if 32 < n then violate .nTooLarge s
      else if 2 ^ n ≤ v.toNat then violate .valueNotMasked s
      else if s.remaining < n then .next (failOutOfBounds s)
      else onPort (scatter s s.abs n v.toNat) fun s1 => .next (doneOk (moveBy n s1)) :=
  withCursor_passes hf hv

/-- After its scatter a WRITE moves the cursor by `n`, exactly, and sets `LAST`; the port's accesses are R152's. -/
theorem State.Inv.write_commits {s s1 : State} {n v : Nat} (hI : s.Inv) (hv : s.valid = true)
    (hr : (n : Int) ≤ s.remaining) (hs : scatter s s.abs n v = .ok s1) :
    let t := doneOk (moveBy n s1)
    t.abs = s.abs + n ∧ t.bitOff.toNat < s.cfg.w ∧ t.remaining = s.remaining - n ∧
      t = { s with
        cellIdx := t.cellIdx, bitOff := t.bitOff, rem := t.rem, last := .ok, mem := t.mem,
        trace := s.trace ++ s.stores t.mem n } := by
  have hsc := scatter_ok hI.memWf hs
  have hI1 : s1.Inv := hI.withMem hsc.rest hsc.wf hsc.inSpace
  obtain ⟨m, rfl⟩ : ∃ m, s1 = { s with mem := m, trace := s.trace ++ s.stores m n } :=
    ⟨s1.mem, by rw [← hsc.trace_eq]; exact hsc.rest⟩
  obtain ⟨habs, hoff, hrem, -⟩ := hI1.positioned hv (d := n) (by omega) fun _ => hr
  exact ⟨Int.ofNat.inj habs, hoff, hrem, rfl⟩

/-- Settles O32: each check decides in its turn, and the commit is the scatter of R151 and the move. -/
theorem writeStoresTheRunAndNothingElse : Obligations.WriteStoresTheRunAndNothingElse := by
  intro v n s hI
  refine ⟨encode_write v, prologued fun hf hcursor => ?_⟩
  have hv := hcursor rfl
  refine ⟨fun hn => ?_, fun hn hval => ?_, fun hn hval hr => ?_, fun hn hval hr => ?_⟩
  · rw [exec_write v n hf hv, if_pos hn]
    rfl
  · rw [exec_write v n hf hv, if_neg (not_lt.mpr hn), if_pos hval]
    rfl
  · rw [exec_write v n hf hv, if_neg (not_lt.mpr hn), if_neg (not_le.mpr hval), if_pos hr]
    rfl
  · obtain ⟨s1, hs, hexec⟩ := write_answers hI hf hv hn hval hr
    exact ⟨_, hexec, fun _ => scatter_streamBit_inside hI.memWf hs, fun _ => scatter_streamBit_outside hI.memWf hs,
      fun _ => scatter_readByte_outside hI.memWf hs, hI.write_commits hv hr hs⟩

/-! ### What a WRITE that ended did to the port and to memory (R152) -/

/-- A WRITE that ends in `done(OK)` scattered its run, then moved (R150). -/
theorem Completed.of_write {s t : State} {v : Word} {n : Nat} (h : Completed s (.write v n) t) :
    ∃ s1, scatter s s.abs n v.toNat = .ok s1 ∧ t = doneOk (moveBy n s1) := by
  cases h with
  | move hm => cases hm
  | query hq => cases hq
  | read hi => cases hi
  | write _ _ _ _ hs => exact ⟨_, hs, rfl⟩

/-- Settles O33: a failing WRITE writes `LAST` and `FAULT` alone, and one that completes makes the accesses
of its scatter. -/
theorem writeAccessesInOrder : Obligations.WriteAccessesInOrder := by
  intro v n s t hI h
  refine ⟨fun hfail => ?_, fun hok => ?_⟩
  · exact (exec_next h).keeps (P := fun t => t.last ≠ .ok → t.trace = s.trace ∧ t.mem = s.mem)
      (fun _ _ _ => ⟨rfl, rfl⟩) (fun hc hne => absurd hc.last hne) hfail
  · obtain ⟨s1, hs, rfl⟩ := ((exec_next h).completed_of_ok hok).of_write
    refine ⟨(scatter_ok hI.memWf hs).trace_eq, fun hn => ?_⟩
    subst hn
    cases hs.symm.trans (scatter_zero s s.abs v.toNat)
    rfl

/-! ### The round trip (R153) -/

/-- After a cursor command that ends OK the next one passes the prologue too (R25, R165). -/
theorem State.Ready.of_exec_ok {s t : State} {i : Instr} (hR : s.Ready) (h : exec i s = .next t) (hok : t.last = .ok)
    (hinit : ∀ b c, i ≠ .init b c) (hrelease : i ≠ .release) : t.Ready where
  toInv := exec_inv hR.toInv h
  noFault := ((exec_next h).completed_of_ok hok).fault.trans hR.noFault
  cursor := (exec_sameBuffer h hinit hrelease).valid.trans hR.cursor

/-- A SEEK from inside the buffer back to a position the cursor has passed ends OK there and keeps every stream bit
(R104). -/
theorem State.Ready.seek_back {s : State} (hR : s.Ready) {p : Nat} (hp : p ≤ s.abs) (hr : 0 ≤ s.remaining) :
    ∃ t, exec (.seek (BitVec.ofNat 64 p)) s = .next t ∧ t.last = .ok ∧ t.abs = p ∧
      t.remaining = s.remaining + (s.abs - p) ∧ ∀ q, t.streamBit q = s.streamBit q := by
  have htarget : (BitVec.ofNat 64 p).toNat = p :=
    (BitVec.toNat_ofNat ..).trans (Nat.mod_eq_of_lt (hp.trans_lt s.abs_lt_two_pow_64))
  have hexec := seek_answers hR.noFault hR.cursor (a := BitVec.ofNat 64 p) (by omega)
  rw [htarget] at hexec
  obtain ⟨habs, -, hrem, -⟩ := hR.toInv.positioned hR.cursor (d := (p : Int) - s.abs) (by omega) (by omega)
  exact ⟨_, hexec, rfl, by omega, by omega, fun _ => rfl⟩

/-- A `READ.W` over real bits that are those of `v` returns `v` (R120, R127). -/
theorem State.Ready.readW_returns {s : State} (hR : s.Ready) {n v : Nat} (hn : n ≤ 32) (hv : v < 2 ^ n)
    (hr : (n : Int) ≤ s.remaining) (hbits : ∀ j, j < n → s.streamBit (s.abs + j) = v.testBit (n - 1 - j)) :
    ∃ t, exec (.readW n) s = .next t ∧ t.last = .ok ∧ t.result.toNat = v := by
  obtain ⟨t, ht, hval, -, -, -, hrest⟩ := read_consumes hR.toInv (i := .readW n) rfl hR.noFault hR.cursor hn
    (by omega) fun _ => hr
  rw [State.tolerantValue_of_le hr, s.streamValue_unique _ _ v hv hbits] at hval
  exact ⟨t, ht, congrArg State.last hrest, hval⟩

/-- Settles O34: the SEEK brings the cursor back to the first bit of the run, and the READ gathers the bits the WRITE
scattered. -/
theorem writeSeekReadRoundTrip : Obligations.WriteSeekReadRoundTrip := by
  intro v n s hR hn hval hr
  obtain ⟨s1, hs, hwrite⟩ := write_answers hR.toInv hR.noFault hR.cursor hn hval hr
  obtain ⟨habs, -, hrem, -⟩ := hR.toInv.write_commits hR.cursor hr hs
  have hRt := hR.of_exec_ok hwrite rfl (by simp) (by simp)
  obtain ⟨u, hseek, hseekOk, habs', hrem', hkept⟩ := hRt.seek_back (p := s.abs) (by omega) (by omega)
  have hRu := hRt.of_exec_ok hseek hseekOk (by simp) (by simp)
  have hbits : ∀ j, j < n → u.streamBit (u.abs + j) = v.toNat.testBit (n - 1 - j) := fun j hj => by
    rw [habs', hkept]
    exact scatter_streamBit_inside hR.memWf hs hj
  obtain ⟨x, hread, hreadOk, hresult⟩ := hRu.readW_returns hn hval (by omega) hbits
  exact ⟨_, u, x, hwrite, rfl, hseek, hseekOk, hread, hreadOk, hresult⟩

end Sys2Proof.Machine

/-! ## How commands end and what they see (60_exceptions.md R160 to R175) -/

namespace Sys2Proof.Machine

/-! ### The sticky fault (R163) -/

/-- A record that runs on a faulted engine leaves `FAULT` set. -/
theorem runRecord_keeps_fault {r : Record} {s t : State} (h : runRecord r s = .next t) (hf : s.fault = true) :
    t.fault = true := by
  cases runRecord_next h with
  | faulted => exact hf
  | illegal => rfl
  | command _ _ hexec =>
    cases (exec_of_fault _ hf).symm.trans hexec
    exact hf

/-- On a faulted engine a record that keeps the host's duty of R193, or is an illegal word, writes `LAST` alone. -/
theorem runRecord_of_fault {r : Record} {s : State} (hf : s.fault = true)
    (hlive : ∀ i, decode r = .ok i → s.bufferLiveFor i) : runRecord r s = .next (refuseFaulted s) := by
  cases hd : decode r with
  | error e => rw [runRecord_of_illegal hd, withPrologue, if_pos hf]
  | ok i => rw [runRecord_of_live hd (hlive i hd), exec_of_fault i hf]

theorem raceCommand_keeps_fault {r : Record} {l : List CellStore} {s t : State} (h : raceCommand r l s = .next t)
    (hf : s.fault = true) : t.fault = true := by
  obtain ⟨-, u, hu, rfl⟩ := raceCommand_next h
  have hentry : (raceEntry l s).fault = true := by rw [raceEntry_rest]; exact hf
  have hu : u.fault = true := runRecord_keeps_fault hu hentry
  rw [respond_fault, storesAfter_rest]
  exact hu

/-- Of the host's events only the two that assert reset clear `FAULT` (R163, R190). -/
theorem hostEvent_keeps_fault {e : HostEvent} {s t : State} (h : hostEvent e s = .next t) (hf : s.fault = true)
    (hreset : e ≠ .reset) (habandon : ∀ r, e ≠ .commandThenReset r) : t.fault = true := by
  cases e with
  | command r =>
    obtain ⟨u, hu, rfl⟩ := issueCommand_next h
    exact (runRecord_keeps_fault hu hf : u.fault = true)
  | commandRaced r stores => exact raceCommand_keeps_fault h hf
  | commandThenReset r => exact absurd rfl (habandon r)
  | reset => exact absurd rfl hreset
  | storeCell st =>
    simp only [hostEvent, hostStoreCell] at h
    split at h <;> cases h
    exact hf
  | storeByte a b =>
    simp only [hostEvent, hostStoreByte] at h
    split at h <;> cases h
    exact hf
  | loadCell a => exact hostLoadCell_next h ▸ hf
  | free r => cases h; exact hf
  | allocate r => cases h; exact hf
  | breach b => cases h

/-- Settles O10: check 1 of the prologue comes before all others, and no event but a reset clears `FAULT`. -/
theorem faultedEngineRefusesEveryCommand : Obligations.FaultedEngineRefusesEveryCommand := by
  refine ⟨fun i s hf => exec_of_fault i hf, fun r s hf hlive => runRecord_of_fault hf hlive, fun s t h hf => ?_⟩
  rcases step_next h with ⟨-, rfl⟩ | ⟨e, rest, hp, he⟩
  · exact .inl hf
  · by_cases hreset : e = .reset
    · exact .inr ⟨rest, .inl (hreset ▸ hp)⟩
    by_cases habandon : ∃ r, e = .commandThenReset r
    · obtain ⟨r, rfl⟩ := habandon
      exact .inr ⟨rest, .inr ⟨r, hp⟩⟩
    · exact .inl (hostEvent_keeps_fault he hf hreset (not_exists.mp habandon))

/-! ### The four outcomes (R160 to R162, R167, R170) -/

/-- Settles O37: every command answers, and the ways to end are the four outcomes. -/
theorem everyCommandEndsInOneOfFourOutcomes : Obligations.EveryCommandEndsInOneOfFourOutcomes := by
  refine ⟨fun i s hI => ?_, fun r e s hd => ?_⟩
  · obtain ⟨t, ht⟩ := exec_total i hI
    refine ⟨t, ht, ?_⟩
    cases exec_next ht with
    | faulted hf => exact .inr (.inr (.inr ⟨rfl, hf⟩))
    | contract hf => exact .inr (.inr (.inl ⟨rfl, hf⟩))
    | outOfBounds hf => exact .inr (.inl ⟨rfl, hf⟩)
    | completed hf hc => exact .inl ⟨hc.last, hf, hc.fault.trans hf⟩
  · rw [runRecord_of_illegal hd, withPrologue]
    split
    · rename_i hf
      exact ⟨_, rfl, .inr ⟨rfl, hf⟩⟩
    · rename_i hf
      exact ⟨_, rfl, .inl ⟨rfl, Bool.eq_false_iff.mpr hf⟩⟩

/-- Settles O40: of the ways to end only OutOfBounds leaves `LAST = OOB`, and it writes nothing else. -/
theorem outOfBoundsChangesOnlyLast : Obligations.OutOfBoundsChangesOnlyLast := by
  intro i s t h hoob
  cases exec_next h with
  | faulted => cases hoob
  | contract => cases hoob
  | outOfBounds hf => exact ⟨rfl, hf⟩
  | completed _ hc => cases hc.last.symm.trans hoob

/-- Settles O41: `FAULT` is newly set by an illegal word or by a violated contract, and either writes two fields. -/
theorem faultsArePrecise : Obligations.FaultsArePrecise := by
  intro r s t h hs ht
  have hkept : s.fault ≠ t.fault := by simp [hs, ht]
  cases runRecord_next h with
  | faulted => exact absurd rfl hkept
  | illegal hd => exact ⟨rfl, .inl ⟨⟨_, hd⟩, rfl⟩⟩
  | command hd _ hexec =>
    cases exec_next hexec with
    | faulted => exact absurd rfl hkept
    | contract => exact ⟨rfl, .inr ⟨⟨_, hd⟩, rfl⟩⟩
    | outOfBounds => exact absurd rfl hkept
    | completed _ hc => exact absurd hc.fault.symm hkept

/-! ### What the checks of a command decide (R165, R166, R168) -/

/-- A contract violation of a read or peek of this kind past its width check (R126, R129, R131). -/
def ReadKind.violates (kind : ReadKind) (n : Nat) (s : State) : Bool :=
  match kind with
  | .tolerant => decide (s.remaining < n ∧ s.remaining - n < Config.remMin)
  | .fast => decide (s.remaining < n)
  | .safe => false

/-- A contract violation of `i` past the prologue: one of the conditions of R166. -/
def State.violates (s : State) (i : Instr) : Bool :=
  match readOf i, i with
  | some (kind, _, bound, n), _ => decide (bound < n) || kind.violates n s
  | none, .init b c =>
    decide (s.cfg.space ≤ b.toNat ∨ Config.capMax < c.toNat ∨ s.cfg.space < b.toNat + cellsFor s.cfg c.toNat)
  | none, .write v n => decide (32 < n ∨ 2 ^ n ≤ v.toNat)
  | none, _ => false

/-- A command whose contract holds asks for bits outside the buffer and reports it (R164, R168). -/
def State.outside (s : State) : Instr → Bool
  | .skip d => decide ((0 ≤ d.toInt ∧ s.remaining < d.toInt) ∨ (d.toInt < 0 ∧ s.abs + d.toInt < 0))
  | .seek a => decide (s.cap < a.toNat)
  | .align => decide (s.remaining < s.alignBits)
  | .sreadW n | .sreadN n | .speekW n | .speekN n | .write _ n => decide (s.remaining < n)
  | .init _ _ | .release | .getAlign | .getPos | .getRem
  | .readW _ | .readN _ | .peekW _ | .peekN _ | .freadW _ | .freadN _ | .fpeekW _ | .fpeekN _ => false

/-- The outcome of a command past the prologue: its contract, then the bounds (R165). -/
def State.verdict (s : State) (i : Instr) : Last :=
  if s.violates i then .contract else if s.outside i then .oob else .ok

/-- The outcome of a command, by the checks in the order of R165. -/
def State.outcome (s : State) (i : Instr) : Last :=
  if s.fault then .faulted else if needsCursor i && !s.valid then .contract else s.verdict i

theorem State.violates_of_read {s : State} {i : Instr} {kind : ReadKind} {mode : ReadMode} {bound n : Nat}
    (hi : readOf i = some (kind, mode, bound, n)) : s.violates i = (decide (bound < n) || kind.violates n s) := by
  simp only [State.violates, hi]

/-- OutOfBounds past the end of the buffer is the safe kind's (R129, R131). -/
theorem State.outside_of_read {s : State} {i : Instr} {kind : ReadKind} {mode : ReadMode} {bound n : Nat}
    (hi : readOf i = some (kind, mode, bound, n)) : s.outside i = decide (kind = .safe ∧ s.remaining < n) := by
  cases i with
  | init | skip | seek | align | getAlign | getPos | getRem | release | write => cases hi
  | _ => cases hi; simp [State.outside]

section
variable {s t : State} (hf : s.fault = false)
include hf

/-- A read or peek that passes its checks commits with `LAST = OK` (R123, R126, R129, R131). -/
theorem read_last {i : Instr} {kind : ReadKind} {mode : ReadMode} {bound n : Nat}
    (hi : readOf i = some (kind, mode, bound, n)) (hv : s.valid = true) (h : exec i s = .next t) :
    t.last = s.verdict i := by
  rw [exec_read hi] at h
  unfold readCommand at h
  rw [withCursor_passes hf hv] at h
  rw [State.verdict, State.violates_of_read hi, State.outside_of_read hi]
  cases kind with
  | tolerant | fast | safe =>
    simp only at h
    split at h
    · cases h; simp [*, faultCode]
    · split at h
      · cases h; simp [*, ReadKind.violates, faultCode]
      · obtain ⟨⟨v, s1⟩, -, hcommit⟩ := onPort_next h
        cases hcommit
        simp [*, ReadKind.violates, commitRead]

theorem init_last {b : DWord} {c : Word} (h : exec (.init b c) s = .next t) : t.last = s.verdict (.init b c) := by
  rw [exec_init b c hf] at h
  simp only [State.verdict, State.violates, State.outside, readOf]
  split_ifs at h <;> cases h <;> simp [*, faultCode]

theorem write_last {v : Word} {n : Nat} (hv : s.valid = true) (h : exec (.write v n) s = .next t) :
    t.last = s.verdict (.write v n) := by
  rw [exec_write v n hf hv] at h
  simp only [State.verdict, State.violates, State.outside, readOf]
  split_ifs at h
  · cases h; simp [*, faultCode]
  · cases h; simp [*, faultCode]
  · cases h; simp [*]
  · obtain ⟨s1, -, hcommit⟩ := onPort_next h
    cases hcommit
    simp [*]

/-- Past the prologue a command's own checks decide `LAST` (R165). -/
theorem exec_verdict {i : Instr} (hcursor : needsCursor i = true → s.valid = true) (h : exec i s = .next t) :
    t.last = s.verdict i := by
  cases i with
  | init b c => exact init_last hf h
  | release =>
    cases (exec_release hf).symm.trans h
    rfl
  | skip d =>
    rw [exec_skip hf (hcursor rfl), skipBy_eq] at h
    cases h
    simp only [State.verdict, State.violates, State.outside, readOf]
    split <;> simp [*]
  | seek a =>
    have hv := hcursor rfl
    have hcap : s.cap - a.toNat = s.remaining - ((a.toNat : Int) - s.abs) := by unfold State.cap; omega
    by_cases hout : s.cap < a.toNat
    · cases (seek_outOfBounds hf hv (by omega)).symm.trans h
      simp [State.verdict, State.violates, State.outside, readOf, hout]
    · cases (seek_answers hf hv (by omega)).symm.trans h
      simp [State.verdict, State.violates, State.outside, readOf, hout]
  | align =>
    rw [align_answers hf (hcursor rfl)] at h
    cases h
    simp only [State.verdict, State.violates, State.outside, readOf]
    split <;> simp [*]
  | getAlign | getPos | getRem =>
    cases (query_answers rfl hf (hcursor rfl)).symm.trans h
    rfl
  | write v n => exact write_last hf (hcursor rfl) h
  | _ => exact read_last hf rfl (hcursor rfl) h

end

/-- A command's `LAST` is decided by the checks of R165, in their order. -/
theorem exec_last {i : Instr} {s t : State} (h : exec i s = .next t) : t.last = s.outcome i := by
  unfold State.outcome
  split
  · rename_i hf
    cases (exec_of_fault i hf).symm.trans h
    rfl
  · rename_i hf
    have hf : s.fault = false := Bool.eq_false_iff.mpr hf
    split
    · rename_i hc
      obtain ⟨hn, hv⟩ : needsCursor i = true ∧ s.valid = false := by simpa using hc
      cases (exec_of_noCursor hf hn hv).symm.trans h
      rfl
    · rename_i hc
      exact exec_verdict hf (by simpa using hc) h

/-- The cursor commands are those but INIT and RELEASE (R25). -/
theorem needsCursor_iff {i : Instr} : needsCursor i = true ↔ (∀ b c, i ≠ .init b c) ∧ i ≠ .release := by
  refine ⟨fun hn => ⟨?_, ?_⟩, fun ⟨hinit, hrelease⟩ => needsCursor_of_ne hinit hrelease⟩
  · rintro b c rfl
    cases hn
  · rintro rfl
    cases hn

/-- CONTRACT is the missing cursor's or the command's own violation (R166). -/
theorem State.outcome_eq_contract_iff {s : State} {i : Instr} (hf : s.fault = false) :
    s.outcome i = .contract ↔ (needsCursor i = true ∧ s.valid = false) ∨ s.violates i = true := by
  unfold State.outcome State.verdict
  split_ifs <;> simp_all

/-- What asks for bits needs a cursor. -/
theorem State.needsCursor_of_outside {s : State} {i : Instr} (h : s.outside i = true) : needsCursor i = true := by
  cases i with
  | init | release => cases h
  | _ => rfl

/-- OOB takes a cursor and a command whose contract holds and whose bounds fail (R165, R168). -/
theorem State.outcome_eq_oob_iff {s : State} {i : Instr} :
    s.outcome i = .oob ↔ s.fault = false ∧ s.valid = true ∧ s.violates i = false ∧ s.outside i = true := by
  have hneeds := s.needsCursor_of_outside (i := i)
  unfold State.outcome State.verdict
  split_ifs <;> simp_all

/-- Settles O38: `LAST` is CONTRACT by check 3 or by the command's own conditions, which are those of R166. -/
theorem contractViolationsExactly : Obligations.ContractViolationsExactly := by
  intro i s t h hf
  rw [exec_last h, State.outcome_eq_contract_iff hf, needsCursor_iff, and_assoc]
  refine or_congr_right ?_
  cases i with
  | init | write => exact decide_eq_true_iff
  | readW | readN | peekW | peekN =>
    simp only [State.violates, ReadKind.violates, readOf, Bool.or_eq_true, decide_eq_true_eq]
    rfl
  | _ => simp [State.violates, ReadKind.violates, readOf]

/-- Settles O39: `LAST` is OOB where all checks before the bounds pass and the bounds fail, in the order of R165. -/
theorem outOfBoundsExactly : Obligations.OutOfBoundsExactly := by
  intro i s t h
  rw [exec_last h, State.outcome_eq_oob_iff]
  refine and_congr_right fun _ => and_congr_right fun _ => ?_
  cases i <;> simp [State.violates, ReadKind.violates, State.outside, readOf, and_assoc]

/-! ### A command sees the cells of its buffer only (R175, 20_memory.md R56) -/

/-- The cells of the buffer of `s` are alike in two memories (R51). -/
def State.AlikeInBuffer (s : State) (m m' : Memory) : Prop :=
  ∀ c, c < cellsFor s.cfg s.cap.toNat →
    m.readCell s.cfg (s.base.toNat + c) = m'.readCell s.cfg (s.base.toNat + c)

/-- All other cells are alike in two memories. -/
def State.AlikeOutsideBuffer (s : State) (m m' : Memory) : Prop :=
  ∀ a, (∀ c, c < cellsFor s.cfg s.cap.toNat → a ≠ s.base.toNat + c) → m.readCell s.cfg a = m'.readCell s.cfg a

/-- Where a command takes `s` to `t`, it takes `s` with memory `m` to `t'`: the same but for memory, which in the buffer
is that of `t`, and outside it is still `m`. -/
structure State.SeesOnlyBuffer (s t : State) (m : Memory) (t' : State) : Prop where
  registers : t' = { t with mem := t'.mem }
  inside    : s.AlikeInBuffer t'.mem t.mem
  outside   : s.AlikeOutsideBuffer t'.mem m

section
variable {s : State} {m : Memory}

theorem State.streamBit_of_alike (h : s.AlikeInBuffer m s.mem) {q : Nat}
    (hq : q / s.cfg.w < cellsFor s.cfg s.cap.toNat) : State.streamBit { s with mem := m } q = s.streamBit q := by
  unfold State.streamBit
  rw [h _ hq]

/-- The value of a read is the buffer's (R124). -/
theorem State.tolerantValue_of_alike (h : s.AlikeInBuffer m s.mem) (n : Nat) :
    State.tolerantValue { s with mem := m } n = s.tolerantValue n := by
  have hbits : State.streamValue { s with mem := m } s.abs (s.realBits n) = s.streamValue s.abs (s.realBits n) := by
    refine State.streamValue_congr fun i hi => State.streamBit_of_alike h (State.Inv.div_lt_cells ?_)
    unfold State.realBits at hi
    unfold State.cap
    omega
  exact congrArg (· <<< (n - s.realBits n)) hbits

/-- A command that leaves memory alone, and answers alike on either memory, sees only its buffer. -/
theorem State.SeesOnlyBuffer.of_mem (h : s.AlikeInBuffer m s.mem) {t : State} (ht : t.mem = s.mem) :
    s.SeesOnlyBuffer t m { t with mem := m } :=
  ⟨rfl, ht ▸ h, fun _ _ => rfl⟩

/-- Cells whose stream bits are alike are alike (R53). -/
theorem readCell_of_streamBit {u u' : State} (hcfg : u'.cfg = u.cfg) (hbase : u'.base = u.base) {c : Nat}
    (h : ∀ q, q / u.cfg.w = c → u'.streamBit q = u.streamBit q) :
    u'.mem.readCell u.cfg (u.base.toNat + c) = u.mem.readCell u.cfg (u.base.toNat + c) := by
  have hcell := u'.streamValue_cell c
  rw [hcfg, hbase] at hcell
  rw [← hcell, ← u.streamValue_cell c]
  refine State.streamValue_congr fun i hi => h _ ?_
  rw [Nat.mul_comm, Nat.mul_add_div u.w_pos, Nat.div_eq_of_lt hi, Nat.add_zero]

/-- The port's accesses to a cell of the buffer carry the buffer's contents (R152). -/
theorem cellAccesses_of_alike {m' : Memory} (h : s.AlikeInBuffer m m') (p k : Nat) {c : Nat}
    (hc : c < cellsFor s.cfg s.cap.toNat) :
    cellAccesses s.cfg s.base.toNat p k m c = cellAccesses s.cfg s.base.toNat p k m' c := by
  unfold cellAccesses
  rw [h c hc]

/-- A run below the capacity scattered into alike buffers makes the same accesses and leaves alike buffers (R151). -/
theorem scatter_seesOnlyBuffer {s1 s1' : State} {p k v : Nat} (hwf : s.mem.wf) (hwf' : m.wf)
    (h : s.AlikeInBuffer m s.mem) (hcap : ((p + k : Nat) : Int) ≤ s.cap) (hs : scatter s p k v = .ok s1)
    (hs' : scatter { s with mem := m } p k v = .ok s1') : s.SeesOnlyBuffer s1 m s1' := by
  have hsc := scatter_ok hwf hs
  have hsc' := scatter_ok (s := { s with mem := m }) hwf' hs'
  have hrest := hsc.rest
  have hrest' := hsc'.rest
  have hcfg : s1.cfg = s.cfg := by rw [hrest]
  have hbase : s1.base = s.base := by rw [hrest]
  have hinside : s.AlikeInBuffer s1'.mem s1.mem := fun c hc => by
    have hcell := readCell_of_streamBit (u := s1) (u' := s1') (c := c) (by rw [hrest, hrest']) (by rw [hrest, hrest'])
      fun q hq => by
        rw [scatter_streamBit hwf hs, scatter_streamBit (s := { s with mem := m }) hwf' hs',
          State.streamBit_of_alike h (by rwa [← hcfg, hq, hcfg])]
    rwa [hcfg, hbase] at hcell
  have htrace : s1'.trace = s1.trace := by
    rw [hsc.accesses, hsc'.accesses]
    refine congrArg (s.trace ++ ·) (List.flatMap_congr fun i hi => ?_)
    exact cellAccesses_of_alike hinside p k (cell_of_span_lt_cells hcap (List.mem_range.mp hi))
  refine ⟨by rw [hrest', htrace, hrest], hinside, fun a ha => hsc'.cells a ?_⟩
  show a < s.base.toNat + p / s.cfg.w ∨ s.base.toNat + p / s.cfg.w + cellSpan s.cfg.w p k ≤ a
  by_contra hin
  have hi : a - s.base.toNat - p / s.cfg.w < cellSpan s.cfg.w p k := by omega
  exact ha _ (cell_of_span_lt_cells hcap hi) (by omega)

theorem queryOf_of_move {i : Instr} {d : Int} (hm : moveOf s i = some d) : queryOf s i = none := by
  cases i with
  | skip | seek | align => rfl
  | _ => cases hm

/-- A positioning command that ends OK moved by its distance (R102, R104, R105). -/
theorem Completed.of_move {t : State} {i : Instr} {d : Int} (h : Completed s i t) (hm : moveOf s i = some d) :
    t = doneOk (moveBy d s) := by
  cases h with
  | init | release | write => cases hm
  | move hm' => cases hm.symm.trans hm'; rfl
  | query hq => cases (queryOf_of_move hm).symm.trans hq
  | read hi => cases hm.symm.trans (moveOf_of_read s hi).1

/-- A query that ends OK returned its value (R107 to R109). -/
theorem Completed.of_query {t : State} {i : Instr} {v : DWord} (h : Completed s i t) (hq : queryOf s i = some v) :
    t = doneOk (setResult v s) := by
  cases h with
  | init | release | write => cases hq
  | move hm => cases (queryOf_of_move hm).symm.trans hq
  | query hq' => cases hq.symm.trans hq'; rfl
  | read hi => cases hq.symm.trans (moveOf_of_read s hi).2

/-- A command that completes on either memory sees only its buffer: a read gathers, and a WRITE scatters, below the
capacity, and no other command reads memory. -/
theorem Completed.seesOnlyBuffer {t t' : State} {i : Instr} (hwf : s.mem.wf) (hwf' : m.wf)
    (halike : s.AlikeInBuffer m s.mem) (h : Completed s i t) (h' : Completed { s with mem := m } i t') :
    s.SeesOnlyBuffer t m t' := by
  cases h with
  | init =>
    obtain ⟨-, -, -, rfl⟩ := h'.of_init
    exact .of_mem halike rfl
  | release =>
    rw [h'.of_release]
    exact .of_mem halike rfl
  | move hm =>
    rw [h'.of_move hm]
    exact .of_mem halike rfl
  | query hq =>
    rw [h'.of_query hq]
    exact .of_mem halike rfl
  | @read _ _ mode _ n hi =>
    obtain ⟨-, -, -, -, rfl⟩ := h'.of_read hi
    rw [State.tolerantValue_of_alike halike]
    cases mode <;> exact .of_mem halike rfl
  | @write _ n _ _ _ _ hr hs =>
    obtain ⟨s1', hs', rfl⟩ := h'.of_write
    obtain ⟨hregisters, hinside, houtside⟩ :=
      scatter_seesOnlyBuffer hwf hwf' halike (by unfold State.cap; omega) hs hs'
    exact ⟨congrArg (fun u => doneOk (moveBy n u)) hregisters, hinside, houtside⟩

/-- A command that does not end OK writes `LAST`, and `FAULT` where it is CONTRACT (R161 to R163). -/
theorem Ended.eq_of_ne_ok {t : State} {i : Instr} (h : Ended s i t) (hne : t.last ≠ .ok) :
    t = { s with last := t.last, fault := s.fault || decide (t.last = .contract) } := by
  cases h with
  | faulted | outOfBounds => simp [refuseFaulted, failOutOfBounds]
  | contract => simp [raiseFault, faultCode]
  | completed _ hc => exact absurd hc.last hne

/-- No check of a command reads memory, so its outcome is the same on any (R165). -/
theorem exec_last_of_mem {i : Instr} {t t' : State} (h : exec i s = .next t)
    (h' : exec i { s with mem := m } = .next t') : t'.last = t.last :=
  (exec_last h').trans (exec_last h).symm

theorem exec_seesOnlyBuffer {i : Instr} {t t' : State} (hwf : s.mem.wf) (hwf' : m.wf)
    (halike : s.AlikeInBuffer m s.mem) (h : exec i s = .next t) (h' : exec i { s with mem := m } = .next t') :
    s.SeesOnlyBuffer t m t' := by
  have hlast := exec_last_of_mem h h'
  by_cases hok : t.last = .ok
  · exact ((exec_next h).completed_of_ok hok).seesOnlyBuffer hwf hwf' halike
      ((exec_next h').completed_of_ok (hlast.trans hok))
  · rw [(exec_next h').eq_of_ne_ok (hlast ▸ hok), (exec_next h).eq_of_ne_ok hok, hlast]
    exact .of_mem halike rfl

end

/-- Settles O47: the command answers on either memory, and what it leaves differs where the memories did. -/
theorem commandsSeeOnlyTheirBuffer : Obligations.CommandsSeeOnlyTheirBuffer := by
  intro i s t m hI hI' halike h
  obtain ⟨t', h'⟩ := exec_total i hI'
  obtain ⟨hregisters, hinside, houtside⟩ := exec_seesOnlyBuffer hI.memWf hI'.memWf halike h h'
  exact ⟨t'.mem, h'.trans (congrArg _ hregisters), hinside, houtside⟩

end Sys2Proof.Machine

/-! ## Reset, the run's fault record and the host's duties (70_reset_and_hazards.md R190 to R199) -/

namespace Sys2Proof.Machine

/-! ### Waiting, and duties that are broken (R192, R193, R199) -/

/-- Settles O50: no event is there to take. -/
theorem engineWaitsForACommand : Obligations.EngineWaitsForACommand := by
  intro s hp
  simp [step, nextEvent, hp]

/-- A cursor command over a freed buffer has no meaning (R193). -/
theorem runRecord_of_freed {r : Record} {i : Instr} {s : State} (hd : decode r = .ok i) (hi : needsCursor i = true)
    (hv : s.valid = true) (hfreed : s.bufferFreed = true) : runRecord r s = .refused .useAfterFree := by
  simp [runRecord, hd, hi, hv, hfreed]

theorem step_of_freed {r : Record} {i : Instr} {rest : List HostEvent} {s : State}
    (hp : s.pending = .command r :: rest) (hd : decode r = .ok i) (hi : needsCursor i = true) (hv : s.valid = true)
    (hfreed : s.bufferFreed = true) : step s = .refused .useAfterFree := by
  have hrun := runRecord_of_freed (s := beginCommand { s with pending := rest }) hd hi hv hfreed
  rw [step_of_pending hp]
  simp [hostEvent, issueCommand, hrun]

/-- Settles O55: a cursor command over a freed buffer is stopped before `exec`, a breach by its event. -/
theorem brokenDutiesAreRefused : Obligations.BrokenDutiesAreRefused :=
  ⟨fun _ _ _ _ hp hd hinit hrelease hv hfreed =>
    step_of_freed hp hd (needsCursor_of_ne hinit hrelease) hv hfreed, fun _ _ _ hp => step_of_pending hp⟩

/-! ### INIT and the host's duty (R193, R199) -/

/-- An INIT that is presented and ends OK leaves the cursor it names, its operands checked (R100). -/
theorem step_init_ok {r : Record} {b : DWord} {c : Word} {rest : List HostEvent} {s t : State}
    (hp : s.pending = .command r :: rest) (hd : decode r = .ok (.init b c)) (h : step s = .next t)
    (hok : t.last = .ok) :
    b.toNat < s.cfg.space ∧
      t = respond (doneOk (createCursor b c (beginCommand { s with pending := rest }))) := by
  rw [step_of_pending hp] at h
  obtain ⟨u, hu, rfl⟩ := issueCommand_next h
  rw [runRecord_of_live hd fun hi => by cases hi] at hu
  obtain ⟨hb, -, -, rfl⟩ := ((exec_next hu).completed_of_ok hok).of_init
  exact ⟨hb, rfl⟩

/-- Settles O57: the new cursor's note says whether a cell of its buffer is freed, and it decides the next command. -/
theorem initEndsTheDutyOnlyElsewhere : Obligations.InitEndsTheDutyOnlyElsewhere := by
  intro b c rest s t hp h hok
  obtain ⟨hb, rfl⟩ := step_init_ok hp (decodeOfEncodeIsTheCommand (.init b c) rfl) h hok
  have hnote := createCursor_bufferFreed_iff (s := beginCommand { s with pending := rest }) c hb
  refine ⟨fun hcell r i later hrest hd hinit hrelease => ?_, fun hcells i _ _ => ?_⟩
  · exact step_of_freed hrest hd (needsCursor_of_ne hinit hrelease) rfl (hnote.mpr hcell)
  · refine Bool.eq_false_iff.mpr fun hfreed => ?_
    obtain ⟨j, hj, hcell⟩ := hnote.mp hfreed
    exact Bool.eq_false_iff.mp (hcells j hj) hcell

/-! ### Reset (R190, R191) -/

/-- Settles O9: the reset event runs `hardReset`, and a step that clears `FAULT` takes one of the two reset events. -/
theorem onlyHardwareResetClearsFault : Obligations.OnlyHardwareResetClearsFault := by
  refine ⟨fun s rest hp => ?_, fun s t h hs ht => ?_⟩
  · exact ⟨hardReset { s with pending := rest }, step_of_pending hp,
      rfl, rfl, rfl, rfl, rfl, rfl, rfl, rfl, rfl, rfl, rfl⟩
  · obtain ⟨-, -, hsticky⟩ := faultedEngineRefusesEveryCommand
    exact (hsticky s t h hs).resolve_left (by simp [ht])

/-- What a reset leaves of `s` when it abandons a command that was to end in `u` (R191; log entries 9 and 22). -/
def State.abandoned (s u : State) : State :=
  { hardReset s with
    mem := landStores s.cfg u.trace s.draws s.mem
    faultedBefore := s.hasFaulted || (u.fault && Config.abandonedFaultReached (s.draws + u.trace.length))
    draws := s.draws + u.trace.length + 1
    k := s.k + 1 }

theorem State.abandoned_hasFaulted (s u : State) :
    (s.abandoned u).hasFaulted =
      (s.hasFaulted || (u.fault && Config.abandonedFaultReached (s.draws + u.trace.length))) :=
  rfl

theorem abandonCommand_of_run {r : Record} {s u : State} (h : runRecord r (beginCommand s) = .next u) :
    abandonCommand r s = .next (s.abandoned u) := by
  simp [abandonCommand, h, State.abandoned]

theorem abandoned_of_abandonCommand {r : Record} {s t : State} (h : abandonCommand r s = .next t) :
    ∃ u, runRecord r (beginCommand s) = .next u ∧ t = s.abandoned u := by
  obtain ⟨u, hu, -⟩ := abandonCommand_next h
  cases (abandonCommand_of_run hu).symm.trans h
  exact ⟨u, hu, rfl⟩

/-- Whichever of its stores landed, a cell holds its old value, or the command wrote it and it holds what the command
would have left (R191). -/
theorem State.abandoned_cell {r : Record} {s u : State} (hI : s.Inv) (hu : runRecord r (beginCommand s) = .next u)
    (a : Nat) :
    (s.abandoned u).mem.readCell s.cfg a = s.mem.readCell s.cfg a ∨
    ((∃ v, Access.write a v ∈ u.trace) ∧ (s.abandoned u).mem.readCell s.cfg a = u.mem.readCell s.cfg a) := by
  obtain ⟨tr, htrace, hwritten, -⟩ := runRecord_storesTraced hI.beginCommand.memWf hu
  obtain rfl : u.trace = tr := by simpa using htrace
  rcases landStores_cell s.cfg u.trace s.draws s.mem hI.memWf a with hold | ⟨v, hv, hnew⟩
  · exact .inl hold
  · have hcell : u.mem.readCell s.cfg a = v := hwritten a v hv
    have hlt : v < 2 ^ s.cfg.w := hcell ▸ Memory.readCell_lt _ _ _
    exact .inr ⟨⟨v, hv⟩, by rw [hcell, ← Nat.mod_eq_of_lt hlt]; exact hnew⟩

/-- Settles O51: the abandoned command leaves the reset registers, and each cell old or as the command wrote it. -/
theorem resetDuringACommandAbandonsIt : Obligations.ResetDuringACommandAbandonsIt := by
  intro r rest s u hI hp hu
  have hcell := State.abandoned_cell (s := { s with pending := rest }) hI.unread hu
  refine ⟨State.abandoned { s with pending := rest } u, (step_of_pending hp).trans (abandonCommand_of_run hu),
    rfl, rfl, rfl, rfl, rfl, rfl, rfl, rfl, rfl, fun a => ?_, fun a hnot => ?_⟩
  · exact (hcell a).imp_right And.right
  · exact (hcell a).resolve_right fun ⟨⟨v, hv⟩, _⟩ => hnot v hv

/-! ### The record that the run has faulted (R198) -/

theorem State.hasFaulted_of_fault {s : State} (h : s.fault = true) : s.hasFaulted = true := by
  simp [State.hasFaulted, h]

theorem State.safe_iff {s : State} : s.safe ↔ s.fault = false ∧ s.faultedBefore = false := by
  simp [State.safe, State.hasFaulted]

theorem raceCommand_faultedBefore {r : Record} {l : List CellStore} {s t : State}
    (h : raceCommand r l s = .next t) : t.faultedBefore = s.faultedBefore := by
  obtain ⟨-, u, hu, rfl⟩ := raceCommand_next h
  have hentry : (raceEntry l s).faultedBefore = s.faultedBefore := by rw [raceEntry_rest]
  rw [respond_faultedBefore, storesAfter_rest]
  exact (runRecord_sameRun hu).faultedBefore.trans hentry

/-- Of the host's events only the two that assert reset write the record (log entry 22). -/
theorem hostEvent_faultedBefore {e : HostEvent} {s t : State} (h : hostEvent e s = .next t) (hreset : e ≠ .reset)
    (habandon : ∀ r, e ≠ .commandThenReset r) : t.faultedBefore = s.faultedBefore := by
  cases e with
  | command r =>
    obtain ⟨u, hu, rfl⟩ := issueCommand_next h
    exact (runRecord_sameRun hu).faultedBefore
  | commandRaced r stores => exact raceCommand_faultedBefore h
  | commandThenReset r => exact absurd rfl (habandon r)
  | reset => exact absurd rfl hreset
  | storeCell st =>
    simp only [hostEvent, hostStoreCell] at h
    split at h <;> cases h
    rfl
  | storeByte a b =>
    simp only [hostEvent, hostStoreByte] at h
    split at h <;> cases h
    rfl
  | loadCell a => rw [hostLoadCell_next h]
  | free r => cases h; rfl
  | allocate r => cases h; rfl
  | breach b => cases h

/-- A run that has faulted stays so: a reset keeps the record, every other event keeps both the record and `FAULT`. -/
theorem hostEvent_keeps_hasFaulted {e : HostEvent} {s t : State} (h : hostEvent e s = .next t)
    (hs : s.hasFaulted = true) : t.hasFaulted = true := by
  cases e with
  | reset => cases h; rwa [hardReset_hasFaulted]
  | commandThenReset r =>
    obtain ⟨u, -, rfl⟩ := abandoned_of_abandonCommand h
    rw [State.abandoned_hasFaulted, hs, Bool.true_or]
  | _ =>
    have hbefore := hostEvent_faultedBefore h (by simp) (by simp)
    rcases Bool.or_eq_true_iff.mp hs with hf | hb
    · exact State.hasFaulted_of_fault (hostEvent_keeps_fault h hf (by simp) (by simp))
    · simp [State.hasFaulted, hbefore, hb]

/-- A safe run comes to have faulted where `FAULT` is set, or where a reset abandons a command that was to set it. -/
theorem hostEvent_hasFaulted_newly {e : HostEvent} {s t : State} (h : hostEvent e s = .next t) (hs : s.safe)
    (ht : t.hasFaulted = true) :
    t.fault = true ∨
      ∃ r u, e = .commandThenReset r ∧ runRecord r (beginCommand s) = .next u ∧ u.fault = true := by
  cases e with
  | reset => cases h; rw [hardReset_hasFaulted, hs] at ht; cases ht
  | commandThenReset r =>
    obtain ⟨u, hu, rfl⟩ := abandoned_of_abandonCommand h
    rw [State.abandoned_hasFaulted, hs, Bool.false_or, Bool.and_eq_true] at ht
    exact .inr ⟨r, u, rfl, hu, ht.1⟩
  | _ =>
    have hbefore := hostEvent_faultedBefore h (by simp) (by simp)
    obtain ⟨-, hb⟩ := State.safe_iff.mp hs
    exact .inl (by simpa [State.hasFaulted, hbefore, hb] using ht)

theorem step_keeps_hasFaulted {s t : State} (h : step s = .next t) (hs : s.hasFaulted = true) :
    t.hasFaulted = true := by
  rcases step_next h with ⟨-, rfl⟩ | ⟨e, rest, -, he⟩
  · exact hs
  · exact hostEvent_keeps_hasFaulted (s := { s with pending := rest }) he hs

/-- Settles O56: every step keeps that the run has faulted, and a safe run faults by one of two events. -/
theorem faultedRunStaysFaulted : Obligations.FaultedRunStaysFaulted := by
  intro s t h
  have hkeep := step_keeps_hasFaulted h
  refine ⟨fun hf => hkeep (State.hasFaulted_of_fault hf), hkeep, fun ht => ⟨(State.safe_iff.mp ht).1, ?_⟩,
    fun hs ht => ?_⟩
  · exact Bool.eq_false_iff.mpr fun hs => Bool.eq_false_iff.mp ht (hkeep hs)
  · rcases step_next h with ⟨-, rfl⟩ | ⟨e, rest, hp, he⟩
    · exact absurd ht (Bool.eq_false_iff.mp hs)
    · refine (hostEvent_hasFaulted_newly he hs ht).imp_right ?_
      rintro ⟨r, u, rfl, hu, hf⟩
      exact ⟨r, rest, u, hp, hu, hf⟩

end Sys2Proof.Machine
